-- ==== Sys2Proof/Word.lean ====
section
/-! DEFINITION. The plain data widths of the CORE: bytes, 32-bit words, the 17-bit payload counters and the
16-bit probability cells (spec/10_state.md rules R20 to R27, spec/00_scope.md rule R14). Positions, limits, sizes and
offsets are natural numbers below `2^W_POS` (R9, `State.wPos`). -/

namespace Sys2Proof

/-- One byte of `IN` or `OUT` (R60, R61). -/
abbrev Byte := BitVec 8

/-- `u32` (R14). -/
abbrev Word := BitVec 32

/-- `rc.remaining` and `rc.budget` (R23, R24): 17 bits. -/
abbrev Count := BitVec 17

/-- One probability cell: 16 bits, of which 11 are used (R27). -/
abbrev Prob := BitVec 16

end Sys2Proof
end

