-- ==== Sys2Proof/Syntax.lean ====
section
/-! DEFINITION. The syntax: the cells and tables of the probability model as operands, the instructions (one
constructor per row of spec/opcode_table.json) and the whole packets of spec/30_encoding.md rule R102. -/

namespace Sys2Proof

/-- The two length decoders of R30. -/
inductive LenCoder where
  | matchLen
  | repLen
  deriving DecidableEq, Repr

/-- One cell of the probability table `P`, by table name and index (R28 to R33). The ten trees of `distSpecial`
(R32) share one run of 114 cells; `Probs.cell` places a slot's cell `i` in it. -/
inductive Cell where
  | isMatch (s : Fin 12) (ps : Fin 16)
  | isRep (s : Fin 12)
  | isRepG0 (s : Fin 12)
  | isRepG1 (s : Fin 12)
  | isRepG2 (s : Fin 12)
  | isRep0Long (s : Fin 12) (ps : Fin 16)
  | posSlot (ls : Fin 4) (i : Fin 64)
  | distSpecial (k : Fin 114)
  | posAlign (i : Fin 16)
  | lenChoice (l : LenCoder)
  | lenChoice2 (l : LenCoder)
  | lenLow (l : LenCoder) (ps : Fin 16) (i : Fin 8)
  | lenMid (l : LenCoder) (ps : Fin 16) (i : Fin 8)
  | lenHigh (l : LenCoder) (i : Fin 256)
  | literal (c : Fin 8) (k : Fin 768)
  deriving DecidableEq, Repr, Inhabited

/-- A table or row of `P` that a tree decoder is given as `probs` (R170, R171): every table of R28 to R33 with one
index, and every row of those with two. `distSpecial k` is the tree of slot `k + 4` (R32). -/
inductive Probs where
  | isMatch (s : Fin 12)
  | isRep
  | isRepG0
  | isRepG1
  | isRepG2
  | isRep0Long (s : Fin 12)
  | lenChoice (l : LenCoder)
  | lenChoice2 (l : LenCoder)
  | literal (c : Fin 8)
  | lenLow (l : LenCoder) (ps : Fin 16)
  | lenMid (l : LenCoder) (ps : Fin 16)
  | lenHigh (l : LenCoder)
  | posSlot (ls : Fin 4)
  | distSpecial (k : Fin 10)
  | posAlign
  deriving DecidableEq, Repr

/-- The parameters of construction beside `IN` (R9): the width of `dict.*` and `in.*`, and the capacity of `OUT`. -/
structure Params where
  wPos : Nat
  bufferSize : Nat
  deriving DecidableEq, Repr

/-- The instructions: one constructor per row of spec/opcode_table.json.

* CHUNK rows carry the fields of the chunk header (R91): `u` is `uncompressedSize - 1` (21 bits), `c` is
  `compressedSize - 1` (16 bits), `props` the property byte; a reserved row carries the bits of the control byte
  that its mask leaves open (R108).
* PACKET, LEN and DIST rows are codes made of decisions. Their opcode is the leading decisions (the type code of
  R97, the selector of R99, the slot of R100); their operands are decoded from the coded stream when they run, as
  the pseudocode of R194 to R205 writes it (log entry 5).
  DIST.SLOT4_13 carries its slot as `slot - 4`, DIST.SLOT14_63 as `slot - 14`, so every operand is a slot of the row.
* OP rows are operations invoked by the host or by another operation; they carry their arguments. Positions, sizes and
  distances are natural numbers (decision D3). -/
inductive Instr where
  | chunkEnd
  | chunkRawReset
  | chunkRaw
  | chunkReserved03
  | chunkReserved04 (x : BitVec 2)
  | chunkReserved08 (x : BitVec 3)
  | chunkReserved10 (x : BitVec 4)
  | chunkReserved20 (x : BitVec 5)
  | chunkReserved40 (x : BitVec 6)
  | chunkLzmaNone (u : BitVec 21) (c : BitVec 16)
  | chunkLzmaState (u : BitVec 21) (c : BitVec 16)
  | chunkLzmaProps (u : BitVec 21) (c : BitVec 16)
  | chunkLzmaFull (u : BitVec 21) (c : BitVec 16) (props : Byte)
  | packetLit
  | packetMatch
  | packetShortRep
  | packetLongRep0
  | packetLongRep1
  | packetLongRep2
  | packetLongRep3
  | lenLow (l : LenCoder) (ps : BitVec 2)
  | lenMid (l : LenCoder) (ps : BitVec 2)
  | lenHigh (l : LenCoder)
  | distSlot0To3 (slot : BitVec 2)
  | distSlot4To13 (k : Fin 10)
  | distSlot14To63 (k : Fin 50)
  | construct (input : List Byte) (params : Params)
  | inReadByte
  | inReserve (n : Nat)
  | inAlign4
  | dictInit (size : Nat)
  | dictSetLimit (chunkSize : Nat)
  | dictPutLiteral (b : Byte)
  | dictCopyMatch (distance length : Nat)
  | dictByteAt (distance : Nat)
  | dictIsComplete
  | rcInit (compressedSize : Count)
  | rcNormalize
  | rcDecodeBit (c : Cell)
  | rcDecodeDirect (n : Nat)
  | rcDecodeTree (probs : Probs) (n : Nat)
  | rcDecodeReverseTree (probs : Probs) (n : Nat)
  | rcDecodeMatchedLiteral (c : Fin 8) (matchByte : Byte)
  | rcIsComplete
  | lzDecode
  | lzDecodeLength (l : LenCoder) (ps : BitVec 2)
  | lzDecodeDistance (len : Nat)
  | lzResetState
  deriving DecidableEq, Repr

/-- A whole packet with its operands (R102): `len` is the length 2..273, `dist` the stored distance. -/
inductive Packet where
  | lit (b : Byte)
  | matchNew (len : Nat) (dist : Word)
  | shortRep
  | longRep0 (len : Nat)
  | longRep1 (len : Nat)
  | longRep2 (len : Nat)
  | longRep3 (len : Nat)
  deriving DecidableEq, Repr

/-- The seven packet types (R97). -/
inductive PacketKind where
  | lit
  | matchNew
  | shortRep
  | longRep0
  | longRep1
  | longRep2
  | longRep3
  deriving DecidableEq, Repr

/-- The three classes of a length code (R99). -/
inductive LenClass where
  | low
  | mid
  | high
  deriving DecidableEq, Repr

/-- What a packet's cells depend on besides its own operands (R218): `lz.state`, `posState`, the previous output
byte and the match byte. -/
structure PacketCtx where
  state : Fin 12
  posState : BitVec 2
  prev : Byte
  matchByte : Byte
  deriving DecidableEq, Repr

end Sys2Proof
end

