-- ==== Sys2Proof/Config.lean ====
section
/-! DEFINITION. What is fixed for the machine: the parameters of spec/00_scope.md rule R8, and the free values: what
spec/60_exceptions.md rule R305 leaves undefined after a fault, and the values the spec states for no operand. -/

namespace Sys2Proof.Config

/-- `LC`: literal context bits (R8). -/
def lc : Nat := 3
/-- `LP`: literal position bits (R8). -/
def lp : Nat := 0
/-- `PB`: position bits (R8). -/
def pb : Nat := 2
/-- `PROPS`, the one legal property byte (R8, R94). -/
def props : Byte := 0x5D
/-- `PROB_INIT`, the initial value of every cell (R8, R27). -/
def probInit : Prob := 0x400
/-- `N_PROBS`, the number of probability cells (R8, R33). -/
def nProbs : Nat := 7990
/-- `PROB_BITS` (R8): probabilities are in units of 1/2048. -/
def probBits : Nat := 11
/-- `MOVE_BITS` (R8): the adaptation shift. -/
def moveBits : Nat := 5
/-- `RC_TOP`, the normalisation threshold (R8, R162). -/
def rcTop : Word := 0x01000000
/-- `RC_INIT_BYTES`, the bytes consumed by `rc.init` (R8, R160). -/
def rcInitBytes : Nat := 5
/-- `LEN_MIN` (R8). -/
def lenMin : Nat := 2
/-- `LEN_MAX` (R8). -/
def lenMax : Nat := 273
/-- `DIST_MODEL_START` (R8): from this slot on there are extra bits. -/
def distModelStart : Nat := 4
/-- `DIST_MODEL_END` (R8): from this slot on the extra bits are direct bits and `posAlign`. -/
def distModelEnd : Nat := 14
/-- `ALIGN_BITS` (R8). -/
def alignBits : Nat := 4
/-- `END_MARKER`, the stored distance that is rejected (R8, R196). -/
def endMarker : Word := 0xFFFFFFFF
/-- `USIZE_MAX` (R8, R93). -/
def usizeMax : Nat := 2097152
/-- `CSIZE_MAX` (R8, R93). -/
def csizeMax : Nat := 65536
/-- Capacity of the output view at `State.reset`. DESIGN CHOICE (log entry 3): the capacity is an argument of
construction (R9); this is the one of the example of R140. -/
def resetCapacity : Nat := 4096
/-- `W_POS` at `State.reset`: the default of R9 (decision D3). It is an argument of construction. -/
def defaultWPos : Nat := 32

/-! Free values: no body, so nothing in Lean can evaluate one or prove a value of it.

After a fault (log entry 1): the first argument is the number of the draw (`State.draws`), the second the register,
cell or address. -/

/-- A `u32` register after a fault (R305). -/
opaque freeWord : Nat → Nat → Word
/-- A `W_POS`-bit register after a fault (R305); it is used modulo `2^W_POS`. -/
opaque freePosition : Nat → Nat → Nat
/-- `rc.remaining` and `rc.budget` after a fault (R305). -/
opaque freeCount : Nat → Nat → Count
/-- `lz.state` after a fault (R305). -/
opaque freeState : Nat → Fin 12
/-- A cell of `P` after a fault (R305). -/
opaque freeCell : Nat → Nat → Prob
/-- A byte of `OUT` after a fault (R305, R77). -/
opaque freeByte : Nat → Nat → Byte

/-! Where the spec states no value for an operand. -/

/-- `lenSlot` for a length below 2, where `min(len - 2, 3)` (R205) subtracts below zero. DESIGN CHOICE (log entry
26): the spec states no result there. -/
opaque freeLenSlot : Nat → Fin 4
/-- The cell `probs[i]` for an index `i` outside the table `probs`, reached by a tree deeper than its table only (R170,
R171: "a table with at least `2^n` cells"). DESIGN CHOICE (log entry 27): the spec states no cell there. -/
opaque freeTableCell : Probs → Nat → Cell

end Sys2Proof.Config
end

