-- ==== Sys2Proof/WellFormed.lean ====
section
/-! DEFINITION. Which instructions and packets are well formed: the operand ranges the spec gives. -/

namespace Sys2Proof

/-- How many cells a tree may index in a table, cell 0 counted (R28 to R33). The tree of slot `k + 4` has
`m = (slot >> 1) - 1` bits (R32). -/
def Probs.size : Probs → Nat
  | .isMatch _ => 16
  | .isRep => 12
  | .isRepG0 => 12
  | .isRepG1 => 12
  | .isRepG2 => 12
  | .isRep0Long _ => 16
  | .lenChoice _ => 1
  | .lenChoice2 _ => 1
  | .literal _ => 768
  | .lenLow _ _ => 8
  | .lenMid _ _ => 8
  | .lenHigh _ => 256
  | .posSlot _ => 64
  | .distSpecial k => 2 ^ ((k.val + 4) / 2 - 1)
  | .posAlign => 16

/-- The operand ranges of the spec: an input view and an output view of less than `2^W_POS` bytes (R9), a one-based
distance (R146, R148), a payload size of 1..65536 (R93, R160), a table that holds the tree (R170, R171), a length of
2..273 (R204, R205). Every header's fields are well formed, the property byte too: a wrong one is a fault of the chunk
command, not an ill-formed instruction (R244). Not every ill-formed instruction is refused: a payload size below 5 is a
fault (R160), a tree deeper than its table and a length below 2 run with a free value (log entries 26, 27). -/
def Instr.wellFormed : Instr → Bool
  | .chunkEnd => true
  | .chunkRawReset => true
  | .chunkRaw => true
  | .chunkReserved03 => true
  | .chunkReserved04 _ => true
  | .chunkReserved08 _ => true
  | .chunkReserved10 _ => true
  | .chunkReserved20 _ => true
  | .chunkReserved40 _ => true
  | .chunkLzmaNone _ _ => true
  | .chunkLzmaState _ _ => true
  | .chunkLzmaProps _ _ => true
  | .chunkLzmaFull _ _ _ => true
  | .packetLit => true
  | .packetMatch => true
  | .packetShortRep => true
  | .packetLongRep0 => true
  | .packetLongRep1 => true
  | .packetLongRep2 => true
  | .packetLongRep3 => true
  | .lenLow _ _ => true
  | .lenMid _ _ => true
  | .lenHigh _ => true
  | .distSlot0To3 _ => true
  | .distSlot4To13 _ => true
  | .distSlot14To63 _ => true
  | .construct input params => decide (input.length < 2 ^ params.wPos ∧ params.bufferSize < 2 ^ params.wPos)
  | .inReadByte => true
  | .inReserve _ => true
  | .inAlign4 => true
  | .dictInit _ => true
  | .dictSetLimit _ => true
  | .dictPutLiteral _ => true
  | .dictCopyMatch distance _ => decide (distance ≠ 0)
  | .dictByteAt distance => decide (distance ≠ 0)
  | .dictIsComplete => true
  | .rcInit c => decide (1 ≤ c.toNat ∧ c.toNat ≤ Config.csizeMax)
  | .rcNormalize => true
  | .rcDecodeBit _ => true
  | .rcDecodeDirect _ => true
  | .rcDecodeTree t n => decide (2 ^ n ≤ t.size)
  | .rcDecodeReverseTree t n => decide (2 ^ n ≤ t.size)
  | .rcDecodeMatchedLiteral _ _ => true
  | .rcIsComplete => true
  | .lzDecode => true
  | .lzDecodeLength _ _ => true
  | .lzDecodeDistance len => decide (Config.lenMin ≤ len ∧ len ≤ Config.lenMax)
  | .lzResetState => true

/-- A packet the code of R102 can spell: its length lies in 2..273 (R99). Every stored distance has a code
(R205), the rejected `0xFFFFFFFF` too. -/
def Packet.wellFormed : Packet → Bool
  | .lit _ => true
  | .matchNew len _ => decide (Config.lenMin ≤ len ∧ len ≤ Config.lenMax)
  | .shortRep => true
  | .longRep0 len => decide (Config.lenMin ≤ len ∧ len ≤ Config.lenMax)
  | .longRep1 len => decide (Config.lenMin ≤ len ∧ len ≤ Config.lenMax)
  | .longRep2 len => decide (Config.lenMin ≤ len ∧ len ≤ Config.lenMax)
  | .longRep3 len => decide (Config.lenMin ≤ len ∧ len ≤ Config.lenMax)

end Sys2Proof
end

