-- ==== Sys2Proof/Decode.lean ====
section
/-! DEFINITION. Decoding and encoding (spec/30_encoding.md): level 1, the bytes of a chunk header; level 3, the
decision codes of packets, lengths and distances, written ONCE as trees of decisions (`Dec`) that both a written
string of decisions (`Dec.bits`, here) and the range coder (`Dec.run`, Machine/Operands.lean) can answer. Level 2,
the payload header, is read by `rc.init` (R95, R160). -/

namespace Sys2Proof

/-! ## Level 1: chunk headers -/

/-- Why bytes hold no chunk header: the input ends where a byte of it is due (R240, R244). Every control byte
value has a row (R92), so nothing else is rejected. -/
inductive DecodeReject where
  | noControlByte
  | noInfoByte
  | noPropertyByte
  deriving DecidableEq, Repr

/-- `uncompressedSize - 1` from `control[4:0]`, `info[0]`, `info[1]` (R91, R93). -/
def sizeField (control i0 i1 : Byte) : BitVec 21 :=
  control.extractLsb' 0 5 ++ i0 ++ i1

/-- `uncompressedSize` of a chunk (R93): 1..2^21. -/
def uncompressedSize (u : BitVec 21) : Nat := u.toNat + 1

/-- `compressedSize` of a chunk (R93): 1..2^16. -/
def compressedSize (c : BitVec 16) : Nat := c.toNat + 1

/-- An LZMA chunk header after its control byte (R91, R105): four info bytes, and a property byte when
`reset = 3`. -/
def decodeLzmaHeader (control : Byte) : List Byte → Except DecodeReject (Instr × List Byte)
  | i0 :: i1 :: i2 :: i3 :: rest =>
    if control &&& 0xE0 = 0x80 then .ok (.chunkLzmaNone (sizeField control i0 i1) (i2 ++ i3), rest)
    else if control &&& 0xE0 = 0xA0 then .ok (.chunkLzmaState (sizeField control i0 i1) (i2 ++ i3), rest)
    else if control &&& 0xE0 = 0xC0 then .ok (.chunkLzmaProps (sizeField control i0 i1) (i2 ++ i3), rest)
    else
      match rest with
      | [] => .error .noPropertyByte
      | p :: rest' => .ok (.chunkLzmaFull (sizeField control i0 i1) (i2 ++ i3) p, rest')
  | _ => .error .noInfoByte

/-- The control byte's row (R92, R108), match and mask as the opcode table gives them, then the rest of the
header. Total on any bytes: the instruction and the bytes after it, or why there is none. -/
def decodeBytes : List Byte → Except DecodeReject (Instr × List Byte)
  | [] => .error .noControlByte
  | control :: rest =>
    if control &&& 0xFF = 0x00 then .ok (.chunkEnd, rest)
    else if control &&& 0xFF = 0x01 then .ok (.chunkRawReset, rest)
    else if control &&& 0xFF = 0x02 then .ok (.chunkRaw, rest)
    else if control &&& 0xFF = 0x03 then .ok (.chunkReserved03, rest)
    else if control &&& 0xFC = 0x04 then .ok (.chunkReserved04 (control.extractLsb' 0 2), rest)
    else if control &&& 0xF8 = 0x08 then .ok (.chunkReserved08 (control.extractLsb' 0 3), rest)
    else if control &&& 0xF0 = 0x10 then .ok (.chunkReserved10 (control.extractLsb' 0 4), rest)
    else if control &&& 0xE0 = 0x20 then .ok (.chunkReserved20 (control.extractLsb' 0 5), rest)
    else if control &&& 0xC0 = 0x40 then .ok (.chunkReserved40 (control.extractLsb' 0 6), rest)
    else decodeLzmaHeader control rest

/-- The longest chunk header (R91). -/
def maxHeader : Nat := 6

/-- The bytes of a word numbered as the opcode table numbers it (bit 0 is the least significant bit of the first
byte), every bit from `nbits` up taken as 0, out to the longest header. -/
def tableBytes (nbits w : Nat) : List Byte :=
  (List.range (max maxHeader (nbits / 8))).map fun i => BitVec.ofNat 8 ((w % 2 ^ nbits) / 2 ^ (8 * i))

/-- The instruction the decoder reads from a word of the opcode table. -/
def decodeTableWord (nbits w : Nat) : Option Instr :=
  match decodeBytes (tableBytes nbits w) with
  | .ok (i, _) => some i
  | .error _ => none

/-! ## Level 3: trees of decisions -/

/-- A decoder of decisions: `ret a` is done with result `a`; `decide c k` takes one decision coded with cell `c`
(R163); `direct k` takes one equal-probability bit (R167). The branch taken is `k` of the decision. -/
inductive Dec (α : Type) where
  | ret (a : α)
  | decide (c : Cell) (k : Bool → Dec α)
  | direct (k : Bool → Dec α)

/-- First `d`, then `f` of its result. -/
def Dec.bind {α β : Type} (d : Dec α) (f : α → Dec β) : Dec β :=
  match d with
  | .ret a => f a
  | .decide c k => .decide c fun b => (k b).bind f
  | .direct k => .direct fun b => (k b).bind f

/-- `d` with `f` applied to its result. -/
def Dec.map {α β : Type} (f : α → β) (d : Dec α) : Dec β := d.bind fun a => .ret (f a)

/-- Answer a decoder from a written string of decisions (R90): the result and the decisions left over, or none
if the string ends too early. -/
def Dec.bits {α : Type} : Dec α → List Bool → Option (α × List Bool)
  | .ret a, ds => some (a, ds)
  | .decide _ _, [] => none
  | .decide _ k, b :: ds => (k b).bits ds
  | .direct _, [] => none
  | .direct k, b :: ds => (k b).bits ds

/-- The cells a decoder asks when it is answered by a written string of decisions, in order. -/
def Dec.cells {α : Type} : Dec α → List Bool → List Cell
  | .ret _, _ => []
  | .decide c _, [] => [c]
  | .decide c k, b :: ds => c :: (k b).cells ds
  | .direct _, [] => []
  | .direct k, b :: ds => (k b).cells ds

/-- Where slot `k + 4`'s tree starts among the 114 cells of `distSpecial` (R34: 688, 689, 690, 693, 696, 703,
710, 725, 740, 771). -/
def distSpecialStart (k : Fin 10) : Nat :=
  match k.val with
  | 0 => 0
  | 1 => 1
  | 2 => 2
  | 3 => 5
  | 4 => 8
  | 5 => 15
  | 6 => 22
  | 7 => 37
  | 8 => 52
  | _ => 83

/-- Cell `i` of a table that has one (R28 to R33). Cell `i` of a `distSpecial` tree stands at its start `+ i - 1`
(R34). -/
def Probs.cellIn (t : Probs) (i : Nat) : Cell :=
  match t with
  | .isMatch s => .isMatch s (Fin.ofNat 16 i)
  | .isRep => .isRep (Fin.ofNat 12 i)
  | .isRepG0 => .isRepG0 (Fin.ofNat 12 i)
  | .isRepG1 => .isRepG1 (Fin.ofNat 12 i)
  | .isRepG2 => .isRepG2 (Fin.ofNat 12 i)
  | .isRep0Long s => .isRep0Long s (Fin.ofNat 16 i)
  | .lenChoice l => .lenChoice l
  | .lenChoice2 l => .lenChoice2 l
  | .literal c => .literal c (Fin.ofNat 768 i)
  | .lenLow l ps => .lenLow l ps (Fin.ofNat 8 i)
  | .lenMid l ps => .lenMid l ps (Fin.ofNat 8 i)
  | .lenHigh l => .lenHigh l (Fin.ofNat 256 i)
  | .posSlot ls => .posSlot ls (Fin.ofNat 64 i)
  | .distSpecial k => .distSpecial (Fin.ofNat 114 (distSpecialStart k + i - 1))
  | .posAlign => .posAlign (Fin.ofNat 16 i)

/-- `probs[i]`. No tree of at most `Probs.size` leaves asks for an index outside its table; the cell a deeper one asks
for is a free value (log entry 27). -/
def Probs.cell (t : Probs) (i : Nat) : Cell := if i < t.size then t.cellIn i else Config.freeTableCell t i

/-- A column of a table keyed by `posState` (R29, R30): only 0..3 of the 16 columns are reached. -/
def posColumn (ps : BitVec 2) : Fin 16 := Fin.ofNat 16 ps.toNat

/-- `rc.decode_tree`'s walk from index `m`, `n` decisions to go (R170). -/
def Dec.walk (t : Probs) : Nat → Nat → Dec Nat
  | 0, m => .ret m
  | n + 1, m => .decide (t.cell m) fun b => Dec.walk t n (2 * m + b.toNat)

/-- `rc.decode_tree(probs, n)` (R170): the index starts at 1 and the result is the final index without its
leading 1, the first decision most significant. -/
def Dec.tree (t : Probs) (n : Nat) : Dec Nat := (Dec.walk t n 1).map fun m => m - 2 ^ n

/-- `rc.decode_reverse_tree`'s walk from index `m` with `i` decisions made and value `v` (R171). Bit `i` of `v` is
still 0, so R171's `v | (b << i)` is the sum written here. -/
def Dec.reverseWalk (t : Probs) : Nat → Nat → Nat → Nat → Dec Nat
  | 0, _, _, v => .ret v
  | n + 1, i, m, v =>
    .decide (t.cell m) fun b => Dec.reverseWalk t n (i + 1) (2 * m + b.toNat) (v + b.toNat * 2 ^ i)

/-- `rc.decode_reverse_tree(probs, n)` (R171): the same walk, decision `i` is bit `i` of the result. -/
def Dec.reverseTree (t : Probs) (n : Nat) : Dec Nat := Dec.reverseWalk t n 0 1 0

/-- `rc.decode_direct`'s loop, `n` bits to go, `v` read so far (R167). -/
def Dec.directWalk : Nat → Nat → Dec Nat
  | 0, v => .ret v
  | n + 1, v => .direct fun b => Dec.directWalk n (2 * v + b.toNat)

/-- `rc.decode_direct(n)` (R167): the first bit is the most significant. -/
def Dec.directBits (n : Nat) : Dec Nat := Dec.directWalk n 0

/-- `rc.decode_matched_literal`'s loop (R172), `n` decisions to go. -/
def Dec.matchedWalk (c : Fin 8) : Nat → BitVec 16 → BitVec 16 → BitVec 16 → Dec Byte
  | 0, symbol, _, _ => .ret (symbol.setWidth 8)
  | n + 1, symbol, offset, mb =>
    let mb' := mb <<< 1
    let matchBit := mb' &&& offset
    .decide ((Probs.literal c).cell (offset + matchBit + symbol).toNat) fun b =>
      Dec.matchedWalk c n ((symbol <<< 1) ||| (if b then 1 else 0))
        (if b then offset &&& matchBit else offset &&& ~~~matchBit) mb'

/-- `rc.decode_matched_literal(probs, matchByte)` over literal subtable `c` (R172). -/
def Dec.matchedLiteral (c : Fin 8) (matchByte : Byte) : Dec Byte :=
  Dec.matchedWalk c 8 1 0x100 (matchByte.setWidth 16)

/-! ## Lengths and distances -/

/-- The selector of a length code (R99, R204). -/
def lenClassTree (l : LenCoder) : Dec LenClass :=
  .decide (.lenChoice l) fun b =>
    if b then .decide (.lenChoice2 l) fun b' => .ret (if b' then .high else .mid)
    else .ret .low

/-- The rest of a LEN.LOW code (R204): `2 + v`. -/
def lenLowTree (l : LenCoder) (ps : BitVec 2) : Dec Nat :=
  (Dec.tree (.lenLow l (posColumn ps)) 3).map fun v => 2 + v

/-- The rest of a LEN.MID code (R204): `10 + v`. -/
def lenMidTree (l : LenCoder) (ps : BitVec 2) : Dec Nat :=
  (Dec.tree (.lenMid l (posColumn ps)) 3).map fun v => 10 + v

/-- The rest of a LEN.HIGH code (R204): `18 + v`. -/
def lenHighTree (l : LenCoder) : Dec Nat := (Dec.tree (.lenHigh l) 8).map fun v => 18 + v

/-- What follows the selector of a length code (R204). -/
def lenBodyTree (l : LenCoder) (ps : BitVec 2) : LenClass → Dec Nat
  | .low => lenLowTree l ps
  | .mid => lenMidTree l ps
  | .high => lenHighTree l

/-- `lz.decode_length(L, ps)` (R204). -/
def lengthTree (l : LenCoder) (ps : BitVec 2) : Dec Nat := (lenClassTree l).bind (lenBodyTree l ps)

/-- `lenSlot = min(len - 2, 3)` (R205); for a length below 2 a free value (log entry 26). -/
def lenSlot (len : Nat) : Fin 4 :=
  if Config.lenMin ≤ len then Fin.ofNat 4 (min (len - 2) 3) else Config.freeLenSlot len

/-- The slot of a distance code: 6 decisions over `posSlot[lenSlot]` (R100, R205). -/
def slotTree (len : Nat) : Dec (BitVec 6) := (Dec.tree (.posSlot (lenSlot len)) 6).map (BitVec.ofNat 6)

/-- The slot `k + 4` of a DIST.SLOT4_13 row (R100). -/
def midSlot (k : Fin 10) : BitVec 6 := BitVec.ofNat 6 (k.val + 4)

/-- The slot `k + 14` of a DIST.SLOT14_63 row (R100). -/
def highSlot (k : Fin 50) : BitVec 6 := BitVec.ofNat 6 (k.val + 14)

/-- `m = (slot >> 1) - 1`, the number of bits below the two high ones (R101). -/
def midBits (slot : BitVec 6) : Nat := slot.toNat / 2 - 1

/-- `hi2 = 2 | (slot & 1)` (R101). -/
def highBits (slot : BitVec 6) : Word := 2 ||| ((slot &&& 1).setWidth 32)

/-- Slots 0..3 (R101): the stored distance is the slot. -/
def distLowTree (slot : BitVec 6) : Dec Word := .ret (slot.setWidth 32)

/-- Slots 4..13 (R101): `(hi2 << m) + r`, `r` from the slot's own reverse tree. -/
def distMidTree (slot : BitVec 6) : Dec Word :=
  (Dec.reverseTree (.distSpecial (Fin.ofNat 10 (slot.toNat - 4))) (midBits slot)).map fun r =>
    (highBits slot <<< midBits slot) + BitVec.ofNat 32 r

/-- Slots 14..63 (R101): `(hi2 << m) + (d << 4) + a`, `d` the `m - 4` direct bits, `a` from `posAlign`. -/
def distHighTree (slot : BitVec 6) : Dec Word :=
  (Dec.directBits (midBits slot - 4)).bind fun d =>
    (Dec.reverseTree .posAlign 4).map fun a =>
      (highBits slot <<< midBits slot) + (BitVec.ofNat 32 d <<< 4) + BitVec.ofNat 32 a

/-- What follows the slot of a distance code (R205). -/
def distBodyTree (slot : BitVec 6) : Dec Word :=
  if slot.toNat < Config.distModelStart then distLowTree slot
  else if slot.toNat < Config.distModelEnd then distMidTree slot
  else distHighTree slot

/-- `lz.decode_distance(len)` (R205): the stored distance. -/
def distanceTree (len : Nat) : Dec Word := (slotTree len).bind distBodyTree

/-! ## Packets -/

/-- The type code of a packet, with the cell of each decision (R97, R190). -/
def typeTree (s : Fin 12) (ps : BitVec 2) : Dec PacketKind :=
  .decide (.isMatch s (posColumn ps)) fun b0 =>
    if b0 then
      .decide (.isRep s) fun b1 =>
        if b1 then
          .decide (.isRepG0 s) fun b2 =>
            if b2 then
              .decide (.isRepG1 s) fun b3 =>
                if b3 then .decide (.isRepG2 s) fun b4 => .ret (if b4 then .longRep3 else .longRep2)
                else .ret .longRep1
            else .decide (.isRep0Long s (posColumn ps)) fun b3 => .ret (if b3 then .longRep0 else .shortRep)
        else .ret .matchNew
    else .ret .lit

/-- The literal byte of a LIT packet (R98, R194): plain tree when `s < 7`, matched literal otherwise, over
subtable `prev_byte >> 5`. -/
def litTree (x : PacketCtx) : Dec Byte :=
  let c : Fin 8 := Fin.ofNat 8 (x.prev >>> 5).toNat
  if x.state.val < 7 then (Dec.tree (.literal c) 8).map (BitVec.ofNat 8)
  else Dec.matchedLiteral c x.matchByte

/-- The operands that follow a type code (R97, R194 to R202). -/
def operandTree (x : PacketCtx) : PacketKind → Dec Packet
  | .lit => (litTree x).map .lit
  | .matchNew => (lengthTree .matchLen x.posState).bind fun len => (distanceTree len).map (.matchNew len)
  | .shortRep => .ret .shortRep
  | .longRep0 => (lengthTree .repLen x.posState).map .longRep0
  | .longRep1 => (lengthTree .repLen x.posState).map .longRep1
  | .longRep2 => (lengthTree .repLen x.posState).map .longRep2
  | .longRep3 => (lengthTree .repLen x.posState).map .longRep3

/-- A whole packet (R102). -/
def packetTree (x : PacketCtx) : Dec Packet := (typeTree x.state x.posState).bind (operandTree x)

/-! ## Opcodes made of decisions -/

/-- The instruction of a packet type. -/
def PacketKind.instr : PacketKind → Instr
  | .lit => .packetLit
  | .matchNew => .packetMatch
  | .shortRep => .packetShortRep
  | .longRep0 => .packetLongRep0
  | .longRep1 => .packetLongRep1
  | .longRep2 => .packetLongRep2
  | .longRep3 => .packetLongRep3

/-- The instruction of a length class. -/
def LenClass.instr (l : LenCoder) (ps : BitVec 2) : LenClass → Instr
  | .low => .lenLow l ps
  | .mid => .lenMid l ps
  | .high => .lenHigh l

/-- The instruction of a slot (R100, R108). -/
def slotInstr (slot : BitVec 6) : Instr :=
  if slot.toNat < Config.distModelStart then .distSlot0To3 (slot.setWidth 2)
  else if slot.toNat < Config.distModelEnd then .distSlot4To13 (Fin.ofNat 10 (slot.toNat - 4))
  else .distSlot14To63 (Fin.ofNat 50 (slot.toNat - 14))

/-- The packet instruction a string of decisions begins with (R97). The cells play no part, so those of state 0
and `posState` 0 stand in. -/
def decodePacketOpcode (ds : List Bool) : Option (Instr × List Bool) :=
  ((typeTree 0 0).map PacketKind.instr).bits ds

/-- The length class a string of decisions begins with (R99). -/
def decodeLenOpcode (l : LenCoder) (ps : BitVec 2) (ds : List Bool) : Option (Instr × List Bool) :=
  ((lenClassTree l).map (LenClass.instr l ps)).bits ds

/-- The distance class a string of decisions begins with (R100). -/
def decodeDistOpcode (ds : List Bool) : Option (Instr × List Bool) := ((slotTree 2).map slotInstr).bits ds

/-! ## Encoding -/

/-- The encoding of an instruction (R90, R108): bytes of a chunk header, decisions of an opcode, or none, for an
operation that is invoked and not decoded from bits. -/
inductive Code where
  | bytes (bs : List Byte)
  | decisions (ds : List Bool)
  | invoked
  deriving DecidableEq, Repr

/-- `n` bits of `v`, most significant first. -/
def msbBits : Nat → Nat → List Bool
  | 0, _ => []
  | n + 1, v => v.testBit n :: msbBits n v

/-- `n` bits of `v`, least significant first. -/
def lsbBits : Nat → Nat → List Bool
  | 0, _ => []
  | n + 1, v => v.testBit 0 :: lsbBits n (v / 2)

/-- The five bytes of an LZMA chunk header with reset field `r` (R91). -/
def lzmaHeader (r : BitVec 2) (u : BitVec 21) (c : BitVec 16) : List Byte :=
  [(1 : BitVec 1) ++ r ++ u.extractLsb' 16 5, u.extractLsb' 8 8, u.extractLsb' 0 8, c.extractLsb' 8 8,
    c.extractLsb' 0 8]

/-- The words of an instruction: header bytes in address order (R91, R92), opcode decisions in decoding order
(R97, R99, R100). -/
def encode : Instr → Code
  | .chunkEnd => .bytes [0x00]
  | .chunkRawReset => .bytes [0x01]
  | .chunkRaw => .bytes [0x02]
  | .chunkReserved03 => .bytes [0x03]
  | .chunkReserved04 x => .bytes [(1 : BitVec 6) ++ x]
  | .chunkReserved08 x => .bytes [(1 : BitVec 5) ++ x]
  | .chunkReserved10 x => .bytes [(1 : BitVec 4) ++ x]
  | .chunkReserved20 x => .bytes [(1 : BitVec 3) ++ x]
  | .chunkReserved40 x => .bytes [(1 : BitVec 2) ++ x]
  | .chunkLzmaNone u c => .bytes (lzmaHeader 0 u c)
  | .chunkLzmaState u c => .bytes (lzmaHeader 1 u c)
  | .chunkLzmaProps u c => .bytes (lzmaHeader 2 u c)
  | .chunkLzmaFull u c props => .bytes (lzmaHeader 3 u c ++ [props])
  | .packetLit => .decisions [false]
  | .packetMatch => .decisions [true, false]
  | .packetShortRep => .decisions [true, true, false, false]
  | .packetLongRep0 => .decisions [true, true, false, true]
  | .packetLongRep1 => .decisions [true, true, true, false]
  | .packetLongRep2 => .decisions [true, true, true, true, false]
  | .packetLongRep3 => .decisions [true, true, true, true, true]
  | .lenLow _ _ => .decisions [false]
  | .lenMid _ _ => .decisions [true, false]
  | .lenHigh _ => .decisions [true, true]
  | .distSlot0To3 slot => .decisions (msbBits 6 slot.toNat)
  | .distSlot4To13 k => .decisions (msbBits 6 (midSlot k).toNat)
  | .distSlot14To63 k => .decisions (msbBits 6 (highSlot k).toNat)
  | .construct _ _ => .invoked
  | .inReadByte => .invoked
  | .inReserve _ => .invoked
  | .inAlign4 => .invoked
  | .dictInit _ => .invoked
  | .dictSetLimit _ => .invoked
  | .dictPutLiteral _ => .invoked
  | .dictCopyMatch _ _ => .invoked
  | .dictByteAt _ => .invoked
  | .dictIsComplete => .invoked
  | .rcInit _ => .invoked
  | .rcNormalize => .invoked
  | .rcDecodeBit _ => .invoked
  | .rcDecodeDirect _ => .invoked
  | .rcDecodeTree _ _ => .invoked
  | .rcDecodeReverseTree _ _ => .invoked
  | .rcDecodeMatchedLiteral _ _ => .invoked
  | .rcIsComplete => .invoked
  | .lzDecode => .invoked
  | .lzDecodeLength _ _ => .invoked
  | .lzDecodeDistance _ => .invoked
  | .lzResetState => .invoked

/-- The length code of R99. -/
def lenDecisions (len : Nat) : List Bool :=
  if len < 10 then false :: msbBits 3 (len - 2)
  else if len < 18 then true :: false :: msbBits 3 (len - 10)
  else true :: true :: msbBits 8 (len - 18)

/-- The slot whose range holds a stored distance (R100): from 4 up, the place of the top bit and the bit below
it. -/
def slotOf (dist : Nat) : Nat :=
  if dist < 4 then dist else 2 * dist.log2 + dist / 2 ^ (dist.log2 - 1) % 2

/-- The distance code of R100, R101: six slot decisions, then the low `m` bits: for slots 4..13 least significant
first; for slots 14..63 the upper `m - 4` of them most significant first, then the low four least significant
first. -/
def distDecisions (dist : Nat) : List Bool :=
  let slot := slotOf dist
  let m := slot / 2 - 1
  msbBits 6 slot ++
    (if slot < Config.distModelStart then []
     else if slot < Config.distModelEnd then lsbBits m dist
     else msbBits (m - 4) (dist / 16) ++ lsbBits 4 dist)

/-- A whole packet's decisions (R102). -/
def Packet.decisions : Packet → List Bool
  | .lit b => false :: msbBits 8 b.toNat
  | .matchNew len dist => true :: false :: (lenDecisions len ++ distDecisions dist.toNat)
  | .shortRep => [true, true, false, false]
  | .longRep0 len => true :: true :: false :: true :: lenDecisions len
  | .longRep1 len => true :: true :: true :: false :: lenDecisions len
  | .longRep2 len => true :: true :: true :: true :: false :: lenDecisions len
  | .longRep3 len => true :: true :: true :: true :: true :: lenDecisions len

/-! ## The CHUNK rows of the opcode table -/

/-- One CHUNK row of the opcode table: its mnemonic and, over the control byte, its match and mask (R108). -/
structure ChunkRow where
  mnemonic : String
  pattern : Byte
  mask : Byte
  deriving DecidableEq, Repr

/-- The thirteen CHUNK rows in the table's order (R92, R108). -/
def chunkRows : List ChunkRow :=
  [⟨"CHUNK.END", 0x00, 0xFF⟩, ⟨"CHUNK.RAW.RESET", 0x01, 0xFF⟩, ⟨"CHUNK.RAW", 0x02, 0xFF⟩,
    ⟨"CHUNK.RESERVED", 0x03, 0xFF⟩, ⟨"CHUNK.RESERVED", 0x04, 0xFC⟩, ⟨"CHUNK.RESERVED", 0x08, 0xF8⟩,
    ⟨"CHUNK.RESERVED", 0x10, 0xF0⟩, ⟨"CHUNK.RESERVED", 0x20, 0xE0⟩, ⟨"CHUNK.RESERVED", 0x40, 0xC0⟩,
    ⟨"CHUNK.LZMA.NONE", 0x80, 0xE0⟩, ⟨"CHUNK.LZMA.STATE", 0xA0, 0xE0⟩, ⟨"CHUNK.LZMA.PROPS", 0xC0, 0xE0⟩,
    ⟨"CHUNK.LZMA.FULL", 0xE0, 0xE0⟩]

/-- A control byte is in a row. -/
def ChunkRow.admits (r : ChunkRow) (control : Byte) : Bool := control &&& r.mask == r.pattern

/-- The number in `chunkRows` of an instruction's row, for a chunk command. -/
def chunkRowOf : Instr → Option Nat
  | .chunkEnd => some 0
  | .chunkRawReset => some 1
  | .chunkRaw => some 2
  | .chunkReserved03 => some 3
  | .chunkReserved04 _ => some 4
  | .chunkReserved08 _ => some 5
  | .chunkReserved10 _ => some 6
  | .chunkReserved20 _ => some 7
  | .chunkReserved40 _ => some 8
  | .chunkLzmaNone _ _ => some 9
  | .chunkLzmaState _ _ => some 10
  | .chunkLzmaProps _ _ => some 11
  | .chunkLzmaFull _ _ _ => some 12
  | .packetLit | .packetMatch | .packetShortRep | .packetLongRep0 | .packetLongRep1 | .packetLongRep2
  | .packetLongRep3 | .lenLow _ _ | .lenMid _ _ | .lenHigh _ | .distSlot0To3 _ | .distSlot4To13 _
  | .distSlot14To63 _ | .construct _ _ | .inReadByte | .inReserve _ | .inAlign4 | .dictInit _ | .dictSetLimit _
  | .dictPutLiteral _ | .dictCopyMatch _ _ | .dictByteAt _ | .dictIsComplete | .rcInit _ | .rcNormalize
  | .rcDecodeBit _ | .rcDecodeDirect _ | .rcDecodeTree _ _ | .rcDecodeReverseTree _ _
  | .rcDecodeMatchedLiteral _ _ | .rcIsComplete | .lzDecode | .lzDecodeLength _ _ | .lzDecodeDistance _
  | .lzResetState => none

end Sys2Proof
end

