-- ==== Sys2Proof/Machine/State.lean ====
section
/-! DEFINITION. The state of the machine as plain data: the tuple of spec/10_state.md rule R20, and the model's own
fields that carry the host protocol of spec/44_lzma2_chunk_commands.md and spec/70_reset_and_hazards.md. -/

namespace Sys2Proof.Machine

/-- A byte memory: (address, byte) pairs. Canonical form: addresses strictly rising. An unlisted address holds NO
VALUE (R38: `OUT[a]` above the written bytes "holds no value"), so a write never removes an entry. -/
abbrev Mem := List Host.Cell

/-- The canonical form of a byte memory. -/
abbrev Mem.wf (m : Mem) : Prop := m.Pairwise fun x y => x.1 < y.1

/-- The probability table `P` as (cell number, value) pairs, numbered by the layout of R34. Canonical form: numbers
strictly rising and below 7990, no entry equal to `0x400`. An unlisted cell reads as `0x400` (R27, R46). -/
abbrev ProbTable := List (Nat × Prob)

/-- The canonical form of the probability table. -/
abbrev ProbTable.wf (p : ProbTable) : Prop :=
  (p.Pairwise fun x y => x.1 < y.1) ∧ ∀ e ∈ p, e.1 < Config.nProbs ∧ e.2 ≠ Config.probInit

/-- The faults of the CORE, each with the value R291 records as `info`. Taking one is a NEXT state whose `fault`
register holds it (R40, R304): see `State.takeFault`. -/
inductive CoreFault where
  | endOfInput (offset : Nat)
  | corruptPadding (address : Nat)
  | outputOverflow (position chunkSize : Nat)
  | full (position : Nat)
  | invalidDistance (distance position : Nat)
  | nonZeroHeader (b : Byte)
  | budgetExhausted (info : Nat)
  | endMarker (offset : Nat)
  | chunkCompressedMismatch (consumed : Nat) (code : Word)
  | chunkUncompressedMismatch (written : Nat)
  | unsupportedChunk (control : Byte)
  | unsupportedReset (control : Byte)
  | badProperties (b : Byte)
  deriving DecidableEq, Repr

/-- Why the model stops: an access to an address that does not exist or holds no value. From a state that meets
`State.Inv` (Safety.lean) none is ever raised; they are there because State is plain data. -/
inductive Fault where
  /-- Raised by a read of an address of `OUT` that holds no value (R38, R45). Safe: the model stops. -/
  | outNoValue
  /-- Raised by an access of `OUT` at or above `dict.bufferSize` (R61: no such address). Safe: the model stops. -/
  | outNoAddress
  /-- Raised by a fetch from an address of `IN` below `in.size` that holds no byte (R60). Safe: the model stops. -/
  | inNoValue
  deriving DecidableEq, Repr

/-- Why an operation has no meaning in a state (R333: "Operations out of order are refused"), or no operation is
there to execute. -/
inductive Refusal where
  /-- No meaning written yet; raised by no arm of `exec`. Safe. -/
  | notModelled (mnemonic : String)
  /-- Raised by every instruction but `construct` once `fault` is set (R304, R333). Safe: the spec refuses it. -/
  | afterFault
  /-- Raised by `lz.decode`, `rc.normalize`, `rc.decode_*` and `rc.is_complete` before the first `rc.init`, and by the
  packets, codes and decoders that call `rc.decode_*` (R333, R46, U5 of spec/93_implementation_defined.md). Safe: the
  spec refuses it. -/
  | rcNotInitialised
  /-- Raised by `lz.decode` issued twice without an `rc.init` between (R333). Safe: the spec refuses it. -/
  | decodeRepeated
  /-- Raised by `rc.init` and `lz.decode` with no `dict.set_limit` issued for their chunk (R252, R332, U15). Safe: the
  spec refuses it. -/
  | limitNotSet
  /-- Raised by `dict.set_limit` issued between `rc.init` and `lz.decode`, by `lz.reset_state` issued between
  `dict.set_limit` or `rc.init` and `lz.decode`, and by a chunk command that issues either there (R332, R252, U15).
  Safe: the spec refuses it. -/
  | outOfOrder
  /-- Raised by `dict.copy_match` and `dict.byte_at` with distance 0 (R146 (c), R148, R333). Safe: the spec refuses
  it. -/
  | distanceZero
  /-- Raised by `construct` and `dict.init` with a size of `2^W_POS` bytes or more, which the registers cannot hold
  (R9; spec/92_eei_decisions.md section 1: "Any natural number below `2^W_POS`"). Safe: the spec gives it no
  meaning. -/
  | sizeTooLarge
  /-- Raised by `step` when the chunk loop has returned and the host has issued nothing (R241, R334): there is no
  instruction to run. Safe. -/
  | runEnded
  deriving DecidableEq, Repr

/-- What the last operation gave back to the host (decision D1: named operations with arguments and results). -/
inductive Result where
  /-- Nothing yet. -/
  | idle
  /-- An operation without a value returned ok. -/
  | ok
  /-- A byte (R130, R148, R172). -/
  | byte (b : Byte)
  /-- A view of `IN` (R131). -/
  | view (bs : List Byte)
  /-- One decision (R163). -/
  | decision (b : Bool)
  /-- A number (R167, R170, R171, R204, R205). -/
  | value (n : Nat)
  /-- A completion query's pair (R150, R175). -/
  | query (yes : Bool) (n : Nat)
  /-- The chunk loop returned success with this output length (R241, R77), or this tally in size-query mode
  (R250). -/
  | finished (length : Nat)
  /-- The operation failed: `fault` says how (R304). -/
  | failed
  deriving DecidableEq, Repr

/-- Where the `rc` registers stand in the order of R332, R333. -/
inductive RcStage where
  /-- No `rc.init` since construction: the `rc` registers hold no value (R46). -/
  | uninit
  /-- `rc.init` has been issued. -/
  | ready
  /-- `lz.decode` has returned since the last `rc.init`. -/
  | decoded
  deriving DecidableEq, Repr

/-- Which of its two modes the chunk loop runs in (R240, R250). -/
inductive Mode where
  | decode
  | sizeQuery
  deriving DecidableEq, Repr

/-- Whether the chunk loop is running or has returned success at a `0x00` control byte (R240, R241). -/
inductive LoopStatus where
  | running
  | returned
  deriving DecidableEq, Repr

/-- The range coder's registers `rc.*` (R21 to R24). -/
structure RangeCoder where
  range : Word
  code : Word
  remaining : Count
  budget : Count
  deriving DecidableEq, Repr

/-- The engine's registers `lz.*` (R25, R26). -/
structure Engine where
  state : Fin 12
  rep0 : Word
  rep1 : Word
  rep2 : Word
  rep3 : Word
  deriving DecidableEq, Repr

/-- The dictionary: its registers `dict.*`, of `W_POS` bits each, and the output buffer `OUT` (R35 to R38, R61). -/
structure Dictionary where
  position : Nat
  limit : Nat
  historyStart : Nat
  bufferSize : Nat
  out : Mem
  deriving DecidableEq, Repr

/-- The input cursor: `in.offset` and `in.size`, of `W_POS` bits each, and `IN` (R39, R60). -/
structure Cursor where
  offset : Nat
  size : Nat
  bytes : Mem
  deriving DecidableEq, Repr

/-- The state. The first six fields are the tuple of R20, then `W_POS` (R9); the others are the model's own, for the
protocol around the CORE. -/
structure State where
  /-- The range coder (R21 to R24). -/
  rc : RangeCoder
  /-- The engine (R25, R26). -/
  lz : Engine
  /-- The probability table `P` (R27 to R34). -/
  probs : ProbTable
  /-- The dictionary (R35 to R38). -/
  dict : Dictionary
  /-- The input cursor (R39). -/
  inp : Cursor
  /-- The `fault` register: `none`, or the fault that ended the run (R40). -/
  fault : Option CoreFault
  /-- `W_POS`, the bit width of `dict.*` and `in.*` (R9): a parameter, given at construction. `State.Inv` (Safety.lean)
  says that the registers fit it. -/
  wPos : Nat
  /-- Model's own: where the `rc` registers stand in R333's order. -/
  stage : RcStage
  /-- Model's own: whether `dict.set_limit` has been issued for the chunk that the next `lz.decode` decodes (R332). -/
  limitSet : Bool
  /-- Model's own: the chunk loop's mode (R250). -/
  mode : Mode
  /-- Model's own: the chunk loop's tally in size-query mode (R250). -/
  tally : Nat
  /-- Model's own: whether the chunk loop has returned (R241). -/
  loop : LoopStatus
  /-- Model's own: the operations the host has issued and the CORE has not yet run, first one first (R252). -/
  issued : List Instr
  /-- Model's own: what the last operation gave back to the host (decision D1). -/
  result : Result
  /-- Model's own: how many times free values have been drawn (R305). -/
  draws : Nat
  deriving DecidableEq, Repr

/-- The outcome of an instruction or a step. -/
abbrev Outcome := Host.Outcome State Fault Refusal

/-- The engine's registers after construction and after `lz.reset_state` (R46, R215). -/
def Engine.initial : Engine := { state := 0, rep0 := 0, rep1 := 0, rep2 := 0, rep3 := 0 }

/-- The `rc` registers after construction. DESIGN CHOICE (log entry 2): R46 gives them no value and R333 refuses every
operation that would read one; they are zero here. -/
def RangeCoder.initial : RangeCoder := { range := 0, code := 0, remaining := 0, budget := 0 }

/-- The machine right after its only reset, construction (R330, R46), with an empty input view and the output
capacity `Config.resetCapacity` (DESIGN CHOICE, log entry 3: both are arguments of construction), and `W_POS` at its default. -/
def State.reset : State where
  rc := RangeCoder.initial
  lz := Engine.initial
  probs := []
  dict := { position := 0, limit := 0, historyStart := 0, bufferSize := Config.resetCapacity, out := [] }
  inp := { offset := 0, size := 0, bytes := [] }
  fault := none
  wPos := Config.defaultWPos
  stage := .uninit
  limitSet := false
  mode := .decode
  tally := 0
  loop := .running
  issued := []
  result := .idle
  draws := 0

end Sys2Proof.Machine
end

