-- ==== Sys2Proof/Machine/Ops.lean ====
section
/-! DEFINITION. The named operations over memory and registers: sorted tables, `IN`, `OUT` and `P`; the input cursor
(spec/40_input_cursor.md), the dictionary (spec/41_dictionary.md), the range coder's primitives
(spec/42_range_coder.md); taking a fault (spec/60_exceptions.md R304) and construction (spec/70_reset_and_hazards.md
R330). -/

namespace Sys2Proof.Machine

/-! ## Sorted tables -/

/-- The value listed at a key. -/
def Table.find {α : Type} : List (Nat × α) → Nat → Option α
  | [], _ => none
  | (k, v) :: rest, a => if a = k then some v else Table.find rest a

/-- List a value at a key, in place of the one listed there. -/
def Table.insert {α : Type} : List (Nat × α) → Nat → α → List (Nat × α)
  | [], a, v => [(a, v)]
  | (k, w) :: rest, a, v =>
    if a < k then (a, v) :: (k, w) :: rest
    else if a = k then (a, v) :: rest
    else (k, w) :: Table.insert rest a v

/-- List nothing at a key. -/
def Table.erase {α : Type} (l : List (Nat × α)) (a : Nat) : List (Nat × α) := l.filter fun e => e.1 != a

/-- The byte at an address, if it holds one (R38, R60). -/
def Mem.read (m : Mem) (a : Nat) : Option Byte := Table.find m a

/-- Write one byte. -/
def Mem.write (m : Mem) (a : Nat) (b : Byte) : Mem := Table.insert m a b

/-- Bytes placed from address `a` on. -/
def Mem.place (m : Mem) (a : Nat) : List Byte → Mem
  | [] => m
  | b :: bs => Mem.place (m.write a b) (a + 1) bs

/-- Every byte undefined, every address as it was (R77, R305). -/
def Mem.scramble (m : Mem) (draw : Nat) : Mem := m.map fun e => (e.1, Config.freeByte draw e.1)

/-! ## The probability table -/

end Sys2Proof.Machine

namespace Sys2Proof

/-- Where a length decoder starts in the layout of R34. -/
def LenCoder.start : LenCoder → Nat
  | .matchLen => 818
  | .repLen => 1332

/-- The number of a cell in the layout of R34. -/
def Cell.index : Cell → Nat
  | .isMatch s ps => s.val * 16 + ps.val
  | .isRep s => 192 + s.val
  | .isRepG0 s => 204 + s.val
  | .isRepG1 s => 216 + s.val
  | .isRepG2 s => 228 + s.val
  | .isRep0Long s ps => 240 + s.val * 16 + ps.val
  | .posSlot ls i => 432 + ls.val * 64 + i.val
  | .distSpecial k => 688 + k.val
  | .posAlign i => 802 + i.val
  | .lenChoice l => l.start
  | .lenChoice2 l => l.start + 1
  | .lenLow l ps i => l.start + 2 + ps.val * 8 + i.val
  | .lenMid l ps i => l.start + 130 + ps.val * 8 + i.val
  | .lenHigh l i => l.start + 258 + i.val
  | .literal c k => 1846 + c.val * 768 + k.val

end Sys2Proof

namespace Sys2Proof.Machine

/-- The value of cell number `i`. -/
def ProbTable.get (p : ProbTable) (i : Nat) : Prob := (Table.find p i).getD Config.probInit

/-- Write cell number `i`, keeping the canonical form. -/
def ProbTable.set (p : ProbTable) (i : Nat) (v : Prob) : ProbTable :=
  if v = Config.probInit then Table.erase p i else Table.insert p i v

/-- Every cell undefined (R305). -/
@[irreducible] def ProbTable.scrambled (draw : Nat) : ProbTable :=
  (List.range Config.nProbs).filterMap fun i =>
    if Config.freeCell draw i = Config.probInit then none else some (i, Config.freeCell draw i)

/-! ## Named reads and updates of the state -/

/-- A cell of `P` (R15). -/
def State.cell (s : State) (c : Cell) : Prob := s.probs.get c.index

/-- `P[t][i] <- v` (R15). -/
def State.setCell (s : State) (c : Cell) (v : Prob) : State :=
  { s with probs := s.probs.set c.index v }

/-- `in.offset` moves on by `n` (R42). -/
def State.advance (s : State) (n : Nat) : State :=
  { s with inp := { s.inp with offset := s.inp.offset + n } }

/-- A decision's or a direct bit's new `range` and `code` (R163, R167). -/
def State.setCoder (s : State) (range code : Word) : State :=
  { s with rc := { s.rc with range := range, code := code } }

/-- A byte enters `rc.code` (R162): `range` and `code` move up 8 bits, `remaining` falls by one. -/
def State.shiftIn (s : State) (b : Byte) : State :=
  { s with rc := { s.rc with
      range := s.rc.range <<< 8
      code := (s.rc.code <<< 8) ||| b.setWidth 32
      remaining := s.rc.remaining - 1 } }

/-- `rc.init`'s four writes (R160). -/
def State.loadCoder (s : State) (code : Word) (compressedSize : Nat) : State :=
  { s with
    rc := { range := 0xFFFFFFFF, code := code, remaining := BitVec.ofNat 17 (compressedSize - Config.rcInitBytes),
            budget := BitVec.ofNat 17 compressedSize }
    stage := .ready }

/-- `lz.decode` has returned: another needs another `rc.init` (R333) and another `dict.set_limit` (R252, R332). -/
def State.markDecoded (s : State) : State := { s with stage := .decoded, limitSet := false }

/-- One byte appended to `OUT` (R144, R146). -/
def State.append (s : State) (b : Byte) : State :=
  { s with dict := { s.dict with
      position := s.dict.position + 1
      out := s.dict.out.write s.dict.position b } }

/-- `dict.set_limit`'s two writes (R142); the chunk has its limit (R332). -/
def State.setLimit (s : State) (chunkSize : Nat) : State :=
  { s with
    dict := { s.dict with limit := s.dict.position + chunkSize, historyStart := s.dict.position }
    limitSet := true }

/-- `dict.init`'s writes (R140): `OUT` holds no value. -/
def State.initDict (s : State) (size : Nat) : State :=
  { s with dict := { position := 0, limit := 0, historyStart := 0, bufferSize := size, out := [] } }

/-- `lz.state` and the rep registers written by a packet (R194 to R202). -/
def State.setEngine (s : State) (lz : Engine) : State := { s with lz := lz }

/-- `lz.reset_state`'s writes (R215): state 0, reps 0, every cell `0x400`. -/
def State.resetModel (s : State) : State := { s with lz := Engine.initial, probs := [] }

/-- Size-query mode adds a chunk's size (R250). -/
def State.addTally (s : State) (n : Nat) : State := { s with tally := s.tally + n }

/-- The chunk loop returns (R241). -/
def State.endLoop (s : State) : State := { s with loop := .returned }

/-- An operation gives its result back (decision D1). -/
def State.giveBack (s : State) (r : Result) : State := { s with result := r }

/-- Construction of the decode context (R330, R46): every register at its value after construction, `IN` the given
bytes, an empty output view meaning size-query mode (R140, R250; log entry 8), `W_POS` the given width (R9).
The operations the host has issued and the number of draws are not the CORE's and stay (log entry 22). -/
def State.construct (s : State) (wPos : Nat) (input : List Byte) (capacity : Nat) : State where
  rc := RangeCoder.initial
  lz := Engine.initial
  probs := []
  dict := { position := 0, limit := 0, historyStart := 0, bufferSize := capacity, out := [] }
  inp := { offset := 0, size := input.length, bytes := Mem.place [] 0 input }
  fault := none
  wPos := wPos
  stage := .uninit
  limitSet := false
  mode := if capacity = 0 then .sizeQuery else .decode
  tally := 0
  loop := .running
  issued := s.issued
  result := .ok
  draws := s.draws

/-- A free value of a `W_POS`-bit register (R9, R305). -/
def State.freePosition (s : State) (register : Nat) : Nat := Config.freePosition s.draws register % 2 ^ s.wPos

/-- TAKING A FAULT (R304, R305), the one shared operation: `fault` takes the code and its `info` and keeps it; the
operation and the run have failed; no other register, cell or byte of `OUT` may be relied on, so each holds a free
value (log entry 1). `IN` and `in.size` are the caller's and read-only (R39); the host's own fields stay. -/
def State.takeFault (s : State) (f : CoreFault) : State where
  rc := { range := Config.freeWord s.draws 0, code := Config.freeWord s.draws 1,
          remaining := Config.freeCount s.draws 0, budget := Config.freeCount s.draws 1 }
  lz := { state := Config.freeState s.draws, rep0 := Config.freeWord s.draws 2, rep1 := Config.freeWord s.draws 3,
          rep2 := Config.freeWord s.draws 4, rep3 := Config.freeWord s.draws 5 }
  probs := ProbTable.scrambled s.draws
  dict := { position := s.freePosition 0, limit := s.freePosition 1, historyStart := s.freePosition 2,
            bufferSize := s.freePosition 3, out := s.dict.out.scramble s.draws }
  inp := { s.inp with offset := s.freePosition 4 }
  fault := some f
  wPos := s.wPos
  stage := s.stage
  limitSet := s.limitSet
  mode := s.mode
  tally := s.tally
  loop := s.loop
  issued := s.issued
  result := .failed
  draws := s.draws + 1

/-! ## Running an operation -/

/-- How an operation can stop before its end: a fault raised at a state (R15 `raise`), a refusal, or an access the
model stops on. -/
inductive Stop where
  | raised (f : CoreFault) (s : State)
  | refuse (r : Refusal)
  | trap (t : Fault)

/-- An operation of the CORE: from a state, its result and the state after it, or why it stopped. -/
abbrev M (α : Type) := StateT State (Except Stop) α

/-- `raise F(info)` (R15). -/
def raise {α : Type} (f : CoreFault) : M α := fun s => .error (.raised f s)

/-- The spec gives the operation no meaning here (R333). -/
def refuse {α : Type} (r : Refusal) : M α := fun _ => .error (.refuse r)

/-- An access the model stops on. -/
def trap {α : Type} (t : Fault) : M α := fun _ => .error (.trap t)

/-- Update the state. -/
def update (f : State → State) : M Unit := fun s => .ok ((), f s)

/-- Read something of the state. -/
def look {α : Type} (f : State → α) : M α := fun s => .ok (f s, s)

/-- The outcome of an operation issued to the CORE: refused once a fault has been taken (R304, R333); else run to
its end, its result given back; a fault raised inside is taken. -/
def commit {α : Type} (ret : α → Result) (m : M α) (s : State) : Outcome :=
  match s.fault with
  | some _ => .refused .afterFault
  | none =>
    match m s with
    | .ok (a, t) => .next (t.giveBack (ret a))
    | .error (.raised f t) => .next (t.takeFault f)
    | .error (.refuse r) => .refused r
    | .error (.trap t) => .fault t

/-- Refuse unless `ok`. -/
def require (ok : Bool) (r : Refusal) : M Unit := if ok then pure () else refuse r

/-- `lz.decode`, `rc.normalize`, `rc.decode_*` and `rc.is_complete` are refused before the first `rc.init`: the `rc`
registers hold no value (R333, R46, U5). -/
def needRc : M Unit := fun s => if s.stage = .uninit then refuse .rcNotInitialised s else .ok ((), s)

/-- `lz.decode` needs an `rc.init` since the last one (R333) and a `dict.set_limit` for its chunk (R252, R332). -/
def needChunk : M Unit := fun s =>
  match s.stage with
  | .uninit => refuse .rcNotInitialised s
  | .ready => if s.limitSet then .ok ((), s) else refuse .limitNotSet s
  | .decoded => refuse .decodeRepeated s

/-- A chunk's `rc.init` comes after its `dict.set_limit` (R332, R252, U15). -/
def needLimit : M Unit := fun s => if s.limitSet then .ok ((), s) else refuse .limitNotSet s

/-- A chunk's `dict.set_limit` comes before its `rc.init` (R332, R252, U15). -/
def needBeforeInit : M Unit := fun s => if s.stage = .ready then refuse .outOfOrder s else .ok ((), s)

/-- `lz.reset_state` comes between chunks (R215): before the chunk's `dict.set_limit` and its `rc.init` (R332, R252,
U15). -/
def needBetweenChunks : M Unit := fun s =>
  if s.limitSet || s.stage = .ready then refuse .outOfOrder s else .ok ((), s)

/-! ## The input cursor -/

/-- `in.read_byte()` (R130). -/
def readByte : M Byte := fun s =>
  if s.inp.offset < s.inp.size then
    match s.inp.bytes.read s.inp.offset with
    | some b => .ok (b, s.advance 1)
    | none => trap .inNoValue s
  else raise (.endOfInput s.inp.offset) s

/-- The `n` bytes of `IN` from address `a` on, or none if one of them holds no byte. -/
def viewBytes (m : Mem) : Nat → Nat → Option (List Byte)
  | _, 0 => some []
  | a, n + 1 =>
    match m.read a with
    | none => none
    | some b => (viewBytes m (a + 1) n).map (b :: ·)

/-- `in.reserve(n)` (R131), the sum computed without wrap. -/
def reserve (n : Nat) : M (List Byte) := fun s =>
  if s.inp.offset + n > s.inp.size then raise (.endOfInput s.inp.offset) s
  else
    match viewBytes s.inp.bytes s.inp.offset n with
    | some bs => .ok (bs, s.advance n)
    | none => trap .inNoValue s

/-- One pad byte of `in.align4` (R132). -/
def padByte : M Unit := do
  let at_ ← look fun s => s.inp.offset
  let b ← readByte
  if b = 0 then pure () else raise (.corruptPadding at_)

/-- `in.align4()`'s loop (R132), at most `n` pad bytes. -/
def padBytes : Nat → M Unit
  | 0 => pure ()
  | n + 1 => do
    let aligned ← look fun s => s.inp.offset % 4 == 0
    if aligned then pure () else do
      padByte
      padBytes n

/-- `in.align4()` (R132): an offset is never more than three bytes below a multiple of 4. -/
def align4 : M Unit := padBytes 3

/-! ## The dictionary -/

/-- `MemRead(a, 1)` (R15). -/
def readOut (a : Nat) : M Byte := fun s =>
  if a < s.dict.bufferSize then
    match s.dict.out.read a with
    | some b => .ok (b, s)
    | none => trap .outNoValue s
  else trap .outNoAddress s

/-- `MemWrite(dict.position, 1, b)` and the position's increment (R144, R146). -/
def appendByte (b : Byte) : M Unit := fun s =>
  if s.dict.position < s.dict.bufferSize then .ok ((), s.append b) else trap .outNoAddress s

/-- `dict.set_limit(chunkSize)` (R142), the sum computed without wrap. -/
def setLimit (chunkSize : Nat) : M Unit := fun s =>
  if s.dict.position + chunkSize > s.dict.bufferSize then
    raise (.outputOverflow s.dict.position chunkSize) s
  else .ok ((), s.setLimit chunkSize)

/-- A packet that begins at `position = limit` takes `Full`, whatever its type (R190, decision D24). -/
def needRoom : M Unit := fun s =>
  if s.dict.position = s.dict.limit then raise (.full s.dict.position) s else .ok ((), s)

/-- `dict.put_literal(b)` (R144). -/
def putLiteral (b : Byte) : M Unit := fun s =>
  if s.dict.position = s.dict.limit then raise (.full s.dict.position) s else appendByte b s

/-- One iteration of `dict.copy_match`'s loop (R146, R302): the distance test, the limit test, then the byte. -/
def copyByte (distance : Nat) : M Unit := fun s =>
  if distance > s.dict.position then raise (.invalidDistance distance s.dict.position) s
  else if s.dict.position = s.dict.limit then raise (.full s.dict.position) s
  else (readOut (s.dict.position - distance) >>= appendByte) s

/-- `dict.copy_match`'s loop (R146, R68): byte after byte, each read seeing the earlier writes. -/
def copyBytes (distance : Nat) : Nat → M Unit
  | 0 => pure ()
  | n + 1 => do
    copyByte distance
    copyBytes distance n

/-- `dict.copy_match(distance, length)` (R146): distance 0 is refused (corner case (c)). -/
def copyMatch (distance length : Nat) : M Unit :=
  if distance = 0 then refuse .distanceZero else copyBytes distance length

/-- `dict.byte_at(distance)` (R148): distance 0 is refused, an address before the buffer reads as `0x00`. -/
def byteAt (distance : Nat) : M Byte := fun s =>
  if distance = 0 then refuse .distanceZero s
  else if distance > s.dict.position then .ok (0x00, s)
  else readOut (s.dict.position - distance) s

/-! ## The range coder's primitives -/

/-- `rc.init`'s five reads, the test of the first and the load of `code` (R160, R64). -/
def readPayloadHeader : M Word := do
  let b0 ← readByte
  let b1 ← readByte
  let b2 ← readByte
  let b3 ← readByte
  let b4 ← readByte
  if b0 = 0x00 then
    pure ((b1.setWidth 32 <<< 24) ||| (b2.setWidth 32 <<< 16) ||| (b3.setWidth 32 <<< 8) ||| b4.setWidth 32)
  else raise (.nonZeroHeader b0)

/-- `rc.init(compressedSize)` (R160). -/
def rcInit (compressedSize : Nat) : M Unit :=
  if compressedSize < Config.rcInitBytes then raise (.budgetExhausted compressedSize)
  else do
    let code ← readPayloadHeader
    update fun s => s.loadCoder code compressedSize

/-- `rc.normalize()` (R162). -/
def normalize : M Unit := fun s =>
  if s.rc.range < Config.rcTop then
    if s.rc.remaining = 0 then raise (.budgetExhausted s.inp.offset) s
    else (do
      let b ← readByte
      update fun t => t.shiftIn b : M Unit) s
  else .ok ((), s)

/-- `bound = (range >> 11) * p` (R163). -/
def bound (range : Word) (p : Prob) : Word := (range >>> Config.probBits) * p.setWidth 32

/-- A cell after a decision (R163): up toward 2048 by 1/32 on a 0, down toward 0 by 1/32 on a 1. -/
def adapt (p : Prob) (b : Bool) : Prob :=
  if b then p - (p >>> Config.moveBits) else p + ((2048 - p) >>> Config.moveBits)

/-- A decision on a normalised range coder (R163): which it is. -/
def State.decision (s : State) (c : Cell) : Bool := !decide (s.rc.code < bound s.rc.range (s.cell c))

/-- A decision on a normalised range coder (R163): what it writes. -/
def State.decided (s : State) (c : Cell) : State :=
  let b := bound s.rc.range (s.cell c)
  let bit := s.decision c
  (if bit then s.setCoder (s.rc.range - b) (s.rc.code - b) else s.setCoder b s.rc.code).setCell c
    (adapt (s.cell c) bit)

/-- `rc.decode_bit(cell)` (R163). -/
def decodeBit (c : Cell) : M Bool := do
  normalize
  fun s => .ok (s.decision c, s.decided c)

/-- A direct bit on a normalised range coder (R167): which it is. -/
def State.directBit (s : State) : Bool := !decide (s.rc.code < s.rc.range >>> 1)

/-- A direct bit on a normalised range coder (R167): what it writes. -/
def State.directed (s : State) : State :=
  s.setCoder (s.rc.range >>> 1) (if s.directBit then s.rc.code - s.rc.range >>> 1 else s.rc.code)

/-- One bit of `rc.decode_direct` (R167). -/
def decodeDirectBit : M Bool := do
  normalize
  fun s => .ok (s.directBit, s.directed)

end Sys2Proof.Machine

namespace Sys2Proof

/-- Answer a decoder from the range coder (R62: no other operation reads or writes a cell). -/
def Dec.run {α : Type} : Dec α → Machine.M α
  | .ret a => pure a
  | .decide c k => do
    let b ← Machine.decodeBit c
    (k b).run
  | .direct k => do
    let b ← Machine.decodeDirectBit
    (k b).run

end Sys2Proof
end

