-- ==== Sys2Proof/Machine/Flags.lean ====
section
/-! DEFINITION. Status computations: the state transition table of spec/43_lzma_engine.md R210, the completion queries
of R150 and R175 ("combinational functions of the registers, not stored flags", R40), and the code and class of a
fault (spec/60_exceptions.md R291). The CORE has no condition codes (R40). -/

namespace Sys2Proof.Machine

/-- The four inputs of the state machine (R210). -/
inductive Event where
  | lit
  | matchNew
  | longRep
  | shortRep
  deriving DecidableEq, Repr

/-- `next_state(s, event)` (R210), by its closed form. -/
def nextState (s : Fin 12) : Event → Fin 12
  | .lit => if s.val < 4 then 0 else if s.val < 10 then Fin.ofNat 12 (s.val - 3) else Fin.ofNat 12 (s.val - 6)
  | .matchNew => if s.val < 7 then 7 else 10
  | .longRep => if s.val < 7 then 8 else 11
  | .shortRep => if s.val < 7 then 9 else 11

/-- `dict.is_complete()` (R150). -/
def State.dictComplete (s : State) : Bool × Nat :=
  (s.dict.position == s.dict.limit, s.dict.position - s.dict.historyStart)

/-- `rc.is_complete()` (R175). -/
def State.rcComplete (s : State) : Bool × Nat := (s.rc.code == 0, (s.rc.budget - s.rc.remaining).toNat)

/-- The code of a fault (R291). -/
def faultCode : CoreFault → Nat
  | .endOfInput _ => 1
  | .corruptPadding _ => 2
  | .outputOverflow _ _ => 3
  | .full _ => 4
  | .invalidDistance _ _ => 5
  | .nonZeroHeader _ => 6
  | .budgetExhausted _ => 7
  | .endMarker _ => 8
  | .chunkCompressedMismatch _ _ => 9
  | .chunkUncompressedMismatch _ => 10
  | .unsupportedChunk _ => 11
  | .unsupportedReset _ => 12
  | .badProperties _ => 13

/-- D0's classes of failure that the CORE can raise (R291; none is an integrity failure, R279, R316). -/
inductive FaultClass where
  | structural
  | decode
  | buffer
  deriving DecidableEq, Repr

/-- The class of a fault (R291). -/
def faultClass : CoreFault → FaultClass
  | .endOfInput _ => .buffer
  | .corruptPadding _ => .structural
  | .outputOverflow _ _ => .buffer
  | .full _ => .decode
  | .invalidDistance _ _ => .decode
  | .nonZeroHeader _ => .decode
  | .budgetExhausted _ => .decode
  | .endMarker _ => .decode
  | .chunkCompressedMismatch _ _ => .decode
  | .chunkUncompressedMismatch _ => .decode
  | .unsupportedChunk _ => .structural
  | .unsupportedReset _ => .structural
  | .badProperties _ => .structural

/-- The status of the run that `fault` holds: 0 for `None`, else the fault's code (R40, R291). -/
def State.faultStatus (s : State) : Nat :=
  match s.fault with
  | none => 0
  | some f => faultCode f

end Sys2Proof.Machine
end

