-- ==== Sys2Proof/Machine/Operands.lean ====
section
/-! DEFINITION. Operand forms: what a packet samples at its start (spec/43_lzma_engine.md R190, R191, R194) and how its
operands take effect (R194 to R203). -/

namespace Sys2Proof.Machine

/-- `posState = dict.position & 3` (R191). -/
def State.posState (s : State) : BitVec 2 := BitVec.ofNat 2 s.dict.position

/-- What a packet samples of the registers: `lz.state` and `posState` (R190). The two bytes are read by LIT only
(`litContext`). -/
def State.packetCtx (s : State) : PacketCtx :=
  { state := s.lz.state, posState := s.posState, prev := 0, matchByte := 0 }

/-- What a LIT packet samples: the previous byte, and the match byte when `s >= 7` (R194). -/
def litContext : M PacketCtx := do
  let x ← look State.packetCtx
  let prev ← byteAt 1
  if x.state.val < 7 then pure { x with prev := prev }
  else do
    let rep0 ← look fun s => s.lz.rep0.toNat
    let mb ← byteAt (rep0 + 1)
    pure { x with prev := prev, matchByte := mb }

/-- The packet's context, by its type. -/
def sampleContext : PacketKind → M PacketCtx
  | .lit => litContext
  | .matchNew => look State.packetCtx
  | .shortRep => look State.packetCtx
  | .longRep0 => look State.packetCtx
  | .longRep1 => look State.packetCtx
  | .longRep2 => look State.packetCtx
  | .longRep3 => look State.packetCtx

/-- MATCH's registers: the new distance shifted in (R196), then the state (R210). -/
def Engine.pushMatch (e : Engine) (dist : Word) : Engine :=
  { state := nextState e.state .matchNew, rep0 := dist, rep1 := e.rep0, rep2 := e.rep1, rep3 := e.rep2 }

/-- SHORTREP's registers (R198): the reps stay. -/
def Engine.keepShort (e : Engine) : Engine := { e with state := nextState e.state .shortRep }

/-- LONGREP0's registers (R199): the reps stay. -/
def Engine.keepLong (e : Engine) : Engine := { e with state := nextState e.state .longRep }

/-- LONGREP1's registers (R200, R203): `rep1` to the front. -/
def Engine.front1 (e : Engine) : Engine :=
  { state := nextState e.state .longRep, rep0 := e.rep1, rep1 := e.rep0, rep2 := e.rep2, rep3 := e.rep3 }

/-- LONGREP2's registers (R201, R203): `rep2` to the front. -/
def Engine.front2 (e : Engine) : Engine :=
  { state := nextState e.state .longRep, rep0 := e.rep2, rep1 := e.rep0, rep2 := e.rep1, rep3 := e.rep3 }

/-- LONGREP3's registers (R202, R203): `rep3` to the front. -/
def Engine.front3 (e : Engine) : Engine :=
  { state := nextState e.state .longRep, rep0 := e.rep3, rep1 := e.rep0, rep2 := e.rep1, rep3 := e.rep2 }

/-- The registers a copying packet leaves, then its copy of `len` bytes from `rep0 + 1` back, the sum without wrap
(R193, R217). -/
def copyFrom (lz : Engine) (len : Nat) : M Unit := do
  update fun s => s.setEngine lz
  copyMatch (lz.rep0.toNat + 1) len

/-- The effect of a packet whose operands have been decoded (R194 to R202), in the order of R217: rep registers,
state, then `OUT` and `dict.position`. At `position = limit` it is `Full` whatever its type, range coder faults having
come first (R190, decision D24; DEDUCED, log entry 25: before R196's `EndMarker` and R146's `InvalidDistance`). -/
def applyPacket (p : Packet) : M Unit := do
  needRoom
  let lz ← look fun s => s.lz
  match p with
  | .lit b => do
    putLiteral b
    update fun s => s.setEngine { lz with state := nextState lz.state .lit }
  | .matchNew len dist => do
    let offset ← look fun s => s.inp.offset
    if dist = Config.endMarker then raise (.endMarker offset) else copyFrom (lz.pushMatch dist) len
  | .shortRep => copyFrom lz.keepShort 1
  | .longRep0 len => copyFrom lz.keepLong len
  | .longRep1 len => copyFrom lz.front1 len
  | .longRep2 len => copyFrom lz.front2 len
  | .longRep3 len => copyFrom lz.front3 len

/-- A packet after its type code (R194 to R202): sample, decode the operands, take effect. The rep registers are
reordered after the length is decoded, which R202 says is not observable. -/
def packetBody (k : PacketKind) : M Unit := do
  let x ← sampleContext k
  let p ← (operandTree x k).run
  applyPacket p

end Sys2Proof.Machine
end

