-- ==== Sys2Proof/Machine/Engine.lean ====
section
/-! DEFINITION. The engine (spec/43_lzma_engine.md): packets, the LEN and DIST codes, the decode loop and the reset of
the model. -/

namespace Sys2Proof.Machine

/-! ## Packets: the rule's text after the type code (R194 to R202) -/

/-- A packet whose operands are decoded by `rc.decode_*`, which needs an `rc.init` before it (R333). -/
def commitPacket (k : PacketKind) (s : State) : Outcome :=
  commit (fun _ => .ok) (do needRc; packetBody k) s

/-- `LIT` (R194). -/
def execPacketLit (s : State) : Outcome := commitPacket .lit s

/-- `MATCH` (R196). -/
def execPacketMatch (s : State) : Outcome := commitPacket .matchNew s

/-- `SHORTREP` (R198): it has no operand to decode and reads no `rc` register. -/
def execPacketShortRep (s : State) : Outcome := commit (fun _ => .ok) (packetBody .shortRep) s

/-- `LONGREP0` (R199). -/
def execPacketLongRep0 (s : State) : Outcome := commitPacket .longRep0 s

/-- `LONGREP1` (R200). -/
def execPacketLongRep1 (s : State) : Outcome := commitPacket .longRep1 s

/-- `LONGREP2` (R201). -/
def execPacketLongRep2 (s : State) : Outcome := commitPacket .longRep2 s

/-- `LONGREP3` (R202). -/
def execPacketLongRep3 (s : State) : Outcome := commitPacket .longRep3 s

/-! ## Length and distance codes: what follows the selector or the slot (R204, R205) -/

/-- `LEN.LOW` (R204, R99): length `2 + v`. -/
def execLenLow (l : LenCoder) (ps : BitVec 2) (s : State) : Outcome :=
  commit .value (do needRc; (lenLowTree l ps).run) s

/-- `LEN.MID` (R204, R99): length `10 + v`. -/
def execLenMid (l : LenCoder) (ps : BitVec 2) (s : State) : Outcome :=
  commit .value (do needRc; (lenMidTree l ps).run) s

/-- `LEN.HIGH` (R204, R99): length `18 + v`. -/
def execLenHigh (l : LenCoder) (s : State) : Outcome := commit .value (do needRc; (lenHighTree l).run) s

/-- `DIST.SLOT0_3` (R205, R101): the stored distance is the slot; nothing is decoded. -/
def execDistSlot0To3 (slot : BitVec 2) (s : State) : Outcome :=
  commit (fun d => .value d.toNat) (distLowTree (slot.setWidth 6)).run s

/-- `DIST.SLOT4_13` (R205, R101): two high bits and the slot's own reverse tree. -/
def execDistSlot4To13 (k : Fin 10) (s : State) : Outcome :=
  commit (fun d => .value d.toNat) (do needRc; (distMidTree (midSlot k)).run) s

/-- `DIST.SLOT14_63` (R205, R101): two high bits, direct bits and `posAlign`. -/
def execDistSlot14To63 (k : Fin 50) (s : State) : Outcome :=
  commit (fun d => .value d.toNat) (do needRc; (distHighTree (highSlot k)).run) s

/-! ## Operations of the engine -/

/-- One packet (R190): its type code, then the packet. -/
def onePacket : M Unit := do
  let x ← look State.packetCtx
  let k ← (typeTree x.state x.posState).run
  packetBody k

/-- `lz.decode`'s loop (R190): the exit test stands after the packet. `n` bounds the packets; every packet writes a
byte or stops, so `limit - position` of them reach the limit (`packetLoop_exits`, Laws/Engine.lean). -/
def packetLoop : Nat → M Unit
  | 0 => pure ()
  | n + 1 => do
    onePacket
    let full ← look fun s => decide (s.dict.position ≥ s.dict.limit)
    if full then pure () else packetLoop n

/-- `lz.decode()` (R190): packets until the limit, at least one, then the final normalisation (R192). Entered at
`position = limit`, its first packet takes `Full` whatever its type, or a range coder fault first (decision D24). -/
def lzDecode : M Unit := do
  let n ← look fun s => s.dict.limit - s.dict.position
  packetLoop (max 1 n)
  normalize
  update State.markDecoded

/-- `lz.decode` as an instruction: it needs a `dict.set_limit` and an `rc.init` of its own (R333, R252). -/
def execLzDecode (s : State) : Outcome := commit (fun _ => .ok) (do needChunk; lzDecode) s

/-- `lz.decode_length(L, ps)` (R204). -/
def execLzDecodeLength (l : LenCoder) (ps : BitVec 2) (s : State) : Outcome :=
  commit .value (do needRc; (lengthTree l ps).run) s

/-- `lz.decode_distance(len)` (R205); for a length below 2 `lenSlot` is a free value (log entry 26). -/
def execLzDecodeDistance (len : Nat) (s : State) : Outcome :=
  commit (fun d => .value d.toNat) (do needRc; (distanceTree len).run) s

/-- `lz.reset_state()` (R215), between chunks (R332). -/
def resetState : M Unit := do
  needBetweenChunks
  update State.resetModel

/-- `lz.reset_state` (R215) as an instruction. -/
def execLzResetState (s : State) : Outcome := commit (fun _ => .ok) resetState s

end Sys2Proof.Machine
end

