-- ==== Sys2Proof/Machine/Chunk.lean ====
section
/-! DEFINITION. The chunk commands (spec/44_lzma2_chunk_commands.md), in the chunk loop's two modes: decoding (R240 to
R247) and size query (R250). The header's bytes have been read when a chunk command runs. -/

namespace Sys2Proof.Machine

/-- `CHUNK.END` (R241, R250): the loop returns success, with the decompressed length, or the tally in size-query mode.
No CORE register changes. -/
def chunkEnd : M Nat := do
  update State.endLoop
  look fun s =>
    match s.mode with
    | .decode => s.dict.position
    | .sizeQuery => s.tally

/-- `CHUNK.END` (R241). -/
def execChunkEnd (s : State) : Outcome := commit .finished chunkEnd s

/-- A rejected control byte (R242, R243), in either mode. -/
def rejectControl (control : Byte) (s : State) : Outcome :=
  commit (fun _ => .ok) (raise (.unsupportedChunk control) : M Unit) s

/-- `CHUNK.RAW.RESET` (R242). -/
def execChunkRawReset (s : State) : Outcome := rejectControl 0x01 s

/-- `CHUNK.RAW` (R242). -/
def execChunkRaw (s : State) : Outcome := rejectControl 0x02 s

/-- `CHUNK.RESERVED`, control byte `0x03` (R243). -/
def execChunkReserved03 (s : State) : Outcome := rejectControl 0x03 s

/-- `CHUNK.RESERVED`, control bytes `0x04..0x07` (R243). -/
def execChunkReserved04 (x : BitVec 2) (s : State) : Outcome := rejectControl (0x04 ||| x.setWidth 8) s

/-- `CHUNK.RESERVED`, control bytes `0x08..0x0F` (R243). -/
def execChunkReserved08 (x : BitVec 3) (s : State) : Outcome := rejectControl (0x08 ||| x.setWidth 8) s

/-- `CHUNK.RESERVED`, control bytes `0x10..0x1F` (R243). -/
def execChunkReserved10 (x : BitVec 4) (s : State) : Outcome := rejectControl (0x10 ||| x.setWidth 8) s

/-- `CHUNK.RESERVED`, control bytes `0x20..0x3F` (R243). -/
def execChunkReserved20 (x : BitVec 5) (s : State) : Outcome := rejectControl (0x20 ||| x.setWidth 8) s

/-- `CHUNK.RESERVED`, control bytes `0x40..0x7F` (R243). -/
def execChunkReserved40 (x : BitVec 6) (s : State) : Outcome := rejectControl (0x40 ||| x.setWidth 8) s

/-- The chunk completion check (R246): the range coder's query, then the dictionary's. -/
def checkComplete (usize csize : Nat) : M Unit := do
  let rc ← look State.rcComplete
  let code ← look fun s => s.rc.code
  let dict ← look State.dictComplete
  if !rc.1 || rc.2 != csize then raise (.chunkCompressedMismatch rc.2 code)
  else if !dict.1 || dict.2 != usize then raise (.chunkUncompressedMismatch dict.2)
  else pure ()

/-- A compressed chunk after its reset (R244): limit, range coder, decoding, completion, in R332's order. Its
`dict.set_limit` is refused after an `rc.init` the host has issued (U15, log entry 28); the two that follow are then in
order. -/
def decodeChunk (usize csize : Nat) : M Unit := do
  needBeforeInit
  setLimit usize
  rcInit csize
  lzDecode
  checkComplete usize csize

/-- A chunk in size-query mode (R250): skip the payload, add to the tally. -/
def skipChunk (usize csize : Nat) : M Unit := do
  let _ ← reserve csize
  update fun s => s.addTally usize

/-- What a chunk's reset does before the chunk is decoded (R247). -/
def chunkReset (reset : Bool) : M Unit := if reset then resetState else pure ()

/-- An accepted LZMA chunk after its header (R244, R250), by the loop's mode. -/
def lzmaChunk (reset : Bool) (u : BitVec 21) (c : BitVec 16) : M Unit := do
  let mode ← look fun s => s.mode
  match mode with
  | .decode => do
    chunkReset reset
    decodeChunk (uncompressedSize u) (compressedSize c)
  | .sizeQuery => skipChunk (uncompressedSize u) (compressedSize c)

/-- `CHUNK.LZMA.NONE` (R244): no reset. -/
def execChunkLzmaNone (u : BitVec 21) (c : BitVec 16) (s : State) : Outcome :=
  commit (fun _ => .ok) (lzmaChunk false u c) s

/-- `CHUNK.LZMA.STATE` (R244): `lz.reset_state` issued. -/
def execChunkLzmaState (u : BitVec 21) (c : BitVec 16) (s : State) : Outcome :=
  commit (fun _ => .ok) (lzmaChunk true u c) s

/-- `CHUNK.LZMA.PROPS` (R245): rejected after the four info bytes, in either mode; `info` is the control byte. -/
def execChunkLzmaProps (u : BitVec 21) (_c : BitVec 16) (s : State) : Outcome :=
  commit (fun _ => .ok) (raise (.unsupportedReset (0xC0 ||| (u.extractLsb' 16 5).setWidth 8)) : M Unit) s

/-- `CHUNK.LZMA.FULL` (R244): the property byte checked, `lz.reset_state` issued. -/
def execChunkLzmaFull (u : BitVec 21) (c : BitVec 16) (props : Byte) (s : State) : Outcome :=
  commit (fun _ => .ok) (do
    if props = Config.props then lzmaChunk true u c else raise (.badProperties props)) s

end Sys2Proof.Machine
end

