-- ==== Sys2Proof/Machine/Coder.lean ====
section
/-! DEFINITION. The range coder's operations as instructions (spec/42_range_coder.md R160 to R175). Each that reads an
`rc` register is refused before the first `rc.init` (R333); `rc.init` itself comes after the chunk's `dict.set_limit`
(R332). -/

namespace Sys2Proof.Machine

/-- `rc.init` (R160), after the chunk's `dict.set_limit` (R332, U15). -/
def execRcInit (compressedSize : Count) (s : State) : Outcome :=
  commit (fun _ => .ok) (do needLimit; rcInit compressedSize.toNat) s

/-- `rc.normalize` (R162). -/
def execRcNormalize (s : State) : Outcome := commit (fun _ => .ok) (do needRc; normalize) s

/-- `rc.decode_bit` (R163). -/
def execRcDecodeBit (c : Cell) (s : State) : Outcome := commit .decision (do needRc; decodeBit c) s

/-- `rc.decode_direct` (R167). -/
def execRcDecodeDirect (n : Nat) (s : State) : Outcome :=
  commit .value (do needRc; (Dec.directBits n).run) s

/-- `rc.decode_tree` (R170); over a table of fewer than `2^n` cells the cells outside it are free values (log entry 27).
-/
def execRcDecodeTree (t : Probs) (n : Nat) (s : State) : Outcome :=
  commit .value (do needRc; (Dec.tree t n).run) s

/-- `rc.decode_reverse_tree` (R171); over a table of fewer than `2^n` cells the cells outside it are free values (log
entry 27). -/
def execRcDecodeReverseTree (t : Probs) (n : Nat) (s : State) : Outcome :=
  commit .value (do needRc; (Dec.reverseTree t n).run) s

/-- `rc.decode_matched_literal` (R172), over one literal subtable. -/
def execRcDecodeMatchedLiteral (c : Fin 8) (matchByte : Byte) (s : State) : Outcome :=
  commit .byte (do needRc; (Dec.matchedLiteral c matchByte).run) s

/-- `rc.is_complete` (R175). -/
def execRcIsComplete (s : State) : Outcome :=
  commit (fun r => .query r.1 r.2) (do needRc; look State.rcComplete) s

end Sys2Proof.Machine
end

