-- ==== Sys2Proof/Machine/Dict.lean ====
section
/-! DEFINITION. The dictionary's operations as instructions (spec/41_dictionary.md R140 to R150). -/

namespace Sys2Proof.Machine

/-- `dict.init` (R140), of any size below `2^W_POS` (R9). -/
def execDictInit (size : Nat) (s : State) : Outcome :=
  commit (fun _ => .ok) (do require (size < 2 ^ s.wPos) .sizeTooLarge; update fun t => t.initDict size) s

/-- `dict.set_limit` (R142), before the chunk's `rc.init` (R332). -/
def execDictSetLimit (chunkSize : Nat) (s : State) : Outcome :=
  commit (fun _ => .ok) (do needBeforeInit; setLimit chunkSize) s

/-- `dict.put_literal` (R144). -/
def execDictPutLiteral (b : Byte) (s : State) : Outcome := commit (fun _ => .ok) (putLiteral b) s

/-- `dict.copy_match` (R146). -/
def execDictCopyMatch (distance length : Nat) (s : State) : Outcome :=
  commit (fun _ => .ok) (copyMatch distance length) s

/-- `dict.byte_at` (R148). -/
def execDictByteAt (distance : Nat) (s : State) : Outcome := commit .byte (byteAt distance) s

/-- `dict.is_complete` (R150). -/
def execDictIsComplete (s : State) : Outcome :=
  commit (fun r => .query r.1 r.2) (look State.dictComplete) s

end Sys2Proof.Machine
end

