-- ==== Sys2Proof/Machine/Input.lean ====
section
/-! DEFINITION. Construction and the input cursor's operations as instructions (spec/70_reset_and_hazards.md R330,
spec/40_input_cursor.md R130 to R132). -/

namespace Sys2Proof.Machine

/-- `construct` (R330): the block's only reset, legal in every state, a faulted one too (R304, R306). `W_POS`, `IN` and
the capacity are its arguments (R9), the sizes below `2^W_POS`. -/
def execConstruct (input : List Byte) (params : Params) (s : State) : Outcome :=
  if input.length < 2 ^ params.wPos ∧ params.bufferSize < 2 ^ params.wPos then
    .next (s.construct params.wPos input params.bufferSize)
  else .refused .sizeTooLarge

/-- `in.read_byte` (R130). -/
def execInReadByte (s : State) : Outcome := commit .byte readByte s

/-- `in.reserve` (R131). -/
def execInReserve (n : Nat) (s : State) : Outcome := commit .view (reserve n) s

/-- `in.align4` (R132). -/
def execInAlign4 (s : State) : Outcome := commit (fun _ => .ok) align4 s

end Sys2Proof.Machine
end

