-- ==== Sys2Proof/Machine/Dispatch.lean ====
section
/-! DEFINITION. One arm per constructor of `Instr`: its meaning. -/

namespace Sys2Proof.Machine

def exec (i : Instr) (s : State) : Host.Outcome State Fault Refusal :=
  match i with
  | .chunkEnd => Sys2Proof.Machine.execChunkEnd s
  | .chunkRawReset => Sys2Proof.Machine.execChunkRawReset s
  | .chunkRaw => Sys2Proof.Machine.execChunkRaw s
  | .chunkReserved03 => Sys2Proof.Machine.execChunkReserved03 s
  | .chunkReserved04 x => Sys2Proof.Machine.execChunkReserved04 x s
  | .chunkReserved08 x => Sys2Proof.Machine.execChunkReserved08 x s
  | .chunkReserved10 x => Sys2Proof.Machine.execChunkReserved10 x s
  | .chunkReserved20 x => Sys2Proof.Machine.execChunkReserved20 x s
  | .chunkReserved40 x => Sys2Proof.Machine.execChunkReserved40 x s
  | .chunkLzmaNone u c => Sys2Proof.Machine.execChunkLzmaNone u c s
  | .chunkLzmaState u c => Sys2Proof.Machine.execChunkLzmaState u c s
  | .chunkLzmaProps u c => Sys2Proof.Machine.execChunkLzmaProps u c s
  | .chunkLzmaFull u c props => Sys2Proof.Machine.execChunkLzmaFull u c props s
  | .packetLit => Sys2Proof.Machine.execPacketLit s
  | .packetMatch => Sys2Proof.Machine.execPacketMatch s
  | .packetShortRep => Sys2Proof.Machine.execPacketShortRep s
  | .packetLongRep0 => Sys2Proof.Machine.execPacketLongRep0 s
  | .packetLongRep1 => Sys2Proof.Machine.execPacketLongRep1 s
  | .packetLongRep2 => Sys2Proof.Machine.execPacketLongRep2 s
  | .packetLongRep3 => Sys2Proof.Machine.execPacketLongRep3 s
  | .lenLow l ps => Sys2Proof.Machine.execLenLow l ps s
  | .lenMid l ps => Sys2Proof.Machine.execLenMid l ps s
  | .lenHigh l => Sys2Proof.Machine.execLenHigh l s
  | .distSlot0To3 slot => Sys2Proof.Machine.execDistSlot0To3 slot s
  | .distSlot4To13 k => Sys2Proof.Machine.execDistSlot4To13 k s
  | .distSlot14To63 k => Sys2Proof.Machine.execDistSlot14To63 k s
  | .construct input params => Sys2Proof.Machine.execConstruct input params s
  | .inReadByte => Sys2Proof.Machine.execInReadByte s
  | .inReserve n => Sys2Proof.Machine.execInReserve n s
  | .inAlign4 => Sys2Proof.Machine.execInAlign4 s
  | .dictInit size => Sys2Proof.Machine.execDictInit size s
  | .dictSetLimit chunkSize => Sys2Proof.Machine.execDictSetLimit chunkSize s
  | .dictPutLiteral b => Sys2Proof.Machine.execDictPutLiteral b s
  | .dictCopyMatch distance length => Sys2Proof.Machine.execDictCopyMatch distance length s
  | .dictByteAt distance => Sys2Proof.Machine.execDictByteAt distance s
  | .dictIsComplete => Sys2Proof.Machine.execDictIsComplete s
  | .rcInit compressedSize => Sys2Proof.Machine.execRcInit compressedSize s
  | .rcNormalize => Sys2Proof.Machine.execRcNormalize s
  | .rcDecodeBit c => Sys2Proof.Machine.execRcDecodeBit c s
  | .rcDecodeDirect n => Sys2Proof.Machine.execRcDecodeDirect n s
  | .rcDecodeTree probs n => Sys2Proof.Machine.execRcDecodeTree probs n s
  | .rcDecodeReverseTree probs n => Sys2Proof.Machine.execRcDecodeReverseTree probs n s
  | .rcDecodeMatchedLiteral c matchByte => Sys2Proof.Machine.execRcDecodeMatchedLiteral c matchByte s
  | .rcIsComplete => Sys2Proof.Machine.execRcIsComplete s
  | .lzDecode => Sys2Proof.Machine.execLzDecode s
  | .lzDecodeLength l ps => Sys2Proof.Machine.execLzDecodeLength l ps s
  | .lzDecodeDistance len => Sys2Proof.Machine.execLzDecodeDistance len s
  | .lzResetState => Sys2Proof.Machine.execLzResetState s

end Sys2Proof.Machine
end

