-- ==== Sys2Proof/Machine/Fetch.lean ====
section
/-! DEFINITION. Fetching the next instruction: the operation the host issued, or the next chunk header of the chunk loop
(spec/44_lzma2_chunk_commands.md R240, R244). -/

namespace Sys2Proof.Machine

/-- At most `n` bytes of `IN` from address `a` on, up to its end. -/
def inWindow (m : Mem) (size : Nat) : Nat → Nat → List Byte
  | _, 0 => []
  | a, n + 1 =>
    if a < size then
      match m.read a with
      | none => []
      | some b => b :: inWindow m size (a + 1) n
    else []

/-- The bytes at `in.offset`, as many as the longest header has. -/
def State.window (s : State) : List Byte :=
  inWindow s.inp.bytes s.inp.size s.inp.offset maxHeader

/-- The chunk loop's next header (R240, R244): `in.offset` moves past the bytes read. Where the input ends before the
header does, the read of the missing byte raises `EndOfInput`. -/
def fetchHeader (s : State) : Except Outcome (Instr × State) :=
  match decodeBytes s.window with
  | .ok (i, rest) => .ok (i, s.advance (s.window.length - rest.length))
  | .error _ =>
    if s.inp.offset + s.window.length < s.inp.size then .error (.fault .inNoValue)
    else .error (.next (s.takeFault (.endOfInput (s.inp.offset + s.window.length))))

/-- The next instruction, and the state it runs in (log entry 6). An operation the host has issued runs first. With
none issued the chunk loop runs its next chunk command (R240), unless it has returned (R241) or a fault has ended the
run (R304). -/
def fetch (s : State) : Except Outcome (Instr × State) :=
  match s.issued with
  | i :: rest => .ok (i, { s with issued := rest })
  | [] =>
    match s.fault, s.loop with
    | some _, _ => .error (.refused .afterFault)
    | none, .returned => .error (.refused .runEnded)
    | none, .running => fetchHeader s

/-- Where a placed instruction stands: at `in.offset`, or at 0 if it would not fit below `2^W_POS`. -/
def placeOffset (s : State) : Nat := if s.inp.offset + maxHeader < 2 ^ s.wPos then s.inp.offset else 0

/-- The state with bytes placed where the chunk loop fetches its next header (log entry 7): in `IN` at `in.offset`, the
loop running, nothing issued before it, no fault taken. -/
def placeBytes (s : State) (bs : List Byte) : State :=
  { s with
    inp := { offset := placeOffset s
             size := max s.inp.size (placeOffset s + bs.length)
             bytes := s.inp.bytes.place (placeOffset s) bs }
    fault := none
    loop := .running
    issued := [] }

end Sys2Proof.Machine
end

