-- ==== Sys2Proof/Machine/Step.lean ====
section
/-! DEFINITION. One step: fetch the next instruction and run it. -/

namespace Sys2Proof.Machine

/-- One step: the next instruction (`fetch`) run to its end (`exec`). -/
def step (s : State) : Host.Outcome State Fault Refusal :=
  match fetch s with
  | .ok (i, t) => exec i t
  | .error o => o

/-- The state with the instruction whose bits are `w` stored where `step` fetches its next instruction, the bits from
`nbits` up zero. -/
def State.withFetchWord (s : State) (nbits w : Nat) : State := placeBytes s (tableBytes nbits w)

end Sys2Proof.Machine
end

