-- ==== Sys2Proof/Safety.lean ====
section
/-! DEFINITION. What counts as a safe state and a safe run, in the terms the claims use. -/

namespace Sys2Proof.Machine

/-- What holds in a state whatever has happened: the memories and the probability table are in their canonical forms, and
the sizes of `OUT` and `IN` fit their `W_POS`-bit registers (R9). -/
structure State.Canonical (s : State) : Prop where
  out : s.dict.out.wf
  bytes : s.inp.bytes.wf
  probs : s.probs.wf
  sizes : s.dict.bufferSize < 2 ^ s.wPos ∧ s.inp.size < 2 ^ s.wPos

/-- The six registers of `W_POS` bits hold values below `2^W_POS` (R9). -/
def State.FitsWPos (s : State) : Prop :=
  s.dict.position < 2 ^ s.wPos ∧ s.dict.limit < 2 ^ s.wPos ∧ s.dict.historyStart < 2 ^ s.wPos ∧
    s.dict.bufferSize < 2 ^ s.wPos ∧ s.inp.offset < 2 ^ s.wPos ∧ s.inp.size < 2 ^ s.wPos

/-- `0 <= dict.position <= dict.limit <= dict.bufferSize` (R44 (a)). -/
def State.PositionsOrdered (s : State) : Prop :=
  s.dict.position ≤ s.dict.limit ∧ s.dict.limit ≤ s.dict.bufferSize

/-- `OUT` holds a byte exactly at the addresses below `dict.position` (R38, R45). -/
def State.OutputWritten (s : State) : Prop :=
  ∀ a, (s.dict.out.read a).isSome ↔ a < s.dict.position

/-- Every cell of `P` lies in 31..2017 (R165 (d), R27). -/
def State.CellsInRange (s : State) : Prop := ∀ c, 31 ≤ (s.cell c).toNat ∧ (s.cell c).toNat ≤ 2017

/-- `0 <= in.offset <= in.size` (R39), and `IN` holds a byte at every address below `in.size` (R60). -/
def State.InputPresent (s : State) : Prop :=
  s.inp.offset ≤ s.inp.size ∧ ∀ a, a < s.inp.size → (s.inp.bytes.read a).isSome

/-- Once `rc.init` has been issued, `rc.range` is at least `2^16` between operations (R165 (e)) and at least the five
header bytes of the budget have been consumed (R23, R160). -/
def State.CoderInRange (s : State) : Prop :=
  s.stage ≠ .uninit → 2 ^ 16 ≤ s.rc.range.toNat ∧ s.rc.remaining.toNat + Config.rcInitBytes ≤ s.rc.budget.toNat

/-- `dict.historyStart` is at or below `dict.position` (R37, R142: it is the position at the chunk's start). -/
def State.HistoryBelow (s : State) : Prop := s.dict.historyStart ≤ s.dict.position

/-- The invariant of the machine: canonical forms and registers within their width always; the rest of R44's invariants
while no fault has been taken (after one nothing may be relied on, R305). -/
structure State.Inv (s : State) : Prop where
  canonical : s.Canonical
  widths : s.FitsWPos
  positions : s.fault = none → s.PositionsOrdered
  output : s.fault = none → s.OutputWritten
  cells : s.fault = none → s.CellsInRange
  input : s.fault = none → s.InputPresent
  coder : s.fault = none → s.CoderInRange
  history : s.fault = none → s.HistoryBelow

/-- R44 (f): in a state whose last packet was a match or a rep, the match byte lies in the written output. -/
def State.MatchByteInside (s : State) : Prop :=
  s.fault = none → 7 ≤ s.lz.state.val → s.lz.rep0.toNat + 1 ≤ s.dict.position

/-- The CORE accepts an operation that reads the `rc` registers: no fault has been taken and `rc.init` has been issued
(R333). -/
def State.Ready (s : State) : Prop := s.fault = none ∧ s.stage ≠ .uninit

/-- The next `n` payload bytes are there: within the chunk's budget and within `IN`. -/
def State.CanFetch (s : State) (n : Nat) : Prop :=
  n ≤ s.rc.remaining.toNat ∧ s.inp.offset + n ≤ s.inp.size ∧
    ∀ k, k < n → (s.inp.bytes.read (s.inp.offset + k)).isSome

/-- What LIT samples at its start (R194): the previous byte, `0x00` at the start of the output, and, in states 7..11, the
byte `rep0 + 1` back, `0x00` before the start of the buffer. -/
structure State.LitSamples (s : State) (prev mb : Byte) : Prop where
  prev : if s.dict.position = 0 then prev = 0 else s.dict.out.read (s.dict.position - 1) = some prev
  inside : 7 ≤ s.lz.state.val → s.lz.rep0.toNat + 1 ≤ s.dict.position →
    s.dict.out.read (s.dict.position - (s.lz.rep0.toNat + 1)) = some mb
  before : 7 ≤ s.lz.state.val → s.dict.position < s.lz.rep0.toNat + 1 → mb = 0

/-- The decoder of LIT's byte (R194): subtable `prev_byte >> 5`, plain in states 0..6, matched in states 7..11. -/
def State.litDecoder (s : State) (prev mb : Byte) : Dec Byte :=
  if s.lz.state.val < 7 then (Dec.tree (.literal (Fin.ofNat 8 (prev.toNat / 32))) 8).map (BitVec.ofNat 8)
  else Dec.matchedLiteral (Fin.ofNat 8 (prev.toNat / 32)) mb

/-- Only the range coder, the cells and `in.offset` differ. -/
def CoderOnly (s t : State) : Prop :=
  t = { s with rc := t.rc, probs := t.probs, inp := { s.inp with offset := t.inp.offset } }

/-- The decisions a list asks for, one after another: `(some c, b)` is a decision on cell `c` that comes out `b` (R163),
`(none, b)` a direct bit that comes out `b` (R167). -/
def Follows : State → List (Option Cell × Bool) → State → Prop
  | s, [], t => s = t
  | s, (some c, b) :: rest, t => ∃ u, decodeBit c s = .ok (b, u) ∧ Follows u rest t
  | s, (none, b) :: rest, t => ∃ u, decodeDirectBit s = .ok (b, u) ∧ Follows u rest t

/-- The number a string of decisions spells, first one most significant (R170). -/
def msbValue (bs : List Bool) : Nat := bs.foldl (fun v b => 2 * v + b.toNat) 0

/-- The number a string of decisions spells, first one least significant (R171). -/
def lsbValue : List Bool → Nat
  | [] => 0
  | b :: bs => b.toNat + 2 * lsbValue bs

/-- The decisions of a tree walk from index `m` (R170, R171): the index shifts left and adds the decision. -/
def treePath (t : Probs) : Nat → List Bool → List (Option Cell × Bool)
  | _, [] => []
  | m, b :: bs => (some (t.cell m), b) :: treePath t (2 * m + b.toNat) bs

/-- The decisions of a matched literal in the words of R172: at step `j`, with `symbol` a 1 followed by the bits decoded
so far, the cell is `0x200 + symbol` or `0x100 + symbol` by bit `7 - j` of the match byte while every decoded bit has
equalled the match byte's, and `symbol` alone afterwards. -/
def matchedPath (c : Fin 8) (matchByte : Byte) : Nat → Nat → Bool → List Bool → List (Option Cell × Bool)
  | _, _, _, [] => []
  | j, symbol, same, b :: bs =>
    (some ((Probs.literal c).cell
      (if same then (if matchByte.getLsbD (7 - j) then 0x200 else 0x100) + symbol else symbol)), b) ::
      matchedPath c matchByte (j + 1) (2 * symbol + b.toNat) (same && b == matchByte.getLsbD (7 - j)) bs

/-- The seven type codes of R97, row by row: the packet, and the decisions of its code, each on its cell. -/
def typeCodes (s : Fin 12) (ps : Fin 16) : List (Instr × List (Option Cell × Bool)) :=
  [(.packetLit, [(some (.isMatch s ps), false)]),
    (.packetMatch, [(some (.isMatch s ps), true), (some (.isRep s), false)]),
    (.packetShortRep, [(some (.isMatch s ps), true), (some (.isRep s), true), (some (.isRepG0 s), false),
      (some (.isRep0Long s ps), false)]),
    (.packetLongRep0, [(some (.isMatch s ps), true), (some (.isRep s), true), (some (.isRepG0 s), false),
      (some (.isRep0Long s ps), true)]),
    (.packetLongRep1, [(some (.isMatch s ps), true), (some (.isRep s), true), (some (.isRepG0 s), true),
      (some (.isRepG1 s), false)]),
    (.packetLongRep2, [(some (.isMatch s ps), true), (some (.isRep s), true), (some (.isRepG0 s), true),
      (some (.isRepG1 s), true), (some (.isRepG2 s), false)]),
    (.packetLongRep3, [(some (.isMatch s ps), true), (some (.isRep s), true), (some (.isRepG0 s), true),
      (some (.isRepG1 s), true), (some (.isRepG2 s), true)])]

/-- A copy of `length` bytes from `distance` back, byte after byte (R146, R68): the position moves on, each new byte is
the one `distance` before it, every other address is as before. -/
def Copied (s t : Dictionary) (distance length : Nat) : Prop :=
  t = { s with position := s.position + length, out := t.out } ∧
  (∀ a, ¬(s.position ≤ a ∧ a < s.position + length) → t.out.read a = s.out.read a) ∧
  ∀ k, k < length → t.out.read (s.position + k) = t.out.read (s.position + k - distance)

/-- A run's outcome is not a trap: the machine has made no access to an address that does not exist or holds no
value. -/
def NoTrap (o : Outcome) : Prop := ∀ f, o ≠ .fault f

end Sys2Proof.Machine
end

