-- ==== Sys2Proof/Certificates/Slice0/Obligations.lean ====
section
/-! DEFINITION. The statements for the provers, from the numbered rules of the spec. No statement rests on a register,
cell or byte after a fault other than `fault` (R305), or on a free value. -/

open Sys2Proof Sys2Proof.Machine

/-! ## Encoding -/

/-- R91 to R94 (decision D19): the header bytes of spec/95_test_vectors.md section 2.11 decode to their commands. -/
def Obligations.ChunkHeaderWordsDecode : Prop :=
  decodeBytes [0x00] = .ok (.chunkEnd, []) ∧
  decodeBytes [0x01, 0x00] = .ok (.chunkRawReset, [0x00]) ∧
  decodeBytes [0x02] = .ok (.chunkRaw, []) ∧
  decodeBytes [0x03] = .ok (.chunkReserved03, []) ∧
  decodeBytes [0x7F] = .ok (.chunkReserved40 0x3F, []) ∧
  decodeBytes [0xE0, 0x00, 0x0B, 0x00, 0x10, 0x5D] = .ok (.chunkLzmaFull 11 16 0x5D, []) ∧
  decodeBytes [0xE0, 0x01, 0x11, 0x00, 0x06, 0x5D] = .ok (.chunkLzmaFull 273 6 0x5D, []) ∧
  decodeBytes [0x80, 0x00, 0x14, 0x00, 0x0A] = .ok (.chunkLzmaNone 20 10, []) ∧
  decodeBytes [0xA0, 0x00, 0x01, 0x00, 0x05] = .ok (.chunkLzmaState 1 5, []) ∧
  decodeBytes [0xFF, 0xFF, 0xFF, 0xFF, 0xFF, 0x5D] = .ok (.chunkLzmaFull 0x1FFFFF 0xFFFF 0x5D, []) ∧
  decodeBytes [0xC0, 0x00, 0x0B, 0x00, 0x10, 0x5D] = .ok (.chunkLzmaProps 11 16, [0x5D]) ∧
  decodeBytes [0xE0, 0x00, 0x0B] = .error .noInfoByte

/-- R92, R108 (decision D19): every value of the control byte is in exactly one CHUNK row of the opcode table, and the
header decodes to that row's instruction. -/
def Obligations.ControlByteMatchesExactlyOneRow : Prop :=
  ∀ (control i0 i1 i2 i3 p : Byte), ∃ n row i rest,
    chunkRows[n]? = some row ∧ row.admits control = true ∧
    (∀ m row', chunkRows[m]? = some row' → row'.admits control = true → m = n) ∧
    decodeBytes [control, i0, i1, i2, i3, p] = .ok (i, rest) ∧ chunkRowOf i = some n

/-- R91, R92, R105: decoding a chunk command's header bytes gives the command back and leaves the bytes after it. -/
def Obligations.ChunkHeaderRoundTrip : Prop :=
  ∀ (i : Instr) (bs rest : List Byte), encode i = .bytes bs → decodeBytes (bs ++ rest) = .ok (i, rest)

/-- R97, R99, R100 (decision D14): the type code, the selector and the slot of a level 3 code decode to the
instruction they stand for, with every decision after them left. -/
def Obligations.OpcodeDecisionsRoundTrip : Prop :=
  (∀ (k : PacketKind) (rest : List Bool), ∃ ds, encode k.instr = .decisions ds ∧
    decodePacketOpcode (ds ++ rest) = some (k.instr, rest)) ∧
  (∀ (l : LenCoder) (ps : BitVec 2) (k : LenClass) (rest : List Bool), ∃ ds,
    encode (k.instr l ps) = .decisions ds ∧ decodeLenOpcode l ps (ds ++ rest) = some (k.instr l ps, rest)) ∧
  ∀ (slot : BitVec 6) (rest : List Bool), ∃ ds, encode (slotInstr slot) = .decisions ds ∧
    decodeDistOpcode (ds ++ rest) = some (slotInstr slot, rest)

/-- R97 to R102 (decisions D14, D16): the decisions of a whole packet decode to that packet, whatever the state,
`posState`, previous byte and match byte that select the cells, for every byte, every length 2..273 and every stored
distance. -/
def Obligations.PacketCodeRoundTrip : Prop :=
  ∀ (x : PacketCtx) (p : Packet) (rest : List Bool), p.wellFormed = true →
    (packetTree x).bits (p.decisions ++ rest) = some (p, rest)

/-- R97 ("prefix-free and complete"), R102 (decision D14): every string of at least 48 decisions begins with the code
of exactly one packet, and that is the packet decoded from it. -/
def Obligations.PacketCodeComplete : Prop :=
  ∀ (x : PacketCtx) (ds : List Bool), 48 ≤ ds.length →
    ∃ p rest, p.wellFormed = true ∧ ds = p.decisions ++ rest ∧ (packetTree x).bits ds = some (p, rest) ∧
      ∀ q rest', q.wellFormed = true → ds = q.decisions ++ rest' → q = p

/-! ## The step, reset and order -/

/-- R240, R244, R252: with nothing issued, no fault and the chunk loop running, a step whose bytes at `in.offset` decode to a
chunk command runs that command, `in.offset` past its header; where the host has issued operations, a step runs the
first of them. -/
def Obligations.StepRunsDecodedInstruction : Prop :=
  (∀ (s : State) (i : Instr) (rest : List Byte), s.issued = [] → s.fault = none → s.loop = .running →
    decodeBytes s.window = .ok (i, rest) →
    step s = exec i { s with inp := { s.inp with
      offset := s.inp.offset + (s.window.length - rest.length) } }) ∧
  ∀ (s : State) (i : Instr) (rest : List Instr), s.issued = i :: rest →
    step s = exec i { s with issued := rest }

/-- R240, R130: where the input ends inside a header the step takes `EndOfInput` at the end of the input. After the loop
has returned, or after a fault, a step with nothing issued is refused: the model's own choice of what a step is there
(log entry 11), where R334 and R304 say only that the run has ended. -/
def Obligations.StepAtEndOfInputOrRun : Prop :=
  (∀ (s : State) (e : DecodeReject), s.issued = [] → s.fault = none → s.loop = .running → s.InputPresent →
    decodeBytes s.window = .error e →
    ∃ t, step s = .next t ∧ t.fault = some (.endOfInput s.inp.size)) ∧
  (∀ s : State, s.issued = [] → s.fault = none → s.loop = .returned → step s = .refused .runEnded) ∧
  (∀ s : State, s.issued = [] → s.fault ≠ none → step s = .refused .afterFault)

/-- R46 (decisions D23, D30, D2): the values the spec gives after construction. -/
def Obligations.ResetHoldsSpecValues : Prop :=
  State.reset.lz = { state := 0, rep0 := 0, rep1 := 0, rep2 := 0, rep3 := 0 } ∧
  (∀ c, State.reset.cell c = 0x400) ∧
  State.reset.dict.position = 0 ∧ State.reset.dict.limit = 0 ∧ State.reset.dict.historyStart = 0 ∧
  (∀ a, State.reset.dict.out.read a = none) ∧ State.reset.inp.offset = 0 ∧ State.reset.fault = none

/-- R330, R46, R304, R9 (decisions D30, D23, D3): `construct` completes in every state, a faulted one too, for every
`W_POS` and every input and capacity below `2^W_POS`, and leaves the state after construction: the given input and
capacity, every register and cell at its value after construction; the chunk loop about to run, in size-query mode for an
empty output view (R250, log entry 8), its tally 0; the operations the host has issued stay (log entry 22). A size the
registers cannot hold is refused. -/
def Obligations.ConstructEstablishesState : Prop :=
  (∀ (s : State) (wPos : Nat) (input : List Byte) (capacity : Nat), input.length < 2 ^ wPos → capacity < 2 ^ wPos →
    ∃ t, exec (.construct input ⟨wPos, capacity⟩) s = .next t ∧
      t.inp.offset = 0 ∧ t.inp.size = input.length ∧ (∀ a, t.inp.bytes.read a = input[a]?) ∧
      t.dict = { position := 0, limit := 0, historyStart := 0, bufferSize := capacity, out := [] } ∧
      t.lz = { state := 0, rep0 := 0, rep1 := 0, rep2 := 0, rep3 := 0 } ∧ (∀ c, t.cell c = 0x400) ∧
      t.fault = none ∧ t.wPos = wPos ∧ t.stage = .uninit ∧ t.limitSet = false ∧
      t.mode = (if capacity = 0 then .sizeQuery else .decode) ∧ t.tally = 0 ∧ t.loop = .running ∧
      t.issued = s.issued) ∧
  ∀ (s : State) (wPos : Nat) (input : List Byte) (capacity : Nat), (2 ^ wPos ≤ input.length ∨ 2 ^ wPos ≤ capacity) →
    exec (.construct input ⟨wPos, capacity⟩) s = .refused .sizeTooLarge

/-- R304, R306, R333 (decisions D22, D27): once a fault has been taken every instruction but `construct` is refused.
-/
def Obligations.AfterFaultOnlyConstruct : Prop :=
  ∀ (i : Instr) (s : State), s.fault ≠ none → (∀ input params, i ≠ .construct input params) →
    exec i s = .refused .afterFault

/-- R333, R332, R252, R146 (c), R148 (decisions D22, D28, D6): the operations refused. Before the first `rc.init`, the
range coder's operations and `lz.decode` (R333), and the packets, codes and decoders that call `rc.decode_*` (log entry
9); `lz.decode` twice without an `rc.init` between; `rc.init` or `lz.decode` with no `dict.set_limit` for its chunk;
`dict.set_limit` between `rc.init` and `lz.decode`, `lz.reset_state` between either of the two and `lz.decode`, and in
decode mode a chunk command that issues them there (log entry 28); a copy or a look back of distance 0. -/
def Obligations.OutOfOrderOperationsRefused : Prop :=
  (∀ (i : Instr) (s : State), s.fault = none → s.stage = .uninit →
    (i = .rcNormalize ∨ (∃ c, i = .rcDecodeBit c) ∨ (∃ n, i = .rcDecodeDirect n) ∨
      (∃ p n, i = .rcDecodeTree p n) ∨ (∃ p n, i = .rcDecodeReverseTree p n) ∨
      (∃ c b, i = .rcDecodeMatchedLiteral c b) ∨ i = .rcIsComplete ∨ i = .lzDecode ∨
      i = .packetLit ∨ i = .packetMatch ∨ i = .packetLongRep0 ∨ i = .packetLongRep1 ∨ i = .packetLongRep2 ∨
      i = .packetLongRep3 ∨ (∃ l ps, i = .lenLow l ps) ∨ (∃ l ps, i = .lenMid l ps) ∨ (∃ l, i = .lenHigh l) ∨
      (∃ k, i = .distSlot4To13 k) ∨ (∃ k, i = .distSlot14To63 k) ∨ (∃ l ps, i = .lzDecodeLength l ps) ∨
      (∃ len, i = .lzDecodeDistance len)) →
    exec i s = .refused .rcNotInitialised) ∧
  (∀ s : State, s.fault = none → s.stage = .decoded → exec .lzDecode s = .refused .decodeRepeated) ∧
  (∀ s : State, s.fault = none → s.stage = .ready → s.limitSet = false → exec .lzDecode s = .refused .limitNotSet) ∧
  (∀ (s : State) (c : Count), s.fault = none → s.limitSet = false → exec (.rcInit c) s = .refused .limitNotSet) ∧
  (∀ (s : State) (n : Nat), s.fault = none → s.stage = .ready → exec (.dictSetLimit n) s = .refused .outOfOrder) ∧
  (∀ s : State, s.fault = none → (s.stage = .ready ∨ s.limitSet = true) →
    exec .lzResetState s = .refused .outOfOrder) ∧
  (∀ (s : State) (u : BitVec 21) (c : BitVec 16), s.fault = none → s.mode = .decode →
    (s.stage = .ready → exec (.chunkLzmaNone u c) s = .refused .outOfOrder) ∧
    ((s.stage = .ready ∨ s.limitSet = true) →
      exec (.chunkLzmaState u c) s = .refused .outOfOrder ∧
      exec (.chunkLzmaFull u c 0x5D) s = .refused .outOfOrder)) ∧
  (∀ (s : State) (n : Nat), s.fault = none → exec (.dictCopyMatch 0 n) s = .refused .distanceZero) ∧
  (∀ s : State, s.fault = none → exec (.dictByteAt 0) s = .refused .distanceZero)

/-- R291 (decision D2): the code of every fault, and its class. -/
def Obligations.FaultCodesAndClasses : Prop :=
  ∀ (n p c k : Nat) (b : Byte) (w : Word),
    [CoreFault.endOfInput n, .corruptPadding n, .outputOverflow p c, .full p, .invalidDistance k p, .nonZeroHeader b,
      .budgetExhausted n, .endMarker n, .chunkCompressedMismatch n w, .chunkUncompressedMismatch n,
      .unsupportedChunk b, .unsupportedReset b, .badProperties b].map (fun f => (faultCode f, faultClass f)) =
    [(1, .buffer), (2, .structural), (3, .buffer), (4, .decode), (5, .decode), (6, .decode), (7, .decode), (8, .decode),
      (9, .decode), (10, .decode), (11, .structural), (12, .structural), (13, .structural)]

/-! ## The input cursor -/

/-- R130: `in.read_byte` returns the byte at `in.offset` and moves the offset by one, changing nothing else; with no byte
left it takes `EndOfInput`. -/
def Obligations.InReadByteReadsAndAdvances : Prop :=
  (∀ (s : State) (b : Byte), s.fault = none → s.inp.offset < s.inp.size →
    s.inp.bytes.read s.inp.offset = some b →
    exec .inReadByte s =
      .next { s with inp := { s.inp with offset := s.inp.offset + 1 }, result := .byte b }) ∧
  (∀ s : State, s.fault = none → s.inp.size ≤ s.inp.offset →
    ∃ t, exec .inReadByte s = .next t ∧ t.fault = some (.endOfInput s.inp.offset))

/-- R131: `in.reserve(n)` returns the next `n` bytes and moves the offset by `n`, changing nothing else (with `n = 0` the
offset stays); with fewer than `n` bytes left it takes `EndOfInput`. -/
def Obligations.InReserveReturnsView : Prop :=
  (∀ (s : State) (n : Nat) (bs : List Byte), s.fault = none → bs.length = n →
    s.inp.offset + n ≤ s.inp.size →
    (∀ k, k < n → s.inp.bytes.read (s.inp.offset + k) = bs[k]?) →
    exec (.inReserve n) s =
      .next { s with inp := { s.inp with offset := s.inp.offset + n }, result := .view bs }) ∧
  (∀ (s : State) (n : Nat), s.fault = none → s.inp.size < s.inp.offset + n →
    ∃ t, exec (.inReserve n) s = .next t ∧ t.fault = some (.endOfInput s.inp.offset))

/-- R132: `in.align4` skips the zero pad bytes up to the next multiple of 4, changing nothing but the offset; a non-zero
pad byte is `CorruptPadding` at its address, and the end of the input before the boundary is `EndOfInput`. -/
def Obligations.InAlign4SkipsZeroPadding : Prop :=
  (∀ (s : State) (k : Nat), s.fault = none → k < 4 → (s.inp.offset + k) % 4 = 0 →
    s.inp.offset + k ≤ s.inp.size →
    (∀ j, j < k → s.inp.bytes.read (s.inp.offset + j) = some 0) →
    exec .inAlign4 s =
      .next { s with inp := { s.inp with offset := s.inp.offset + k }, result := .ok }) ∧
  (∀ (s : State) (k j : Nat) (b : Byte), s.fault = none → k < 4 → (s.inp.offset + k) % 4 = 0 → j < k →
    s.inp.offset + j < s.inp.size →
    (∀ i, i < j → s.inp.bytes.read (s.inp.offset + i) = some 0) →
    s.inp.bytes.read (s.inp.offset + j) = some b → b ≠ 0 →
    ∃ t, exec .inAlign4 s = .next t ∧ t.fault = some (.corruptPadding (s.inp.offset + j))) ∧
  (∀ (s : State) (k j : Nat), s.fault = none → k < 4 → (s.inp.offset + k) % 4 = 0 → j < k →
    s.inp.offset + j = s.inp.size →
    (∀ i, i < j → s.inp.bytes.read (s.inp.offset + i) = some 0) →
    ∃ t, exec .inAlign4 s = .next t ∧ t.fault = some (.endOfInput s.inp.size))

/-! ## The dictionary -/

/-- R140, R9 (decision D23): `dict.init` of a size below `2^W_POS` sets position, limit and historyStart to 0 and the
capacity to its argument; `OUT` holds no value; nothing else changes. A size the register cannot hold is refused. -/
def Obligations.DictInitClears : Prop :=
  (∀ (s : State) (size : Nat), s.fault = none → size < 2 ^ s.wPos →
    ∃ t, exec (.dictInit size) s = .next t ∧ (∀ a, t.dict.out.read a = none) ∧
      t = { s with
            dict := { position := 0, limit := 0, historyStart := 0, bufferSize := size, out := t.dict.out }
            result := .ok }) ∧
  ∀ (s : State) (size : Nat), s.fault = none → 2 ^ s.wPos ≤ size → exec (.dictInit size) s = .refused .sizeTooLarge

/-- R142 (decision D3): `dict.set_limit`, not issued between `rc.init` and `lz.decode` (R332), sets the limit to position +
chunkSize and historyStart to the position when the chunk fits in the buffer, the sum without wrap; otherwise it takes
`OutputOverflow`. -/
def Obligations.DictSetLimitBoundsChunk : Prop :=
  (∀ (s : State) (n : Nat), s.fault = none → s.stage ≠ .ready → s.dict.position + n ≤ s.dict.bufferSize →
    exec (.dictSetLimit n) s = .next { s with
      dict := { s.dict with limit := s.dict.position + n, historyStart := s.dict.position }
      limitSet := true
      result := .ok }) ∧
  (∀ (s : State) (n : Nat), s.fault = none → s.stage ≠ .ready → s.dict.bufferSize < s.dict.position + n →
    ∃ t, exec (.dictSetLimit n) s = .next t ∧ t.fault = some (.outputOverflow s.dict.position n))

/-- R144: `dict.put_literal` writes the byte at the position and moves it by one, every other address of `OUT` and every
other register as before; at the limit it takes `Full`. -/
def Obligations.DictPutLiteralAppends : Prop :=
  (∀ (s : State) (b : Byte), s.fault = none → s.PositionsOrdered → s.dict.position ≠ s.dict.limit →
    ∃ t, exec (.dictPutLiteral b) s = .next t ∧
      t = { s with
            dict := { s.dict with position := s.dict.position + 1, out := t.dict.out }
            result := .ok } ∧
      t.dict.out.read s.dict.position = some b ∧
      ∀ a, a ≠ s.dict.position → t.dict.out.read a = s.dict.out.read a) ∧
  (∀ (s : State) (b : Byte), s.fault = none → s.dict.position = s.dict.limit →
    ∃ t, exec (.dictPutLiteral b) s = .next t ∧ t.fault = some (.full s.dict.position))

/-- R146, R68: `dict.copy_match` writes, byte after byte, the byte `distance` back, also where the copy overlaps itself;
every address outside the copied range and every other register is as before. -/
def Obligations.DictCopyMatchCopies : Prop :=
  ∀ (s : State) (distance length : Nat), s.fault = none → s.PositionsOrdered → s.OutputWritten →
    1 ≤ distance → distance ≤ s.dict.position →
    s.dict.position + length ≤ s.dict.limit →
    ∃ t, exec (.dictCopyMatch distance length) s = .next t ∧ Copied s.dict t.dict distance length ∧
      t = { s with dict := t.dict, result := .ok }

/-- R146 (decision D28): a copy from before the start of the buffer takes `InvalidDistance`, at the limit too; a copy
that reaches the limit with bytes still to copy takes `Full`; a copy of length 0 does nothing, whatever its distance.
-/
def Obligations.DictCopyMatchFaults : Prop :=
  (∀ (s : State) (distance length : Nat), s.fault = none → 1 ≤ length →
    s.dict.position < distance →
    ∃ t, exec (.dictCopyMatch distance length) s = .next t ∧
      t.fault = some (.invalidDistance distance s.dict.position)) ∧
  (∀ (s : State) (distance length : Nat), s.fault = none → s.PositionsOrdered → s.OutputWritten →
    1 ≤ distance → distance ≤ s.dict.position →
    s.dict.limit < s.dict.position + length →
    ∃ t, exec (.dictCopyMatch distance length) s = .next t ∧ t.fault = some (.full s.dict.limit)) ∧
  (∀ (s : State) (distance : Nat), s.fault = none → 1 ≤ distance →
    exec (.dictCopyMatch distance 0) s = .next { s with result := .ok })

/-- R148 (decision D6): `dict.byte_at(d)` returns the byte `d` before the position, `0x00` for an address before the
start of the buffer, and changes nothing. -/
def Obligations.DictByteAtLooksBack : Prop :=
  (∀ (s : State) (d : Nat) (b : Byte), s.fault = none → s.PositionsOrdered → 1 ≤ d →
    d ≤ s.dict.position →
    s.dict.out.read (s.dict.position - d) = some b →
    exec (.dictByteAt d) s = .next { s with result := .byte b }) ∧
  (∀ (s : State) (d : Nat), s.fault = none → s.dict.position < d →
    exec (.dictByteAt d) s = .next { s with result := .byte 0x00 })

/-- R150 (decision D33): `dict.is_complete` returns whether the position is the limit, and the bytes written since the
chunk's start, and changes nothing. -/
def Obligations.DictIsCompleteReports : Prop :=
  ∀ s : State, s.fault = none → s.HistoryBelow →
    exec .dictIsComplete s = .next { s with
      result := .query (decide (s.dict.position = s.dict.limit)) (s.dict.position - s.dict.historyStart) }

/-! ## The range coder -/

/-- R160, R64, R332 (decision D4): `rc.init`, issued after the chunk's `dict.set_limit`, reads five bytes, the first of them 0, loads the other four big-endian into
`code`, and sets `range`, `budget` and `remaining`; nothing else changes. -/
def Obligations.RcInitLoadsCoder : Prop :=
  ∀ (s : State) (c : Count) (b1 b2 b3 b4 : Byte), s.fault = none → s.limitSet = true → 5 ≤ c.toNat →
    s.inp.offset + 5 ≤ s.inp.size →
    s.inp.bytes.read s.inp.offset = some 0 →
    s.inp.bytes.read (s.inp.offset + 1) = some b1 →
    s.inp.bytes.read (s.inp.offset + 2) = some b2 →
    s.inp.bytes.read (s.inp.offset + 3) = some b3 →
    s.inp.bytes.read (s.inp.offset + 4) = some b4 →
    exec (.rcInit c) s =
      .next { s with
        rc := { range := 0xFFFFFFFF, code := b1 ++ b2 ++ b3 ++ b4, remaining := c - 5, budget := c }
        stage := .ready
        inp := { s.inp with offset := s.inp.offset + 5 }
        result := .ok }

/-- R160, R302 (decision D9): the faults of `rc.init` and their order: a payload size below 5, then the end of the
input within the five bytes, then a first byte that is not 0. -/
def Obligations.RcInitFaultsInOrder : Prop :=
  (∀ (s : State) (c : Count), s.fault = none → s.limitSet = true → c.toNat < 5 →
    ∃ t, exec (.rcInit c) s = .next t ∧ t.fault = some (.budgetExhausted c.toNat)) ∧
  (∀ (s : State) (c : Count), s.fault = none → s.limitSet = true → 5 ≤ c.toNat → s.InputPresent →
    s.inp.size < s.inp.offset + 5 →
    ∃ t, exec (.rcInit c) s = .next t ∧ t.fault = some (.endOfInput s.inp.size)) ∧
  (∀ (s : State) (c : Count) (b : Byte), s.fault = none → s.limitSet = true → 5 ≤ c.toNat → s.InputPresent →
    s.inp.offset + 5 ≤ s.inp.size → s.inp.bytes.read s.inp.offset = some b → b ≠ 0 →
    ∃ t, exec (.rcInit c) s = .next t ∧ t.fault = some (.nonZeroHeader b))

/-- R162, R302, R44 (b) (decision D8): with `range` at or above `2^24` `rc.normalize` does nothing; below, it shifts one
input byte in; from a range of at least `2^16` it leaves one of at least `2^24`. A byte needed with the budget spent is
`BudgetExhausted`, whether or not `IN` has bytes left; a byte needed within the budget at the end of `IN` is
`EndOfInput`. -/
def Obligations.RcNormalizeShiftsOneByte : Prop :=
  (∀ s : State, s.Ready → 2 ^ 24 ≤ s.rc.range.toNat →
    exec .rcNormalize s = .next { s with result := .ok }) ∧
  (∀ (s : State) (b : Byte), s.Ready → s.rc.range.toNat < 2 ^ 24 → s.rc.remaining ≠ 0 →
    s.inp.offset < s.inp.size → s.inp.bytes.read s.inp.offset = some b →
    exec .rcNormalize s =
      .next { s with
        rc := { s.rc with
          range := s.rc.range <<< 8
          code := (s.rc.code <<< 8) ||| b.setWidth 32
          remaining := s.rc.remaining - 1 }
        inp := { s.inp with offset := s.inp.offset + 1 }
        result := .ok }) ∧
  (∀ s t : State, s.Ready → 2 ^ 16 ≤ s.rc.range.toNat → exec .rcNormalize s = .next t → t.fault = none →
    2 ^ 24 ≤ t.rc.range.toNat) ∧
  (∀ s : State, s.Ready → s.rc.range.toNat < 2 ^ 24 → s.rc.remaining = 0 →
    ∃ t, exec .rcNormalize s = .next t ∧ t.fault = some (.budgetExhausted s.inp.offset)) ∧
  (∀ s : State, s.Ready → s.rc.range.toNat < 2 ^ 24 → s.rc.remaining ≠ 0 → s.inp.size ≤ s.inp.offset →
    ∃ t, exec .rcNormalize s = .next t ∧ t.fault = some (.endOfInput s.inp.offset))

/-- R163: one decision after normalisation: the bound, the comparison, the new `range`, `code` and cell; every other cell
and everything else as normalisation left it. Its faults are those of normalisation. -/
def Obligations.RcDecodeBitDecides : Prop :=
  (∀ (s u : State) (c : Cell) (f : CoreFault), s.Ready → normalize s = .error (.raised f u) →
    ∃ t, exec (.rcDecodeBit c) s = .next t ∧ t.fault = some f) ∧
  ∀ (s u : State) (c : Cell), s.Ready → normalize s = .ok ((), u) → (u.cell c).toNat ≤ 2047 →
    ∃ t b, exec (.rcDecodeBit c) s = .next t ∧ t.result = .decision b ∧
      (b = false ↔ u.rc.code.toNat < u.rc.range.toNat / 2048 * (u.cell c).toNat) ∧
      (b = false → t.rc = { u.rc with range := BitVec.ofNat 32 (u.rc.range.toNat / 2048 * (u.cell c).toNat) } ∧
        (t.cell c).toNat = (u.cell c).toNat + (2048 - (u.cell c).toNat) / 32) ∧
      (b = true → t.rc = { u.rc with
          range := u.rc.range - BitVec.ofNat 32 (u.rc.range.toNat / 2048 * (u.cell c).toNat)
          code := u.rc.code - BitVec.ofNat 32 (u.rc.range.toNat / 2048 * (u.cell c).toNat) } ∧
        (t.cell c).toNat = (u.cell c).toNat - (u.cell c).toNat / 32) ∧
      (∀ d, d ≠ c → t.cell d = u.cell d) ∧
      t = { u with rc := t.rc, probs := t.probs, result := t.result }

/-- R165: from a range of at least `2^16` and cells in 31..2017, a decision leaves a range of at least `2^16` and every
cell in 31..2017, and keeps `code < range`. -/
def Obligations.DecisionKeepsArithmeticBounds : Prop :=
  ∀ (s t : State) (c : Cell), s.fault = none → 2 ^ 16 ≤ s.rc.range.toNat → s.CellsInRange →
    exec (.rcDecodeBit c) s = .next t → t.fault = none →
    2 ^ 16 ≤ t.rc.range.toNat ∧ t.CellsInRange ∧ (s.rc.code < s.rc.range → t.rc.code < t.rc.range)

/-- R167 (decision D10): `rc.decode_direct(n)` takes `n` direct bits and returns them as a number, first one most
significant; no cell is written. With `n` payload bytes to fetch it completes. One direct bit, after normalisation,
halves the range; it is 1 exactly when `code` is at least the halved range, which it is then reduced by. -/
def Obligations.RcDecodeDirectReadsBits : Prop :=
  (∀ (s : State) (n : Nat), s.Ready →
    (∀ (bs : List Bool) (u : State), bs.length = n → Follows s (bs.map fun b => (none, b)) u →
      exec (.rcDecodeDirect n) s = .next { u with result := .value (msbValue bs) } ∧
      u = { s with rc := u.rc, inp := { s.inp with offset := u.inp.offset } }) ∧
    (s.CanFetch n → ∃ (bs : List Bool) (u : State), bs.length = n ∧ Follows s (bs.map fun b => (none, b)) u ∧
      exec (.rcDecodeDirect n) s = .next { u with result := .value (msbValue bs) })) ∧
  ∀ s u : State, s.Ready → normalize s = .ok ((), u) →
    exec (.rcDecodeDirect 1) s =
      .next (if u.rc.code.toNat < u.rc.range.toNat / 2 then
          { u with rc := { u.rc with range := u.rc.range >>> 1 }, result := .value 0 }
        else
          { u with
            rc := { u.rc with range := u.rc.range >>> 1, code := u.rc.code - (u.rc.range >>> 1) }
            result := .value 1 })

/-- R170 (decision D11): `rc.decode_tree(probs, n)` takes `n` decisions along the tree from index 1 and returns them
as a number, first one most significant. With `n` payload bytes to fetch it completes. In a table of fewer than `2^n`
cells `Probs.cell` of an index outside it is a free value (log entry 27). -/
def Obligations.RcDecodeTreeWalksMsbFirst : Prop :=
  ∀ (s : State) (p : Probs) (n : Nat), s.Ready →
    (∀ (bs : List Bool) (u : State), bs.length = n → Follows s (treePath p 1 bs) u →
      exec (.rcDecodeTree p n) s = .next { u with result := .value (msbValue bs) } ∧ CoderOnly s u) ∧
    (s.CanFetch n → ∃ (bs : List Bool) (u : State), bs.length = n ∧ Follows s (treePath p 1 bs) u ∧
      exec (.rcDecodeTree p n) s = .next { u with result := .value (msbValue bs) })

/-- R171 (decision D11): `rc.decode_reverse_tree(probs, n)` walks the same cells and returns the decisions as a
number, first one least significant. With `n` payload bytes to fetch it completes. In a table of fewer than `2^n` cells
`Probs.cell` of an index outside it is a free value (log entry 27). -/
def Obligations.RcDecodeReverseTreeWalksLsbFirst : Prop :=
  ∀ (s : State) (p : Probs) (n : Nat), s.Ready →
    (∀ (bs : List Bool) (u : State), bs.length = n → Follows s (treePath p 1 bs) u →
      exec (.rcDecodeReverseTree p n) s = .next { u with result := .value (lsbValue bs) } ∧ CoderOnly s u) ∧
    (s.CanFetch n → ∃ (bs : List Bool) (u : State), bs.length = n ∧ Follows s (treePath p 1 bs) u ∧
      exec (.rcDecodeReverseTree p n) s = .next { u with result := .value (lsbValue bs) })

/-- R172 (decision D12): `rc.decode_matched_literal` takes eight decisions, in the upper 512 cells as long as they
equal the match byte's bits and in the plain tree's cells afterwards, and returns them as a byte, most significant
first. With eight payload bytes to fetch it completes. -/
def Obligations.RcDecodeMatchedLiteralFollowsMatchByte : Prop :=
  ∀ (s : State) (c : Fin 8) (mb : Byte), s.Ready →
    (∀ (bs : List Bool) (u : State), bs.length = 8 → Follows s (matchedPath c mb 0 1 true bs) u →
      exec (.rcDecodeMatchedLiteral c mb) s = .next { u with result := .byte (BitVec.ofNat 8 (msbValue bs)) } ∧
      CoderOnly s u) ∧
    (s.CanFetch 8 → ∃ (bs : List Bool) (u : State), bs.length = 8 ∧ Follows s (matchedPath c mb 0 1 true bs) u ∧
      exec (.rcDecodeMatchedLiteral c mb) s = .next { u with result := .byte (BitVec.ofNat 8 (msbValue bs)) })

/-- R175 (decision D4): `rc.is_complete` returns whether `code` is 0, and the bytes consumed since `rc.init`, and
changes nothing. -/
def Obligations.RcIsCompleteReports : Prop :=
  ∀ s : State, s.Ready → s.rc.remaining ≤ s.rc.budget →
    exec .rcIsComplete s = .next { s with
      result := .query (decide (s.rc.code = 0)) (s.rc.budget.toNat - s.rc.remaining.toNat) }

/-! ## The engine -/

/-- R210 (decision D13): the state transition table, row by row. -/
def Obligations.StateTransitionTable : Prop :=
  (List.finRange 12).map (fun s =>
    ((nextState s .lit).val, (nextState s .matchNew).val, (nextState s .longRep).val, (nextState s .shortRep).val)) =
  [(0, 7, 8, 9), (0, 7, 8, 9), (0, 7, 8, 9), (0, 7, 8, 9), (1, 7, 8, 9), (2, 7, 8, 9), (3, 7, 8, 9), (4, 10, 11, 11),
    (5, 10, 11, 11), (6, 10, 11, 11), (4, 10, 11, 11), (5, 10, 11, 11)]

/-- R215, R332 (decision D17): `lz.reset_state`, issued between chunks, sets `lz.state` and the reps to 0 and every cell to
`0x400`; `dict.*`, `OUT`, `in.*` and `rc.*` are untouched. -/
def Obligations.LzResetStateRestoresModel : Prop :=
  ∀ s : State, s.fault = none → s.limitSet = false → s.stage ≠ .ready →
    ∃ t, exec .lzResetState s = .next t ∧ (∀ c, t.cell c = 0x400) ∧
      t = { s with
            lz := { state := 0, rep0 := 0, rep1 := 0, rep2 := 0, rep3 := 0 }
            probs := t.probs
            result := .ok }

/-- R204, R99 (decision D14): LEN.LOW, LEN.MID and LEN.HIGH return 2, 10 and 18 more than the tree of their class, and
change only the range coder, the cells of the tree and `in.offset`; `lz.decode_length` decodes the selector over
`choice` and `choice2` and then is the length code of that class. With a payload byte to fetch for each decision all
four complete. -/
def Obligations.LengthCodesAddTheirBase : Prop :=
  ∀ (s : State) (l : LenCoder) (ps : BitVec 2), s.Ready →
    (∀ (bs : List Bool) (u : State), bs.length = 3 → Follows s (treePath (.lenLow l (posColumn ps)) 1 bs) u →
      exec (.lenLow l ps) s = .next { u with result := .value (2 + msbValue bs) } ∧ CoderOnly s u) ∧
    (∀ (bs : List Bool) (u : State), bs.length = 3 → Follows s (treePath (.lenMid l (posColumn ps)) 1 bs) u →
      exec (.lenMid l ps) s = .next { u with result := .value (10 + msbValue bs) } ∧ CoderOnly s u) ∧
    (∀ (bs : List Bool) (u : State), bs.length = 8 → Follows s (treePath (.lenHigh l) 1 bs) u →
      exec (.lenHigh l) s = .next { u with result := .value (18 + msbValue bs) } ∧ CoderOnly s u) ∧
    (∀ u, Follows s [(some (.lenChoice l), false)] u →
      exec (.lzDecodeLength l ps) s = exec (.lenLow l ps) u) ∧
    (∀ u, Follows s [(some (.lenChoice l), true), (some (.lenChoice2 l), false)] u →
      exec (.lzDecodeLength l ps) s = exec (.lenMid l ps) u) ∧
    (∀ u, Follows s [(some (.lenChoice l), true), (some (.lenChoice2 l), true)] u →
      exec (.lzDecodeLength l ps) s = exec (.lenHigh l) u) ∧
    (s.CanFetch 3 → ∃ t v, exec (.lenLow l ps) s = .next t ∧ t.result = .value v ∧ 2 ≤ v ∧ v ≤ 9) ∧
    (s.CanFetch 3 → ∃ t v, exec (.lenMid l ps) s = .next t ∧ t.result = .value v ∧ 10 ≤ v ∧ v ≤ 17) ∧
    (s.CanFetch 8 → ∃ t v, exec (.lenHigh l) s = .next t ∧ t.result = .value v ∧ 18 ≤ v ∧ v ≤ 273) ∧
    (s.CanFetch 10 → ∃ u v, exec (.lzDecodeLength l ps) s = .next { u with result := .value v } ∧ 2 ≤ v ∧ v ≤ 273 ∧
      CoderOnly s u)

/-- R101, R205 (decision D16): the stored distance of a slot: slots 0..3 are the distance; slots 4..13 add the value
of the slot's own reverse tree below the two high bits; slots 14..63 the direct bits and the align value. Only the
range coder, the cells of the tree and `in.offset` change; with a payload byte to fetch for each decision the codes
complete. -/
def Obligations.DistanceCodesAssembleDistance : Prop :=
  (∀ (s : State) (slot : BitVec 2), s.fault = none →
    exec (.distSlot0To3 slot) s = .next { s with result := .value slot.toNat }) ∧
  (∀ (s : State) (k : Fin 10) (slot : Nat), s.Ready → slot = k.val + 4 →
    (∀ (bs : List Bool) (u : State), bs.length = slot / 2 - 1 → Follows s (treePath (.distSpecial k) 1 bs) u →
      exec (.distSlot4To13 k) s =
        .next { u with result := .value ((2 + slot % 2) * 2 ^ (slot / 2 - 1) + lsbValue bs) } ∧
      CoderOnly s u) ∧
    (s.CanFetch 5 → ∃ t v, exec (.distSlot4To13 k) s = .next t ∧ t.result = .value v ∧
      (2 + slot % 2) * 2 ^ (slot / 2 - 1) ≤ v ∧ v < (3 + slot % 2) * 2 ^ (slot / 2 - 1))) ∧
  (∀ (s : State) (k : Fin 50) (slot : Nat), s.Ready → slot = k.val + 14 →
    (∀ (ds as : List Bool) (u : State), ds.length = slot / 2 - 5 → as.length = 4 →
      Follows s ((ds.map fun b => (none, b)) ++ treePath .posAlign 1 as) u →
      exec (.distSlot14To63 k) s = .next { u with
        result := .value ((2 + slot % 2) * 2 ^ (slot / 2 - 1) + msbValue ds * 16 + lsbValue as) } ∧
      CoderOnly s u) ∧
    (s.CanFetch 30 → ∃ t v, exec (.distSlot14To63 k) s = .next t ∧ t.result = .value v ∧
      (2 + slot % 2) * 2 ^ (slot / 2 - 1) ≤ v ∧ v < (3 + slot % 2) * 2 ^ (slot / 2 - 1)))

/-- R205: `lz.decode_distance(len)` decodes the slot by six decisions over `posSlot[lenSlot]` and then is the distance
code of that slot, `lenSlot` being `min(len - 2, 3)` for a length of at least 2 and, where the spec states no value (log
entry 26), one and the same group for every run of that length; with 36 payload bytes to fetch it completes. -/
def Obligations.LzDecodeDistanceSelectsSlot : Prop :=
  ∀ len : Nat, ∃ group : Fin 4, (2 ≤ len → group.val = min (len - 2) 3) ∧ ∀ s : State, s.Ready →
    (∀ (bs : List Bool) (u : State), bs.length = 6 → Follows s (treePath (.posSlot group) 1 bs) u →
      exec (.lzDecodeDistance len) s = exec (slotInstr (BitVec.ofNat 6 (msbValue bs))) u) ∧
    (s.CanFetch 36 → ∃ u v, exec (.lzDecodeDistance len) s = .next { u with result := .value v } ∧ v < 2 ^ 32 ∧
      CoderOnly s u)

/-- R90, R62: what the range coder decodes is what its decisions spell: if a decoder answered by the range coder ends in a
value, the decisions it took, read as a written string, decode to the same value, on the cells the decoder names in
that order, and no other cell has changed. -/
def Obligations.RangeCoderSpellsDecisions : Prop :=
  ∀ (α : Type) (d : Dec α) (s t : State) (a : α), d.run s = .ok (a, t) →
    ∃ qs : List (Option Cell × Bool), Follows s qs t ∧
      (∀ rest, d.bits (qs.map Prod.snd ++ rest) = some (a, rest)) ∧
      qs.filterMap Prod.fst = d.cells (qs.map Prod.snd) ∧
      ∀ c, c ∉ qs.filterMap Prod.fst → t.cell c = s.cell c

/-- R194 (decisions D6, D13): LIT decodes a byte over subtable `prev_byte >> 5` (plain in states 0..6, matched against
the byte `rep0 + 1` back in states 7..11), appends it and takes the literal transition; the reps and every other byte
of `OUT` are as before. With a payload byte to fetch for each of its eight decisions the byte does decode and LIT
completes. -/
def Obligations.LitAppendsDecodedByte : Prop :=
  (∀ (s u : State) (prev mb b : Byte), s.Ready → s.PositionsOrdered → s.OutputWritten →
    s.dict.position < s.dict.limit → s.LitSamples prev mb → (s.litDecoder prev mb).run s = .ok (b, u) →
    ∃ t, exec .packetLit s = .next t ∧
      t = { u with
            dict := { s.dict with position := s.dict.position + 1, out := t.dict.out }
            lz := { s.lz with state := nextState s.lz.state .lit }
            result := .ok } ∧
      t.dict.out.read s.dict.position = some b ∧
      ∀ a, a ≠ s.dict.position → t.dict.out.read a = s.dict.out.read a) ∧
  ∀ (s : State) (prev mb : Byte), s.Ready → s.PositionsOrdered → s.OutputWritten → s.CanFetch 8 →
    s.dict.position < s.dict.limit → s.LitSamples prev mb →
    ∃ b u t, (s.litDecoder prev mb).run s = .ok (b, u) ∧ exec .packetLit s = .next t ∧ t.fault = none

/-- R196, R193 (decisions D5, D13): MATCH, its length and stored distance decoded from the stream, shifts the distance
into the reps, takes the match transition and copies from one more than the distance back; every byte of `OUT` outside
the copy is as before. With a payload byte to fetch for each of its at most 46 operand decisions the operands do
decode. -/
def Obligations.MatchCopiesFromNewDistance : Prop :=
  (∀ s : State, s.CanFetch 46 → ∃ len u dist v, (lengthTree .matchLen s.posState).run s = .ok (len, u) ∧
    (distanceTree len).run u = .ok (dist, v) ∧ 2 ≤ len ∧ len ≤ 273) ∧
  ∀ (s u v : State) (len : Nat) (dist : Word), s.Ready → s.PositionsOrdered → s.OutputWritten →
    (lengthTree .matchLen s.posState).run s = .ok (len, u) → (distanceTree len).run u = .ok (dist, v) →
    dist ≠ 0xFFFFFFFF → dist.toNat + 1 ≤ s.dict.position →
    s.dict.position + len ≤ s.dict.limit →
    ∃ t, exec .packetMatch s = .next t ∧ Copied s.dict t.dict (dist.toNat + 1) len ∧
      t = { v with
            dict := t.dict
            lz := { state := nextState s.lz.state .matchNew, rep0 := dist, rep1 := s.lz.rep0, rep2 := s.lz.rep1,
                    rep3 := s.lz.rep2 }
            result := .ok }

/-- R198, R193, R210 (decisions D5, D13): SHORTREP copies one byte from `rep0 + 1` back and takes the short-rep transition;
the reps, the range coder and every other byte of `OUT` are as before. With room below the limit, where `rep0 + 1` is above
the position it takes `InvalidDistance`. -/
def Obligations.ShortRepCopiesOneByte : Prop :=
  (∀ s : State, s.fault = none → s.dict.position ≠ s.dict.limit → s.dict.position < s.lz.rep0.toNat + 1 →
    ∃ t, exec .packetShortRep s = .next t ∧
      t.fault = some (.invalidDistance (s.lz.rep0.toNat + 1) s.dict.position)) ∧
  ∀ s : State, s.fault = none → s.PositionsOrdered → s.OutputWritten →
    s.lz.rep0.toNat + 1 ≤ s.dict.position → s.dict.position < s.dict.limit →
    ∃ t, exec .packetShortRep s = .next t ∧ Copied s.dict t.dict (s.lz.rep0.toNat + 1) 1 ∧
      t = { s with
            dict := t.dict
            lz := { s.lz with state := nextState s.lz.state .shortRep }
            result := .ok }

/-- R199 to R203 (decisions D5, D13, D15): LONGREP0..3, the length decoded over `repLen`, moves the chosen rep to the
front, shifts the ones before it down by one, keeps the ones after it, takes the long-rep transition and copies from
one more than the chosen rep back; every byte of `OUT` outside the copy is as before. With a payload byte to fetch for
each of its at most 10 operand decisions the length does decode. -/
def Obligations.LongRepCopiesFromChosenRep : Prop :=
  (∀ s : State, s.CanFetch 10 → ∃ len u, (lengthTree .repLen s.posState).run s = .ok (len, u) ∧ 2 ≤ len ∧ len ≤ 273) ∧
  ∀ (s u : State) (len : Nat), s.Ready → s.PositionsOrdered → s.OutputWritten →
    (lengthTree .repLen s.posState).run s = .ok (len, u) → s.dict.position + len ≤ s.dict.limit →
    (s.lz.rep0.toNat + 1 ≤ s.dict.position →
      ∃ t, exec .packetLongRep0 s = .next t ∧ Copied s.dict t.dict (s.lz.rep0.toNat + 1) len ∧
        t = { u with
              dict := t.dict
              lz := { s.lz with state := nextState s.lz.state .longRep }
              result := .ok }) ∧
    (s.lz.rep1.toNat + 1 ≤ s.dict.position →
      ∃ t, exec .packetLongRep1 s = .next t ∧ Copied s.dict t.dict (s.lz.rep1.toNat + 1) len ∧
        t = { u with
              dict := t.dict
              lz := { s.lz with
                state := nextState s.lz.state .longRep, rep0 := s.lz.rep1, rep1 := s.lz.rep0 }
              result := .ok }) ∧
    (s.lz.rep2.toNat + 1 ≤ s.dict.position →
      ∃ t, exec .packetLongRep2 s = .next t ∧ Copied s.dict t.dict (s.lz.rep2.toNat + 1) len ∧
        t = { u with
              dict := t.dict
              lz := { s.lz with
                state := nextState s.lz.state .longRep, rep0 := s.lz.rep2, rep1 := s.lz.rep0, rep2 := s.lz.rep1 }
              result := .ok }) ∧
    (s.lz.rep3.toNat + 1 ≤ s.dict.position →
      ∃ t, exec .packetLongRep3 s = .next t ∧ Copied s.dict t.dict (s.lz.rep3.toNat + 1) len ∧
        t = { u with
              dict := t.dict
              lz := { state := nextState s.lz.state .longRep, rep0 := s.lz.rep3, rep1 := s.lz.rep0,
                      rep2 := s.lz.rep1, rep3 := s.lz.rep2 }
              result := .ok })

/-- R292: a packet takes no fault but these: the range coder's two, `EndMarker` for MATCH only, `InvalidDistance` for every
packet but LIT, and `Full`, for LIT and SHORTREP only when the position already is the limit. An upper bound: SHORTREP
has no operand to decode (log entry 5). -/
def Obligations.PacketFaultKinds : Prop :=
  ∀ (s t : State) (f : CoreFault), s.fault = none → t.fault = some f →
    let coder := (∃ n, f = .budgetExhausted n) ∨ ∃ n, f = .endOfInput n
    (exec .packetLit s = .next t → coder ∨ (s.dict.position = s.dict.limit ∧ ∃ n, f = .full n)) ∧
    (exec .packetMatch s = .next t →
      coder ∨ (∃ n, f = .endMarker n) ∨ (∃ d p, f = .invalidDistance d p) ∨ ∃ n, f = .full n) ∧
    (exec .packetShortRep s = .next t →
      coder ∨ (∃ d p, f = .invalidDistance d p) ∨ (s.dict.position = s.dict.limit ∧ ∃ n, f = .full n)) ∧
    (exec .packetLongRep0 s = .next t ∨ exec .packetLongRep1 s = .next t ∨ exec .packetLongRep2 s = .next t ∨
      exec .packetLongRep3 s = .next t →
      coder ∨ (∃ d p, f = .invalidDistance d p) ∨ ∃ n, f = .full n)

/-- R190, R196, R199 to R202, R146, R292 (decisions D5, D24): a packet that begins at the limit takes `Full` whatever its
type, once its operands are decoded (for the packet instructions by inference, log entry 25). Elsewhere a MATCH of stored
distance `0xFFFFFFFF` takes `EndMarker`; a MATCH or a LONGREP0..3 from before the start of the buffer takes
`InvalidDistance`; one longer than the room below the limit takes `Full`, at the limit. -/
def Obligations.PacketFaultConditions : Prop :=
  (∀ (s u v : State) (len : Nat) (dist : Word), s.Ready → s.PositionsOrdered → s.OutputWritten →
    (lengthTree .matchLen s.posState).run s = .ok (len, u) → (distanceTree len).run u = .ok (dist, v) →
    (s.dict.position = s.dict.limit → ∃ t, exec .packetMatch s = .next t ∧ t.fault = some (.full s.dict.position)) ∧
    (s.dict.position ≠ s.dict.limit → dist = 0xFFFFFFFF →
      ∃ t, exec .packetMatch s = .next t ∧ t.fault = some (.endMarker v.inp.offset)) ∧
    (s.dict.position ≠ s.dict.limit → dist ≠ 0xFFFFFFFF → s.dict.position < dist.toNat + 1 →
      ∃ t, exec .packetMatch s = .next t ∧
        t.fault = some (.invalidDistance (dist.toNat + 1) s.dict.position)) ∧
    (s.dict.position ≠ s.dict.limit → dist ≠ 0xFFFFFFFF → dist.toNat + 1 ≤ s.dict.position →
      s.dict.limit < s.dict.position + len →
      ∃ t, exec .packetMatch s = .next t ∧ t.fault = some (.full s.dict.limit))) ∧
  (∀ (s u : State) (len : Nat) (i : Instr) (rep : Word), s.Ready → s.PositionsOrdered → s.OutputWritten →
    (lengthTree .repLen s.posState).run s = .ok (len, u) →
    (i, rep) ∈ [(Instr.packetLongRep0, s.lz.rep0), (.packetLongRep1, s.lz.rep1), (.packetLongRep2, s.lz.rep2),
      (.packetLongRep3, s.lz.rep3)] →
    (s.dict.position = s.dict.limit → ∃ t, exec i s = .next t ∧ t.fault = some (.full s.dict.position)) ∧
    (s.dict.position ≠ s.dict.limit → s.dict.position < rep.toNat + 1 →
      ∃ t, exec i s = .next t ∧ t.fault = some (.invalidDistance (rep.toNat + 1) s.dict.position)) ∧
    (s.dict.position ≠ s.dict.limit → rep.toNat + 1 ≤ s.dict.position → s.dict.limit < s.dict.position + len →
      ∃ t, exec i s = .next t ∧ t.fault = some (.full s.dict.limit))) ∧
  (∀ (s u : State) (prev mb b : Byte), s.Ready → s.PositionsOrdered → s.OutputWritten → s.LitSamples prev mb →
    (s.litDecoder prev mb).run s = .ok (b, u) → s.dict.position = s.dict.limit →
    ∃ t, exec .packetLit s = .next t ∧ t.fault = some (.full s.dict.position)) ∧
  ∀ s : State, s.fault = none → s.dict.position = s.dict.limit →
    ∃ t, exec .packetShortRep s = .next t ∧ t.fault = some (.full s.dict.position)

/-- R190, R192, R304 (decisions D7, D24): `lz.decode` is one packet and then, below the limit, `lz.decode` again; at the
limit, one normalisation ends it, and another `lz.decode` needs another `dict.set_limit` and `rc.init`. A fault raised by
a packet, or by the final normalisation, is the fault `lz.decode` takes. -/
def Obligations.LzDecodeRunsPackets : Prop :=
  ∀ s : State, s.fault = none → s.stage = .ready → s.limitSet = true →
    (∀ u, onePacket s = .ok ((), u) → u.dict.position < u.dict.limit → exec .lzDecode s = exec .lzDecode u) ∧
    (∀ u v, onePacket s = .ok ((), u) → u.dict.limit ≤ u.dict.position → normalize u = .ok ((), v) →
      exec .lzDecode s = .next { v with stage := .decoded, limitSet := false, result := .ok }) ∧
    (∀ f u, onePacket s = .error (.raised f u) → ∃ t, exec .lzDecode s = .next t ∧ t.fault = some f) ∧
    (∀ f u v, onePacket s = .ok ((), u) → u.dict.limit ≤ u.dict.position → normalize u = .error (.raised f v) →
      ∃ t, exec .lzDecode s = .next t ∧ t.fault = some f)

/-- R97, R190, R191 (decision D14): one packet of the loop decodes a type code, row by row over the cells `isMatch[s][ps]`,
`isRep[s]`, `isRepG0[s]`, `isRep0Long[s][ps]`, `isRepG1[s]`, `isRepG2[s]` of `s = lz.state` and `ps = position & 3` (`typeCodes`), and
then runs the packet's instruction on the state the code left; a fault the instruction takes, or one raised by a decision
of the code, is the packet's. With five payload bytes to fetch a type code does decode. -/
def Obligations.PacketLoopRunsDecodedPacket : Prop :=
  ∀ (s : State) (ps : Fin 16), s.Ready → ps.val = s.dict.position % 4 →
    (∀ (i : Instr) (code : List (Option Cell × Bool)) (u : State), (i, code) ∈ typeCodes s.lz.state ps →
      Follows s code u →
      (∀ v, onePacket s = .ok ((), v) → exec i u = .next { v with result := .ok }) ∧
      (∀ t, exec i u = .next t → t.fault = none → ∃ v, onePacket s = .ok ((), v)) ∧
      (∀ t f, exec i u = .next t → t.fault = some f → ∃ v, onePacket s = .error (.raised f v))) ∧
    (∀ (i : Instr) (before after : List (Option Cell × Bool)) (c : Cell) (b : Bool) (u v : State) (f : CoreFault),
      (i, before ++ (some c, b) :: after) ∈ typeCodes s.lz.state ps → Follows s before u →
      decodeBit c u = .error (.raised f v) → onePacket s = .error (.raised f v)) ∧
    (s.CanFetch 5 → ∃ i code u, (i, code) ∈ typeCodes s.lz.state ps ∧ Follows s code u)

/-- R190, R47: when `lz.decode` returns ok the position is the limit, which has not moved; it has written only `OUT` from
the old position up to the limit, the range coder, the engine, cells, the position and `in.offset`. -/
def Obligations.LzDecodeEndsAtLimit : Prop :=
  ∀ s t : State, s.PositionsOrdered → exec .lzDecode s = .next t → t.fault = none →
    t.dict.position = s.dict.limit ∧
    t = { s with
          rc := { t.rc with budget := s.rc.budget }
          lz := t.lz
          probs := t.probs
          dict := { s.dict with position := t.dict.position, out := t.dict.out }
          inp := { s.inp with offset := t.inp.offset }
          stage := .decoded
          limitSet := false
          result := .ok } ∧
    ∀ a, (a < s.dict.position ∨ s.dict.limit ≤ a) → t.dict.out.read a = s.dict.out.read a

/-- R190, R194, R244, R246 (decisions D7, D17): completion from the state alone. A payload of zeros codes zero
decisions: with fresh cells and a state below 7 `lz.decode` decodes the byte 0, and a chunk of one byte whose six
payload bytes are zeros completes (CHUNK.LZMA.NONE where the cells are fresh and the state is below 4; STATE and FULL
make them so). -/
def Obligations.ZeroPayloadDecodesZeroByte : Prop :=
  (∀ s : State, s.fault = none → s.stage = .ready → s.limitSet = true → s.PositionsOrdered → s.OutputWritten →
    s.dict.position + 1 = s.dict.limit → (∀ c, s.cell c = 0x400) → s.lz.state.val < 7 →
    s.rc.range = 0xFFFFFFFF → s.rc.code = 0 → s.rc.remaining ≠ 0 → s.inp.offset < s.inp.size →
    s.inp.bytes.read s.inp.offset = some 0 →
    ∃ t, exec .lzDecode s = .next t ∧ t.fault = none ∧ t.dict.position = s.dict.position + 1 ∧
      t.dict.out.read s.dict.position = some 0 ∧ t.rc.code = 0 ∧
      t.rc.remaining = s.rc.remaining - 1 ∧ t.inp.offset = s.inp.offset + 1 ∧
      t.lz = { s.lz with state := nextState s.lz.state .lit }) ∧
  ∀ (s : State) (i : Instr), s.fault = none → s.mode = .decode → s.stage ≠ .ready → s.limitSet = false →
    s.PositionsOrdered → s.OutputWritten →
    s.dict.position < s.dict.bufferSize → s.inp.offset + 6 ≤ s.inp.size →
    (∀ k, k < 6 → s.inp.bytes.read (s.inp.offset + k) = some 0) →
    (i = .chunkLzmaNone 0 5 ∧ (∀ c, s.cell c = 0x400) ∧ s.lz.state.val < 4) ∨ i = .chunkLzmaState 0 5 ∨
      i = .chunkLzmaFull 0 5 0x5D →
    ∃ t, exec i s = .next t ∧ t.fault = none ∧ t.dict.position = s.dict.position + 1 ∧
      t.dict.limit = t.dict.position ∧ t.dict.historyStart = s.dict.position ∧
      t.dict.out.read s.dict.position = some 0 ∧
      (∀ a, a ≠ s.dict.position → t.dict.out.read a = s.dict.out.read a) ∧
      t.rc.code = 0 ∧ t.rc.remaining = 0 ∧ t.rc.budget = 6 ∧ t.inp.offset = s.inp.offset + 6 ∧
      t.lz.state = 0

/-! ## Chunk commands -/

/-- R241: CHUNK.END returns success with the decompressed length; no CORE register changes. The step that fetches it
leaves `in.offset` just after the `0x00`. -/
def Obligations.ChunkEndReturnsSuccess : Prop :=
  (∀ s : State, s.fault = none → s.mode = .decode →
    exec .chunkEnd s = .next { s with loop := .returned, result := .finished s.dict.position }) ∧
  ∀ s : State, s.issued = [] → s.fault = none → s.loop = .running → s.mode = .decode →
    s.inp.offset < s.inp.size → s.inp.bytes.read s.inp.offset = some 0x00 →
    step s =
      .next { s with
        inp := { s.inp with offset := s.inp.offset + 1 }
        loop := .returned
        result := .finished s.dict.position }

/-- R242, R243, R244, R245 (decisions D19, D34): the rejected control bytes take their fault in either mode, with the
control byte recorded; a property byte other than `0x5D` takes `BadProperties`, in either mode. -/
def Obligations.RejectedChunksFault : Prop :=
  (∀ (i : Instr) (control : Byte) (s : State), s.fault = none → encode i = .bytes [control] → control ≠ 0 →
    ∃ t, exec i s = .next t ∧ t.fault = some (.unsupportedChunk control)) ∧
  (∀ (u : BitVec 21) (c : BitVec 16) (control i0 i1 i2 i3 : Byte) (s : State), s.fault = none →
    encode (.chunkLzmaProps u c) = .bytes [control, i0, i1, i2, i3] →
    ∃ t, exec (.chunkLzmaProps u c) s = .next t ∧ t.fault = some (.unsupportedReset control)) ∧
  (∀ (s : State) (u : BitVec 21) (c : BitVec 16) (props : Byte), s.fault = none → props ≠ 0x5D →
    ∃ t, exec (.chunkLzmaFull u c props) s = .next t ∧ t.fault = some (.badProperties props))

/-- R244, R246, R247, R302 (decisions D9, D17, D18): an accepted chunk in decode mode, between chunks (R332), issues
`lz.reset_state` (STATE and FULL), `dict.set_limit` and `rc.init`, then `lz.decode`, and takes the first fault on that way: `OutputOverflow`; then, of
`rc.init`, `BudgetExhausted` for a payload below five bytes, `EndOfInput`, `NonZeroHeader`; then a fault of `lz.decode`.
It completes when the payload was consumed exactly with `code = 0`, and takes `ChunkCompressedMismatch` otherwise. -/
def Obligations.LzmaChunkDecodes : Prop :=
  ∀ (s : State) (u : BitVec 21) (c : BitVec 16) (reset : Bool) (i : Instr), s.fault = none → s.mode = .decode →
    s.stage ≠ .ready → (reset = true → s.limitSet = false) → s.PositionsOrdered → (reset = false ∧ i = .chunkLzmaNone u c) ∨ (reset = true ∧ i = .chunkLzmaState u c) ∨
      (reset = true ∧ i = .chunkLzmaFull u c 0x5D) →
    (s.dict.bufferSize < s.dict.position + uncompressedSize u →
      ∃ t, exec i s = .next t ∧ t.fault = some (.outputOverflow s.dict.position (uncompressedSize u))) ∧
    (s.dict.position + uncompressedSize u ≤ s.dict.bufferSize →
      (compressedSize c < 5 → ∃ t, exec i s = .next t ∧ t.fault = some (.budgetExhausted (compressedSize c))) ∧
      (5 ≤ compressedSize c → s.InputPresent → s.inp.size < s.inp.offset + 5 →
        ∃ t, exec i s = .next t ∧ t.fault = some (.endOfInput s.inp.size)) ∧
      (∀ b, 5 ≤ compressedSize c → s.InputPresent → s.inp.offset + 5 ≤ s.inp.size →
        s.inp.bytes.read s.inp.offset = some b → b ≠ 0 →
        ∃ t, exec i s = .next t ∧ t.fault = some (.nonZeroHeader b)) ∧
      ∀ (v : State) (b1 b2 b3 b4 : Byte), 5 ≤ compressedSize c → s.inp.offset + 5 ≤ s.inp.size →
        s.inp.bytes.read s.inp.offset = some 0 →
        s.inp.bytes.read (s.inp.offset + 1) = some b1 →
        s.inp.bytes.read (s.inp.offset + 2) = some b2 →
        s.inp.bytes.read (s.inp.offset + 3) = some b3 →
        s.inp.bytes.read (s.inp.offset + 4) = some b4 →
        v = { s with
          lz := if reset then Engine.initial else s.lz
          probs := if reset then [] else s.probs
          dict := { s.dict with
            limit := s.dict.position + uncompressedSize u
            historyStart := s.dict.position }
          rc := { range := 0xFFFFFFFF, code := b1 ++ b2 ++ b3 ++ b4,
                  remaining := BitVec.ofNat 17 (compressedSize c - 5), budget := BitVec.ofNat 17 (compressedSize c) }
          stage := .ready
          limitSet := true
          inp := { s.inp with offset := s.inp.offset + 5 } } →
        (∀ f w, lzDecode v = .error (.raised f w) → ∃ t, exec i s = .next t ∧ t.fault = some f) ∧
        ∀ w, lzDecode v = .ok ((), w) →
          (w.rc.code = 0 → w.rc.remaining = 0 → exec i s = .next { w with result := .ok }) ∧
          (¬(w.rc.code = 0 ∧ w.rc.remaining = 0) →
            ∃ t, exec i s = .next t ∧
              t.fault = some (.chunkCompressedMismatch (compressedSize c - w.rc.remaining.toNat) w.rc.code)))

/-- R250 (decision D32): in size-query mode an accepted chunk skips its payload and adds its size to the tally, and
uses nothing of the CORE; a payload longer than the input takes `EndOfInput`; CHUNK.END returns the tally. -/
def Obligations.LzmaChunkSizeQuery : Prop :=
  (∀ (s : State) (u : BitVec 21) (c : BitVec 16) (i : Instr), s.fault = none → s.mode = .sizeQuery →
    s.InputPresent → (i = .chunkLzmaNone u c ∨ i = .chunkLzmaState u c ∨ i = .chunkLzmaFull u c 0x5D) →
    (s.inp.offset + compressedSize c ≤ s.inp.size →
      exec i s = .next { s with
        inp := { s.inp with offset := s.inp.offset + compressedSize c }
        tally := s.tally + uncompressedSize u
        result := .ok }) ∧
    (s.inp.size < s.inp.offset + compressedSize c →
      ∃ t, exec i s = .next t ∧ t.fault = some (.endOfInput s.inp.offset))) ∧
  ∀ s : State, s.fault = none → s.mode = .sizeQuery →
    exec .chunkEnd s = .next { s with loop := .returned, result := .finished s.tally }

/-- R246: the second test of the completion check can never fail: no instruction takes `ChunkUncompressedMismatch`. -/
def Obligations.UncompressedMismatchUnreachable : Prop :=
  ∀ (i : Instr) (s t : State) (n : Nat), s.fault = none → s.PositionsOrdered → exec i s = .next t →
    t.fault ≠ some (.chunkUncompressedMismatch n)

/-! ## The whole machine -/

/-- R9, R39, R44, R45, R60, R165: every step keeps the invariant: canonical memories, registers within
`W_POS` bits, ordered positions, `historyStart` at or below the position, `OUT` written exactly below it, cells in
31..2017, the input present, the coder in range. -/
def Obligations.StepKeepsInvariant : Prop :=
  ∀ s t : State, s.Inv → step s = .next t → t.Inv

/-- R46, R44: the invariant holds at reset. -/
def Obligations.ResetMeetsInvariant : Prop := State.reset.Inv

/-- R45, R61: from a state that meets the invariant no step reads or writes an address that does not exist or holds no
value. -/
def Obligations.StepNeverTraps : Prop := ∀ s : State, s.Inv → NoTrap (step s)

/-- R44 (f): every instruction but `dict.init` keeps the match byte inside the written output. -/
def Obligations.MatchByteStaysInside : Prop :=
  ∀ (i : Instr) (s t : State), s.MatchByteInside → (∀ size, i ≠ .dictInit size) → exec i s = .next t →
    t.MatchByteInside

/-- R35, R42, R60, R61, R331, R9: no instruction but `construct` and `dict.init` moves the position or `in.offset` back,
rewrites a byte of `OUT` below the position, or changes `IN`, the capacity or `W_POS`. -/
def Obligations.OutputIsAppendOnly : Prop :=
  ∀ (i : Instr) (s t : State), (∀ input params, i ≠ .construct input params) →
    (∀ size, i ≠ .dictInit size) → exec i s = .next t → t.fault = none →
    s.dict.position ≤ t.dict.position ∧ s.inp.offset ≤ t.inp.offset ∧ t.inp.bytes = s.inp.bytes ∧
    t.inp.size = s.inp.size ∧ t.dict.bufferSize = s.dict.bufferSize ∧ t.wPos = s.wPos ∧
    ∀ a, a < s.dict.position → t.dict.out.read a = s.dict.out.read a

/-- R250 (decision D32: "`uncompressed_size_query(input) == len(output_of_decode(input))`"), one step of the
chunk loop: where decoding goes on without a fault, so does the size query over the same input, its tally equal to the
length decoded so far, and both return together with the same length. The premises hold again after the step, so steps
chain. -/
def Obligations.SizeQueryFollowsDecode : Prop :=
  ∀ s q s' : State, s.fault = none → q.fault = none → s.mode = .decode → q.mode = .sizeQuery → s.inp = q.inp →
    s.InputPresent → s.PositionsOrdered → s.issued = [] → q.issued = [] → s.loop = q.loop →
    q.tally = s.dict.position → step s = .next s' → s'.fault = none →
    ∃ q', step q = .next q' ∧ q'.fault = none ∧ s'.mode = .decode ∧ q'.mode = .sizeQuery ∧ s'.inp = q'.inp ∧
      s'.InputPresent ∧ s'.PositionsOrdered ∧ s'.issued = [] ∧ q'.issued = [] ∧ s'.loop = q'.loop ∧
      q'.tally = s'.dict.position ∧ (s'.loop = .returned → q'.result = s'.result)
end

