-- ==== Sys2Proof/Laws/State.lean ====
section
/-! SUPPORT. One lemma per field per named update of the state, true by unfolding, so that no later proof unfolds a
record update. -/

namespace Sys2Proof.Machine

variable (s : State)

@[simp] theorem State.setCell_rc (c : Cell) (v : Prob) : (s.setCell c v).rc = s.rc := rfl
@[simp] theorem State.setCell_lz (c : Cell) (v : Prob) : (s.setCell c v).lz = s.lz := rfl
@[simp] theorem State.setCell_probs (c : Cell) (v : Prob) : (s.setCell c v).probs =
    s.probs.set c.index v := rfl
@[simp] theorem State.setCell_dict (c : Cell) (v : Prob) : (s.setCell c v).dict = s.dict := rfl
@[simp] theorem State.setCell_inp (c : Cell) (v : Prob) : (s.setCell c v).inp = s.inp := rfl
@[simp] theorem State.setCell_fault (c : Cell) (v : Prob) : (s.setCell c v).fault = s.fault := rfl
@[simp] theorem State.setCell_stage (c : Cell) (v : Prob) : (s.setCell c v).stage = s.stage := rfl
@[simp] theorem State.setCell_mode (c : Cell) (v : Prob) : (s.setCell c v).mode = s.mode := rfl
@[simp] theorem State.setCell_tally (c : Cell) (v : Prob) : (s.setCell c v).tally = s.tally := rfl
@[simp] theorem State.setCell_loop (c : Cell) (v : Prob) : (s.setCell c v).loop = s.loop := rfl
@[simp] theorem State.setCell_issued (c : Cell) (v : Prob) : (s.setCell c v).issued = s.issued := rfl
@[simp] theorem State.setCell_result (c : Cell) (v : Prob) : (s.setCell c v).result = s.result := rfl
@[simp] theorem State.setCell_draws (c : Cell) (v : Prob) : (s.setCell c v).draws = s.draws := rfl
@[simp] theorem State.setCell_wPos (c : Cell) (v : Prob) : (s.setCell c v).wPos = s.wPos := rfl
@[simp] theorem State.setCell_limitSet (c : Cell) (v : Prob) : (s.setCell c v).limitSet = s.limitSet := rfl

@[simp] theorem State.advance_rc (n : Nat) : (s.advance n).rc = s.rc := rfl
@[simp] theorem State.advance_lz (n : Nat) : (s.advance n).lz = s.lz := rfl
@[simp] theorem State.advance_probs (n : Nat) : (s.advance n).probs = s.probs := rfl
@[simp] theorem State.advance_dict (n : Nat) : (s.advance n).dict = s.dict := rfl
@[simp] theorem State.advance_inp (n : Nat) : (s.advance n).inp =
    { s.inp with offset := s.inp.offset + n } := rfl
@[simp] theorem State.advance_fault (n : Nat) : (s.advance n).fault = s.fault := rfl
@[simp] theorem State.advance_stage (n : Nat) : (s.advance n).stage = s.stage := rfl
@[simp] theorem State.advance_mode (n : Nat) : (s.advance n).mode = s.mode := rfl
@[simp] theorem State.advance_tally (n : Nat) : (s.advance n).tally = s.tally := rfl
@[simp] theorem State.advance_loop (n : Nat) : (s.advance n).loop = s.loop := rfl
@[simp] theorem State.advance_issued (n : Nat) : (s.advance n).issued = s.issued := rfl
@[simp] theorem State.advance_result (n : Nat) : (s.advance n).result = s.result := rfl
@[simp] theorem State.advance_draws (n : Nat) : (s.advance n).draws = s.draws := rfl
@[simp] theorem State.advance_wPos (n : Nat) : (s.advance n).wPos = s.wPos := rfl
@[simp] theorem State.advance_limitSet (n : Nat) : (s.advance n).limitSet = s.limitSet := rfl

@[simp] theorem State.setCoder_rc (range code : Word) : (s.setCoder range code).rc =
    { s.rc with range := range, code := code } := rfl
@[simp] theorem State.setCoder_lz (range code : Word) : (s.setCoder range code).lz = s.lz := rfl
@[simp] theorem State.setCoder_probs (range code : Word) : (s.setCoder range code).probs = s.probs := rfl
@[simp] theorem State.setCoder_dict (range code : Word) : (s.setCoder range code).dict = s.dict := rfl
@[simp] theorem State.setCoder_inp (range code : Word) : (s.setCoder range code).inp = s.inp := rfl
@[simp] theorem State.setCoder_fault (range code : Word) : (s.setCoder range code).fault = s.fault := rfl
@[simp] theorem State.setCoder_stage (range code : Word) : (s.setCoder range code).stage = s.stage := rfl
@[simp] theorem State.setCoder_mode (range code : Word) : (s.setCoder range code).mode = s.mode := rfl
@[simp] theorem State.setCoder_tally (range code : Word) : (s.setCoder range code).tally = s.tally := rfl
@[simp] theorem State.setCoder_loop (range code : Word) : (s.setCoder range code).loop = s.loop := rfl
@[simp] theorem State.setCoder_issued (range code : Word) : (s.setCoder range code).issued = s.issued := rfl
@[simp] theorem State.setCoder_result (range code : Word) : (s.setCoder range code).result = s.result := rfl
@[simp] theorem State.setCoder_draws (range code : Word) : (s.setCoder range code).draws = s.draws := rfl
@[simp] theorem State.setCoder_wPos (range code : Word) : (s.setCoder range code).wPos = s.wPos := rfl
@[simp] theorem State.setCoder_limitSet (range code : Word) : (s.setCoder range code).limitSet = s.limitSet := rfl

@[simp] theorem State.shiftIn_rc (b : Byte) : (s.shiftIn b).rc =
    { s.rc with
      range := s.rc.range <<< 8, code := (s.rc.code <<< 8) ||| b.setWidth 32, remaining := s.rc.remaining - 1 } := rfl
@[simp] theorem State.shiftIn_lz (b : Byte) : (s.shiftIn b).lz = s.lz := rfl
@[simp] theorem State.shiftIn_probs (b : Byte) : (s.shiftIn b).probs = s.probs := rfl
@[simp] theorem State.shiftIn_dict (b : Byte) : (s.shiftIn b).dict = s.dict := rfl
@[simp] theorem State.shiftIn_inp (b : Byte) : (s.shiftIn b).inp = s.inp := rfl
@[simp] theorem State.shiftIn_fault (b : Byte) : (s.shiftIn b).fault = s.fault := rfl
@[simp] theorem State.shiftIn_stage (b : Byte) : (s.shiftIn b).stage = s.stage := rfl
@[simp] theorem State.shiftIn_mode (b : Byte) : (s.shiftIn b).mode = s.mode := rfl
@[simp] theorem State.shiftIn_tally (b : Byte) : (s.shiftIn b).tally = s.tally := rfl
@[simp] theorem State.shiftIn_loop (b : Byte) : (s.shiftIn b).loop = s.loop := rfl
@[simp] theorem State.shiftIn_issued (b : Byte) : (s.shiftIn b).issued = s.issued := rfl
@[simp] theorem State.shiftIn_result (b : Byte) : (s.shiftIn b).result = s.result := rfl
@[simp] theorem State.shiftIn_draws (b : Byte) : (s.shiftIn b).draws = s.draws := rfl
@[simp] theorem State.shiftIn_wPos (b : Byte) : (s.shiftIn b).wPos = s.wPos := rfl
@[simp] theorem State.shiftIn_limitSet (b : Byte) : (s.shiftIn b).limitSet = s.limitSet := rfl

@[simp] theorem State.loadCoder_rc (code : Word) (n : Nat) : (s.loadCoder code n).rc =
    { range := 0xFFFFFFFF, code := code, remaining := BitVec.ofNat 17 (n - Config.rcInitBytes),
        budget := BitVec.ofNat 17 n } := rfl
@[simp] theorem State.loadCoder_lz (code : Word) (n : Nat) : (s.loadCoder code n).lz = s.lz := rfl
@[simp] theorem State.loadCoder_probs (code : Word) (n : Nat) : (s.loadCoder code n).probs = s.probs := rfl
@[simp] theorem State.loadCoder_dict (code : Word) (n : Nat) : (s.loadCoder code n).dict = s.dict := rfl
@[simp] theorem State.loadCoder_inp (code : Word) (n : Nat) : (s.loadCoder code n).inp = s.inp := rfl
@[simp] theorem State.loadCoder_fault (code : Word) (n : Nat) : (s.loadCoder code n).fault = s.fault := rfl
@[simp] theorem State.loadCoder_stage (code : Word) (n : Nat) : (s.loadCoder code n).stage =
    .ready := rfl
@[simp] theorem State.loadCoder_mode (code : Word) (n : Nat) : (s.loadCoder code n).mode = s.mode := rfl
@[simp] theorem State.loadCoder_tally (code : Word) (n : Nat) : (s.loadCoder code n).tally = s.tally := rfl
@[simp] theorem State.loadCoder_loop (code : Word) (n : Nat) : (s.loadCoder code n).loop = s.loop := rfl
@[simp] theorem State.loadCoder_issued (code : Word) (n : Nat) : (s.loadCoder code n).issued = s.issued := rfl
@[simp] theorem State.loadCoder_result (code : Word) (n : Nat) : (s.loadCoder code n).result = s.result := rfl
@[simp] theorem State.loadCoder_draws (code : Word) (n : Nat) : (s.loadCoder code n).draws = s.draws := rfl
@[simp] theorem State.loadCoder_wPos (code : Word) (n : Nat) : (s.loadCoder code n).wPos = s.wPos := rfl
@[simp] theorem State.loadCoder_limitSet (code : Word) (n : Nat) : (s.loadCoder code n).limitSet = s.limitSet := rfl

@[simp] theorem State.markDecoded_rc : s.markDecoded.rc = s.rc := rfl
@[simp] theorem State.markDecoded_lz : s.markDecoded.lz = s.lz := rfl
@[simp] theorem State.markDecoded_probs : s.markDecoded.probs = s.probs := rfl
@[simp] theorem State.markDecoded_dict : s.markDecoded.dict = s.dict := rfl
@[simp] theorem State.markDecoded_inp : s.markDecoded.inp = s.inp := rfl
@[simp] theorem State.markDecoded_fault : s.markDecoded.fault = s.fault := rfl
@[simp] theorem State.markDecoded_stage : s.markDecoded.stage =
    .decoded := rfl
@[simp] theorem State.markDecoded_mode : s.markDecoded.mode = s.mode := rfl
@[simp] theorem State.markDecoded_tally : s.markDecoded.tally = s.tally := rfl
@[simp] theorem State.markDecoded_loop : s.markDecoded.loop = s.loop := rfl
@[simp] theorem State.markDecoded_issued : s.markDecoded.issued = s.issued := rfl
@[simp] theorem State.markDecoded_result : s.markDecoded.result = s.result := rfl
@[simp] theorem State.markDecoded_draws : s.markDecoded.draws = s.draws := rfl
@[simp] theorem State.markDecoded_wPos : s.markDecoded.wPos = s.wPos := rfl
@[simp] theorem State.markDecoded_limitSet : s.markDecoded.limitSet = false := rfl

@[simp] theorem State.append_rc (b : Byte) : (s.append b).rc = s.rc := rfl
@[simp] theorem State.append_lz (b : Byte) : (s.append b).lz = s.lz := rfl
@[simp] theorem State.append_probs (b : Byte) : (s.append b).probs = s.probs := rfl
@[simp] theorem State.append_dict (b : Byte) : (s.append b).dict =
    { s.dict with
      position := s.dict.position + 1, out := s.dict.out.write s.dict.position b } := rfl
@[simp] theorem State.append_inp (b : Byte) : (s.append b).inp = s.inp := rfl
@[simp] theorem State.append_fault (b : Byte) : (s.append b).fault = s.fault := rfl
@[simp] theorem State.append_stage (b : Byte) : (s.append b).stage = s.stage := rfl
@[simp] theorem State.append_mode (b : Byte) : (s.append b).mode = s.mode := rfl
@[simp] theorem State.append_tally (b : Byte) : (s.append b).tally = s.tally := rfl
@[simp] theorem State.append_loop (b : Byte) : (s.append b).loop = s.loop := rfl
@[simp] theorem State.append_issued (b : Byte) : (s.append b).issued = s.issued := rfl
@[simp] theorem State.append_result (b : Byte) : (s.append b).result = s.result := rfl
@[simp] theorem State.append_draws (b : Byte) : (s.append b).draws = s.draws := rfl
@[simp] theorem State.append_wPos (b : Byte) : (s.append b).wPos = s.wPos := rfl
@[simp] theorem State.append_limitSet (b : Byte) : (s.append b).limitSet = s.limitSet := rfl

@[simp] theorem State.setLimit_rc (n : Nat) : (s.setLimit n).rc = s.rc := rfl
@[simp] theorem State.setLimit_lz (n : Nat) : (s.setLimit n).lz = s.lz := rfl
@[simp] theorem State.setLimit_probs (n : Nat) : (s.setLimit n).probs = s.probs := rfl
@[simp] theorem State.setLimit_dict (n : Nat) : (s.setLimit n).dict =
    { s.dict with
      limit := s.dict.position + n, historyStart := s.dict.position } := rfl
@[simp] theorem State.setLimit_inp (n : Nat) : (s.setLimit n).inp = s.inp := rfl
@[simp] theorem State.setLimit_fault (n : Nat) : (s.setLimit n).fault = s.fault := rfl
@[simp] theorem State.setLimit_stage (n : Nat) : (s.setLimit n).stage = s.stage := rfl
@[simp] theorem State.setLimit_mode (n : Nat) : (s.setLimit n).mode = s.mode := rfl
@[simp] theorem State.setLimit_tally (n : Nat) : (s.setLimit n).tally = s.tally := rfl
@[simp] theorem State.setLimit_loop (n : Nat) : (s.setLimit n).loop = s.loop := rfl
@[simp] theorem State.setLimit_issued (n : Nat) : (s.setLimit n).issued = s.issued := rfl
@[simp] theorem State.setLimit_result (n : Nat) : (s.setLimit n).result = s.result := rfl
@[simp] theorem State.setLimit_draws (n : Nat) : (s.setLimit n).draws = s.draws := rfl
@[simp] theorem State.setLimit_wPos (n : Nat) : (s.setLimit n).wPos = s.wPos := rfl
@[simp] theorem State.setLimit_limitSet (n : Nat) : (s.setLimit n).limitSet = true := rfl

@[simp] theorem State.initDict_rc (size : Nat) : (s.initDict size).rc = s.rc := rfl
@[simp] theorem State.initDict_lz (size : Nat) : (s.initDict size).lz = s.lz := rfl
@[simp] theorem State.initDict_probs (size : Nat) : (s.initDict size).probs = s.probs := rfl
@[simp] theorem State.initDict_dict (size : Nat) : (s.initDict size).dict =
    { position := 0, limit := 0, historyStart := 0, bufferSize := size, out := [] } := rfl
@[simp] theorem State.initDict_inp (size : Nat) : (s.initDict size).inp = s.inp := rfl
@[simp] theorem State.initDict_fault (size : Nat) : (s.initDict size).fault = s.fault := rfl
@[simp] theorem State.initDict_stage (size : Nat) : (s.initDict size).stage = s.stage := rfl
@[simp] theorem State.initDict_mode (size : Nat) : (s.initDict size).mode = s.mode := rfl
@[simp] theorem State.initDict_tally (size : Nat) : (s.initDict size).tally = s.tally := rfl
@[simp] theorem State.initDict_loop (size : Nat) : (s.initDict size).loop = s.loop := rfl
@[simp] theorem State.initDict_issued (size : Nat) : (s.initDict size).issued = s.issued := rfl
@[simp] theorem State.initDict_result (size : Nat) : (s.initDict size).result = s.result := rfl
@[simp] theorem State.initDict_draws (size : Nat) : (s.initDict size).draws = s.draws := rfl
@[simp] theorem State.initDict_wPos (size : Nat) : (s.initDict size).wPos = s.wPos := rfl
@[simp] theorem State.initDict_limitSet (size : Nat) : (s.initDict size).limitSet = s.limitSet := rfl

@[simp] theorem State.setEngine_rc (lz : Engine) : (s.setEngine lz).rc = s.rc := rfl
@[simp] theorem State.setEngine_lz (lz : Engine) : (s.setEngine lz).lz =
    lz := rfl
@[simp] theorem State.setEngine_probs (lz : Engine) : (s.setEngine lz).probs = s.probs := rfl
@[simp] theorem State.setEngine_dict (lz : Engine) : (s.setEngine lz).dict = s.dict := rfl
@[simp] theorem State.setEngine_inp (lz : Engine) : (s.setEngine lz).inp = s.inp := rfl
@[simp] theorem State.setEngine_fault (lz : Engine) : (s.setEngine lz).fault = s.fault := rfl
@[simp] theorem State.setEngine_stage (lz : Engine) : (s.setEngine lz).stage = s.stage := rfl
@[simp] theorem State.setEngine_mode (lz : Engine) : (s.setEngine lz).mode = s.mode := rfl
@[simp] theorem State.setEngine_tally (lz : Engine) : (s.setEngine lz).tally = s.tally := rfl
@[simp] theorem State.setEngine_loop (lz : Engine) : (s.setEngine lz).loop = s.loop := rfl
@[simp] theorem State.setEngine_issued (lz : Engine) : (s.setEngine lz).issued = s.issued := rfl
@[simp] theorem State.setEngine_result (lz : Engine) : (s.setEngine lz).result = s.result := rfl
@[simp] theorem State.setEngine_draws (lz : Engine) : (s.setEngine lz).draws = s.draws := rfl
@[simp] theorem State.setEngine_wPos (lz : Engine) : (s.setEngine lz).wPos = s.wPos := rfl
@[simp] theorem State.setEngine_limitSet (lz : Engine) : (s.setEngine lz).limitSet = s.limitSet := rfl

@[simp] theorem State.resetModel_rc : s.resetModel.rc = s.rc := rfl
@[simp] theorem State.resetModel_lz : s.resetModel.lz =
    Engine.initial := rfl
@[simp] theorem State.resetModel_probs : s.resetModel.probs =
    [] := rfl
@[simp] theorem State.resetModel_dict : s.resetModel.dict = s.dict := rfl
@[simp] theorem State.resetModel_inp : s.resetModel.inp = s.inp := rfl
@[simp] theorem State.resetModel_fault : s.resetModel.fault = s.fault := rfl
@[simp] theorem State.resetModel_stage : s.resetModel.stage = s.stage := rfl
@[simp] theorem State.resetModel_mode : s.resetModel.mode = s.mode := rfl
@[simp] theorem State.resetModel_tally : s.resetModel.tally = s.tally := rfl
@[simp] theorem State.resetModel_loop : s.resetModel.loop = s.loop := rfl
@[simp] theorem State.resetModel_issued : s.resetModel.issued = s.issued := rfl
@[simp] theorem State.resetModel_result : s.resetModel.result = s.result := rfl
@[simp] theorem State.resetModel_draws : s.resetModel.draws = s.draws := rfl
@[simp] theorem State.resetModel_wPos : s.resetModel.wPos = s.wPos := rfl
@[simp] theorem State.resetModel_limitSet : s.resetModel.limitSet = s.limitSet := rfl

@[simp] theorem State.addTally_rc (n : Nat) : (s.addTally n).rc = s.rc := rfl
@[simp] theorem State.addTally_lz (n : Nat) : (s.addTally n).lz = s.lz := rfl
@[simp] theorem State.addTally_probs (n : Nat) : (s.addTally n).probs = s.probs := rfl
@[simp] theorem State.addTally_dict (n : Nat) : (s.addTally n).dict = s.dict := rfl
@[simp] theorem State.addTally_inp (n : Nat) : (s.addTally n).inp = s.inp := rfl
@[simp] theorem State.addTally_fault (n : Nat) : (s.addTally n).fault = s.fault := rfl
@[simp] theorem State.addTally_stage (n : Nat) : (s.addTally n).stage = s.stage := rfl
@[simp] theorem State.addTally_mode (n : Nat) : (s.addTally n).mode = s.mode := rfl
@[simp] theorem State.addTally_tally (n : Nat) : (s.addTally n).tally =
    s.tally + n := rfl
@[simp] theorem State.addTally_loop (n : Nat) : (s.addTally n).loop = s.loop := rfl
@[simp] theorem State.addTally_issued (n : Nat) : (s.addTally n).issued = s.issued := rfl
@[simp] theorem State.addTally_result (n : Nat) : (s.addTally n).result = s.result := rfl
@[simp] theorem State.addTally_draws (n : Nat) : (s.addTally n).draws = s.draws := rfl
@[simp] theorem State.addTally_wPos (n : Nat) : (s.addTally n).wPos = s.wPos := rfl
@[simp] theorem State.addTally_limitSet (n : Nat) : (s.addTally n).limitSet = s.limitSet := rfl

@[simp] theorem State.endLoop_rc : s.endLoop.rc = s.rc := rfl
@[simp] theorem State.endLoop_lz : s.endLoop.lz = s.lz := rfl
@[simp] theorem State.endLoop_probs : s.endLoop.probs = s.probs := rfl
@[simp] theorem State.endLoop_dict : s.endLoop.dict = s.dict := rfl
@[simp] theorem State.endLoop_inp : s.endLoop.inp = s.inp := rfl
@[simp] theorem State.endLoop_fault : s.endLoop.fault = s.fault := rfl
@[simp] theorem State.endLoop_stage : s.endLoop.stage = s.stage := rfl
@[simp] theorem State.endLoop_mode : s.endLoop.mode = s.mode := rfl
@[simp] theorem State.endLoop_tally : s.endLoop.tally = s.tally := rfl
@[simp] theorem State.endLoop_loop : s.endLoop.loop =
    .returned := rfl
@[simp] theorem State.endLoop_issued : s.endLoop.issued = s.issued := rfl
@[simp] theorem State.endLoop_result : s.endLoop.result = s.result := rfl
@[simp] theorem State.endLoop_draws : s.endLoop.draws = s.draws := rfl
@[simp] theorem State.endLoop_wPos : s.endLoop.wPos = s.wPos := rfl
@[simp] theorem State.endLoop_limitSet : s.endLoop.limitSet = s.limitSet := rfl

@[simp] theorem State.giveBack_rc (r : Result) : (s.giveBack r).rc = s.rc := rfl
@[simp] theorem State.giveBack_lz (r : Result) : (s.giveBack r).lz = s.lz := rfl
@[simp] theorem State.giveBack_probs (r : Result) : (s.giveBack r).probs = s.probs := rfl
@[simp] theorem State.giveBack_dict (r : Result) : (s.giveBack r).dict = s.dict := rfl
@[simp] theorem State.giveBack_inp (r : Result) : (s.giveBack r).inp = s.inp := rfl
@[simp] theorem State.giveBack_fault (r : Result) : (s.giveBack r).fault = s.fault := rfl
@[simp] theorem State.giveBack_stage (r : Result) : (s.giveBack r).stage = s.stage := rfl
@[simp] theorem State.giveBack_mode (r : Result) : (s.giveBack r).mode = s.mode := rfl
@[simp] theorem State.giveBack_tally (r : Result) : (s.giveBack r).tally = s.tally := rfl
@[simp] theorem State.giveBack_loop (r : Result) : (s.giveBack r).loop = s.loop := rfl
@[simp] theorem State.giveBack_issued (r : Result) : (s.giveBack r).issued = s.issued := rfl
@[simp] theorem State.giveBack_result (r : Result) : (s.giveBack r).result = r := rfl
@[simp] theorem State.giveBack_draws (r : Result) : (s.giveBack r).draws = s.draws := rfl
@[simp] theorem State.giveBack_wPos (r : Result) : (s.giveBack r).wPos = s.wPos := rfl
@[simp] theorem State.giveBack_limitSet (r : Result) : (s.giveBack r).limitSet = s.limitSet := rfl

@[simp] theorem State.construct_rc (wPos : Nat) (input : List Byte) (capacity : Nat) :
    (s.construct wPos input capacity).rc = RangeCoder.initial := rfl
@[simp] theorem State.construct_lz (wPos : Nat) (input : List Byte) (capacity : Nat) :
    (s.construct wPos input capacity).lz = Engine.initial := rfl
@[simp] theorem State.construct_probs (wPos : Nat) (input : List Byte) (capacity : Nat) :
    (s.construct wPos input capacity).probs = [] := rfl
@[simp] theorem State.construct_dict (wPos : Nat) (input : List Byte) (capacity : Nat) :
    (s.construct wPos input capacity).dict = { position := 0, limit := 0, historyStart := 0, bufferSize := capacity, out := [] } := rfl
@[simp] theorem State.construct_inp (wPos : Nat) (input : List Byte) (capacity : Nat) :
    (s.construct wPos input capacity).inp = { offset := 0, size := input.length, bytes := Mem.place [] 0 input } := rfl
@[simp] theorem State.construct_fault (wPos : Nat) (input : List Byte) (capacity : Nat) :
    (s.construct wPos input capacity).fault = none := rfl
@[simp] theorem State.construct_stage (wPos : Nat) (input : List Byte) (capacity : Nat) :
    (s.construct wPos input capacity).stage = .uninit := rfl
@[simp] theorem State.construct_mode (wPos : Nat) (input : List Byte) (capacity : Nat) :
    (s.construct wPos input capacity).mode = if capacity = 0 then .sizeQuery else .decode := rfl
@[simp] theorem State.construct_tally (wPos : Nat) (input : List Byte) (capacity : Nat) :
    (s.construct wPos input capacity).tally = 0 := rfl
@[simp] theorem State.construct_loop (wPos : Nat) (input : List Byte) (capacity : Nat) :
    (s.construct wPos input capacity).loop = .running := rfl
@[simp] theorem State.construct_issued (wPos : Nat) (input : List Byte) (capacity : Nat) :
    (s.construct wPos input capacity).issued = s.issued := rfl
@[simp] theorem State.construct_result (wPos : Nat) (input : List Byte) (capacity : Nat) :
    (s.construct wPos input capacity).result = .ok := rfl
@[simp] theorem State.construct_draws (wPos : Nat) (input : List Byte) (capacity : Nat) :
    (s.construct wPos input capacity).draws = s.draws := rfl
@[simp] theorem State.construct_wPos (wPos : Nat) (input : List Byte) (capacity : Nat) :
    (s.construct wPos input capacity).wPos = wPos := rfl
@[simp] theorem State.construct_limitSet (wPos : Nat) (input : List Byte) (capacity : Nat) :
    (s.construct wPos input capacity).limitSet = false := rfl

@[simp] theorem State.takeFault_probs (f : CoreFault) : (s.takeFault f).probs = ProbTable.scrambled s.draws := rfl
@[simp] theorem State.takeFault_fault (f : CoreFault) : (s.takeFault f).fault = some f := rfl
@[simp] theorem State.takeFault_stage (f : CoreFault) : (s.takeFault f).stage = s.stage := rfl
@[simp] theorem State.takeFault_mode (f : CoreFault) : (s.takeFault f).mode = s.mode := rfl
@[simp] theorem State.takeFault_tally (f : CoreFault) : (s.takeFault f).tally = s.tally := rfl
@[simp] theorem State.takeFault_loop (f : CoreFault) : (s.takeFault f).loop = s.loop := rfl
@[simp] theorem State.takeFault_issued (f : CoreFault) : (s.takeFault f).issued = s.issued := rfl
@[simp] theorem State.takeFault_result (f : CoreFault) : (s.takeFault f).result = .failed := rfl
@[simp] theorem State.takeFault_draws (f : CoreFault) : (s.takeFault f).draws = s.draws + 1 := rfl
@[simp] theorem State.takeFault_wPos (f : CoreFault) : (s.takeFault f).wPos = s.wPos := rfl
@[simp] theorem State.takeFault_limitSet (f : CoreFault) : (s.takeFault f).limitSet = s.limitSet := rfl
@[simp] theorem State.takeFault_out (f : CoreFault) : (s.takeFault f).dict.out = s.dict.out.scramble s.draws := rfl
@[simp] theorem State.takeFault_size (f : CoreFault) : (s.takeFault f).inp.size = s.inp.size := rfl
@[simp] theorem State.takeFault_bytes (f : CoreFault) : (s.takeFault f).inp.bytes = s.inp.bytes := rfl

/-! ## What a decision and a direct bit leave -/

@[simp] theorem State.decided_lz (c : Cell) : (s.decided c).lz = s.lz := by
  unfold State.decided; dsimp only; split <;> rfl
@[simp] theorem State.decided_dict (c : Cell) : (s.decided c).dict = s.dict := by
  unfold State.decided; dsimp only; split <;> rfl
@[simp] theorem State.decided_inp (c : Cell) : (s.decided c).inp = s.inp := by
  unfold State.decided; dsimp only; split <;> rfl
@[simp] theorem State.decided_fault (c : Cell) : (s.decided c).fault = s.fault := by
  unfold State.decided; dsimp only; split <;> rfl
@[simp] theorem State.decided_stage (c : Cell) : (s.decided c).stage = s.stage := by
  unfold State.decided; dsimp only; split <;> rfl
@[simp] theorem State.decided_mode (c : Cell) : (s.decided c).mode = s.mode := by
  unfold State.decided; dsimp only; split <;> rfl
@[simp] theorem State.decided_tally (c : Cell) : (s.decided c).tally = s.tally := by
  unfold State.decided; dsimp only; split <;> rfl
@[simp] theorem State.decided_loop (c : Cell) : (s.decided c).loop = s.loop := by
  unfold State.decided; dsimp only; split <;> rfl
@[simp] theorem State.decided_issued (c : Cell) : (s.decided c).issued = s.issued := by
  unfold State.decided; dsimp only; split <;> rfl
@[simp] theorem State.decided_result (c : Cell) : (s.decided c).result = s.result := by
  unfold State.decided; dsimp only; split <;> rfl
@[simp] theorem State.decided_draws (c : Cell) : (s.decided c).draws = s.draws := by
  unfold State.decided; dsimp only; split <;> rfl
@[simp] theorem State.decided_wPos (c : Cell) : (s.decided c).wPos = s.wPos := by
  unfold State.decided; dsimp only; split <;> rfl
@[simp] theorem State.decided_limitSet (c : Cell) : (s.decided c).limitSet = s.limitSet := by
  unfold State.decided; dsimp only; split <;> rfl
@[simp] theorem State.directed_lz : s.directed.lz = s.lz := rfl
@[simp] theorem State.directed_dict : s.directed.dict = s.dict := rfl
@[simp] theorem State.directed_inp : s.directed.inp = s.inp := rfl
@[simp] theorem State.directed_fault : s.directed.fault = s.fault := rfl
@[simp] theorem State.directed_stage : s.directed.stage = s.stage := rfl
@[simp] theorem State.directed_mode : s.directed.mode = s.mode := rfl
@[simp] theorem State.directed_tally : s.directed.tally = s.tally := rfl
@[simp] theorem State.directed_loop : s.directed.loop = s.loop := rfl
@[simp] theorem State.directed_issued : s.directed.issued = s.issued := rfl
@[simp] theorem State.directed_result : s.directed.result = s.result := rfl
@[simp] theorem State.directed_draws : s.directed.draws = s.draws := rfl
@[simp] theorem State.directed_wPos : s.directed.wPos = s.wPos := rfl
@[simp] theorem State.directed_limitSet : s.directed.limitSet = s.limitSet := rfl
@[simp] theorem State.directed_probs : s.directed.probs = s.probs := rfl

end Sys2Proof.Machine
end

