-- ==== Sys2Proof/Laws/Memory.lean ====
section
/-! SUPPORT. The laws of the sorted tables, of the byte memories and of the probability table: reads after writes, and
that every operation keeps the canonical form. -/

namespace Sys2Proof.Machine

/-! ## Sorted tables -/

section Tables

variable {α : Type}

/-- Keys strictly rising. -/
abbrev Table.Rising (l : List (Nat × α)) : Prop := l.Pairwise fun x y => x.1 < y.1

theorem Table.find_insert (l : List (Nat × α)) (a b : Nat) (v : α) :
    Table.find (Table.insert l a v) b = if b = a then some v else Table.find l b := by
  induction l with
  | nil => simp [Table.insert, Table.find]
  | cons e rest ih =>
    obtain ⟨k, w⟩ := e
    simp only [Table.insert]
    split
    · simp [Table.find]
    · split
      · next h => subst h; simp only [Table.find]; split <;> simp_all
      · simp only [Table.find, ih]; split <;> split <;> simp_all

theorem Table.find_erase (l : List (Nat × α)) (a b : Nat) :
    Table.find (Table.erase l a) b = if b = a then none else Table.find l b := by
  induction l with
  | nil => simp [Table.erase, Table.find]
  | cons e rest ih =>
    obtain ⟨k, w⟩ := e
    simp only [Table.erase, List.filter_cons] at ih ⊢
    split
    · simp only [Table.find, ih]; split <;> split <;> simp_all
    · next hk =>
      have hk : k = a := by simpa using hk
      subst hk
      simp only [ih, Table.find]
      by_cases hb : b = k <;> simp [hb]

theorem Table.mem_insert {l : List (Nat × α)} {a : Nat} {v : α} {e : Nat × α} (h : e ∈ Table.insert l a v) :
    e = (a, v) ∨ e ∈ l := by
  induction l with
  | nil => simpa [Table.insert] using h
  | cons f rest ih =>
    obtain ⟨k, w⟩ := f
    simp only [Table.insert] at h
    split at h
    · simpa using h
    · split at h
      · rcases List.mem_cons.1 h with h | h
        · exact .inl h
        · exact .inr (List.mem_cons_of_mem _ h)
      · rcases List.mem_cons.1 h with h | h
        · exact .inr (by simp [h])
        · exact (ih h).imp_right (List.mem_cons_of_mem _)

theorem Table.rising_insert {l : List (Nat × α)} (h : Table.Rising l) (a : Nat) (v : α) :
    Table.Rising (Table.insert l a v) := by
  induction l with
  | nil => simp [Table.insert]
  | cons e rest ih =>
    obtain ⟨k, w⟩ := e
    rw [Table.Rising, List.pairwise_cons] at h
    simp only [Table.insert]
    split
    · next hk =>
      rw [Table.Rising, List.pairwise_cons, List.pairwise_cons]
      refine ⟨fun f hf => ?_, h.1, h.2⟩
      rcases List.mem_cons.1 hf with rfl | hf
      · exact hk
      · exact Nat.lt_trans hk (h.1 f hf)
    · split
      · next hk => subst hk; exact List.pairwise_cons.2 h
      · next hk hk' =>
        refine List.pairwise_cons.2 ⟨fun f hf => ?_, ih h.2⟩
        rcases Table.mem_insert hf with rfl | hf
        · show k < a; omega
        · exact h.1 f hf

theorem Table.rising_erase {l : List (Nat × α)} (h : Table.Rising l) (a : Nat) : Table.Rising (Table.erase l a) :=
  h.filter _

theorem Table.find_mem {l : List (Nat × α)} {a : Nat} {v : α} (h : Table.find l a = some v) : (a, v) ∈ l := by
  induction l with
  | nil => simp [Table.find] at h
  | cons e rest ih =>
    obtain ⟨k, w⟩ := e
    simp only [Table.find] at h
    split at h
    · simp_all
    · exact List.mem_cons_of_mem _ (ih h)

end Tables

/-! ## Byte memories -/

/-- A read after a write: the byte written at its address, everything else as before. -/
theorem Mem.read_write (m : Mem) (a b : Nat) (v : Byte) :
    (m.write a v).read b = if b = a then some v else m.read b := Table.find_insert m a b v

@[simp] theorem Mem.read_write_same (m : Mem) (a : Nat) (v : Byte) : (m.write a v).read a = some v := by
  simp [Mem.read_write]

theorem Mem.read_write_other (m : Mem) {a b : Nat} (v : Byte) (h : b ≠ a) : (m.write a v).read b = m.read b := by
  simp [Mem.read_write, h]

@[simp] theorem Mem.read_nil (a : Nat) : Mem.read [] a = none := rfl

theorem Mem.wf_nil : Mem.wf [] := List.Pairwise.nil

theorem Mem.wf_write {m : Mem} (h : m.wf) (a : Nat) (v : Byte) : (m.write a v).wf := Table.rising_insert h a v

theorem Mem.wf_place {m : Mem} (h : m.wf) (a : Nat) (bs : List Byte) : (m.place a bs).wf := by
  induction bs generalizing m a with
  | nil => exact h
  | cons b bs ih => exact ih (Mem.wf_write h a b) (a + 1)

theorem Mem.wf_scramble {m : Mem} (h : m.wf) (draw : Nat) : (m.scramble draw).wf := by
  rw [Mem.wf, Mem.scramble, List.pairwise_map]
  exact h

/-- Reading placed bytes: inside the placed range byte `a - base`, elsewhere as before. -/
theorem Mem.read_place (m : Mem) (base : Nat) (bs : List Byte) (a : Nat) :
    (m.place base bs).read a = if base ≤ a ∧ a < base + bs.length then bs[a - base]? else m.read a := by
  induction bs generalizing m base with
  | nil => simp [Mem.place]
  | cons b bs ih =>
    rw [Mem.place, ih, Mem.read_write]
    simp only [List.length_cons]
    by_cases h : a = base
    · subst h; simp
    · by_cases h' : base + 1 ≤ a ∧ a < base + 1 + bs.length
      · have h₂ : base ≤ a ∧ a < base + (bs.length + 1) := by omega
        rw [if_pos h', if_pos h₂, show a - base = (a - (base + 1)) + 1 by omega, List.getElem?_cons_succ]
      · have h₂ : ¬(base ≤ a ∧ a < base + (bs.length + 1)) := by omega
        rw [if_neg h', if_neg h₂, if_neg h]

/-! ## The probability table -/

/-- A cell read after a cell written. -/
theorem ProbTable.get_set (p : ProbTable) (i j : Nat) (v : Prob) :
    (p.set i v).get j = if j = i then v else p.get j := by
  unfold ProbTable.set ProbTable.get
  split
  · next h => rw [Table.find_erase]; split <;> simp_all
  · rw [Table.find_insert]; split <;> simp

@[simp] theorem ProbTable.get_nil (i : Nat) : ProbTable.get [] i = Config.probInit := rfl

theorem ProbTable.wf_nil : ProbTable.wf [] := ⟨List.Pairwise.nil, by simp⟩

theorem ProbTable.wf_set {p : ProbTable} (h : p.wf) {i : Nat} (hi : i < Config.nProbs) (v : Prob) :
    (p.set i v).wf := by
  unfold ProbTable.set
  split
  · exact ⟨Table.rising_erase h.1 i, fun e he => h.2 e (List.mem_filter.1 he).1⟩
  · next hv =>
    refine ⟨Table.rising_insert h.1 i v, fun e he => ?_⟩
    rcases Table.mem_insert he with rfl | he
    · exact ⟨hi, hv⟩
    · exact h.2 e he

theorem ProbTable.wf_scrambled (draw : Nat) : (ProbTable.scrambled draw).wf := by
  unfold ProbTable.scrambled
  constructor
  · refine List.Pairwise.filterMap _ (fun a b hab x hx y hy => ?_) List.pairwise_lt_range
    split at hx
    · simp at hx
    · split at hy
      · simp at hy
      · simp only [Option.some.injEq] at hx hy
        subst hx hy
        exact hab
  · intro e he
    obtain ⟨i, hi, h⟩ := List.mem_filterMap.1 he
    split at h
    · simp at h
    · next hv =>
      simp only [Option.some.injEq] at h
      subst h
      exact ⟨List.mem_range.1 hi, hv⟩

/-! ## The cells' numbers (R33, R34) -/

/-- Every cell has a number below 7990 (R33). -/
theorem cell_index_lt (c : Cell) : c.index < Config.nProbs := by
  unfold Config.nProbs
  cases c <;> simp only [Cell.index] <;>
    first
    | omega
    | (rename_i l; cases l <;> simp only [LenCoder.start] <;> omega)
    | (rename_i l _; cases l <;> simp only [LenCoder.start] <;> omega)
    | (rename_i l _ _; cases l <;> simp only [LenCoder.start] <;> omega)

/-- No two cells share a number (R34). -/
theorem cell_index_injective {c d : Cell} (h : c.index = d.index) : c = d := by
  cases c <;> cases d <;> simp only [Cell.index] at h <;>
    (try (rename LenCoder => l; cases l)) <;> (try (rename LenCoder => l'; cases l')) <;>
    (try simp only [LenCoder.start] at h) <;>
    first
    | omega
    | rfl
    | (congr 1 <;> apply Fin.ext <;> omega)

/-- A cell of the state after a write of a cell. -/
theorem State.cell_setCell (s : State) (c d : Cell) (v : Prob) :
    (s.setCell c v).cell d = if d = c then v else s.cell d := by
  unfold State.cell
  rw [State.setCell_probs, ProbTable.get_set]
  by_cases h : d = c
  · simp [h]
  · rw [if_neg (fun h' => h (cell_index_injective h')), if_neg h]

end Sys2Proof.Machine
end

