-- ==== Sys2Proof/Laws/Monad.lean ====
section
/-! SUPPORT. How operations compose: what it means for `m >>= k` to end in a value or to stop, and the rules that carry
a relation or a postcondition through a sequence. Later proofs use these and never unfold the monad. -/

namespace Sys2Proof.Machine

variable {α β : Type}

theorem pure_run (a : α) (s : State) : (pure a : M α) s = .ok (a, s) := rfl

theorem bind_run (m : M α) (k : α → M β) (s : State) :
    (m >>= k) s = (match m s with
      | .ok (a, t) => k a t
      | .error e => .error e) := by
  show (m s >>= fun p => k p.1 p.2) = _
  cases m s <;> rfl

/-- A sequence ends in a value exactly when both parts do. -/
theorem bind_ok {m : M α} {k : α → M β} {s u : State} {b : β} :
    (m >>= k) s = .ok (b, u) ↔ ∃ a t, m s = .ok (a, t) ∧ k a t = .ok (b, u) := by
  rw [bind_run]
  cases h : m s with
  | error e => simp
  | ok p => obtain ⟨a, t⟩ := p; simp

/-- A sequence stops exactly when its first part stops, or its second does. -/
theorem bind_error {m : M α} {k : α → M β} {s : State} {e : Stop} :
    (m >>= k) s = .error e ↔ m s = .error e ∨ ∃ a t, m s = .ok (a, t) ∧ k a t = .error e := by
  rw [bind_run]
  cases h : m s with
  | error e' => simp
  | ok p => obtain ⟨a, t⟩ := p; simp

@[simp] theorem look_ok {f : State → α} {s t : State} {a : α} : look f s = .ok (a, t) ↔ f s = a ∧ s = t := by
  simp [look]

@[simp] theorem look_error {f : State → α} {s : State} {e : Stop} : look f s ≠ .error e := by simp [look]

@[simp] theorem update_ok {f : State → State} {s t : State} {a : Unit} : update f s = .ok (a, t) ↔ f s = t := by
  simp [update]

@[simp] theorem update_error {f : State → State} {s : State} {e : Stop} : update f s ≠ .error e := by simp [update]

@[simp] theorem raise_ok {f : CoreFault} {s t : State} {a : α} : (raise f : M α) s ≠ .ok (a, t) := by simp [raise]

@[simp] theorem raise_error {f : CoreFault} {s : State} {e : Stop} :
    (raise f : M α) s = .error e ↔ Stop.raised f s = e := by simp [raise]

@[simp] theorem refuse_ok {r : Refusal} {s t : State} {a : α} : (refuse r : M α) s ≠ .ok (a, t) := by simp [refuse]

@[simp] theorem refuse_error {r : Refusal} {s : State} {e : Stop} :
    (refuse r : M α) s = .error e ↔ Stop.refuse r = e := by simp [refuse]

@[simp] theorem trap_ok {f : Fault} {s t : State} {a : α} : (trap f : M α) s ≠ .ok (a, t) := by simp [trap]

@[simp] theorem trap_error {f : Fault} {s : State} {e : Stop} :
    (trap f : M α) s = .error e ↔ Stop.trap f = e := by simp [trap]

@[simp] theorem pure_ok {a b : α} {s t : State} : (pure a : M α) s = .ok (b, t) ↔ a = b ∧ s = t := by
  rw [pure_run]; simp

@[simp] theorem pure_error {a : α} {s : State} {e : Stop} : (pure a : M α) s ≠ .error e := by
  rw [pure_run]; simp

theorem require_ok {ok : Bool} {r : Refusal} {s t : State} {a : Unit} :
    require ok r s = .ok (a, t) ↔ ok = true ∧ s = t := by
  cases ok <;> simp [require]

theorem needRc_ok {s t : State} {a : Unit} : needRc s = .ok (a, t) ↔ s.stage ≠ .uninit ∧ s = t := by
  unfold needRc; split <;> simp_all

theorem needRc_error {s : State} {e : Stop} :
    needRc s = .error e ↔ s.stage = .uninit ∧ e = .refuse .rcNotInitialised := by
  unfold needRc
  split
  · next h => rw [refuse_error]; exact ⟨fun h' => ⟨h, h'.symm⟩, fun h' => h'.2.symm⟩
  · next h => simp [h]

/-- Once `rc.init` has been issued, an operation that needs it is the operation alone. -/
theorem needRc_bind {m : M α} {s : State} (h : s.stage ≠ .uninit) : (needRc >>= fun _ => m) s = m s := by
  rw [bind_run]
  simp [needRc, h]

/-- With a limit and an `rc.init` of its own, `lz.decode` is the decoding alone. -/
theorem needChunk_bind {m : M α} {s : State} (h : s.stage = .ready) (h' : s.limitSet = true) :
    (needChunk >>= fun _ => m) s = m s := by
  rw [bind_run]
  simp [needChunk, h, h']

theorem needChunk_ok {s t : State} {a : Unit} :
    needChunk s = .ok (a, t) ↔ (s.stage = .ready ∧ s.limitSet = true) ∧ s = t := by
  unfold needChunk; split <;> (try split) <;> simp_all

theorem needLimit_ok {s t : State} {a : Unit} :
    needLimit s = .ok (a, t) ↔ s.limitSet = true ∧ s = t := by
  unfold needLimit; split <;> simp_all

/-- With a limit of its own, `rc.init` is the loading alone. -/
theorem needLimit_bind {m : M α} {s : State} (h : s.limitSet = true) : (needLimit >>= fun _ => m) s = m s := by
  rw [bind_run]
  simp [needLimit, h]

/-- Outside a chunk's `rc.init` to `lz.decode`, an operation that must come before the first is the operation alone. -/
theorem needBeforeInit_bind {m : M α} {s : State} (h : s.stage ≠ .ready) :
    (needBeforeInit >>= fun _ => m) s = m s := by
  rw [bind_run]
  simp [needBeforeInit, h]

theorem needBeforeInit_ok {s t : State} {a : Unit} :
    needBeforeInit s = .ok (a, t) ↔ s.stage ≠ .ready ∧ s = t := by
  unfold needBeforeInit; split <;> simp_all

theorem needBetweenChunks_ok {s t : State} {a : Unit} :
    needBetweenChunks s = .ok (a, t) ↔ (s.limitSet = false ∧ s.stage ≠ .ready) ∧ s = t := by
  unfold needBetweenChunks
  cases s.limitSet <;> by_cases h : s.stage = .ready <;> simp [h]

/-- An operation that ends in a value relates the states before and after it. -/
def Relates (r : State → State → Prop) (m : M α) : Prop := ∀ s a t, m s = .ok (a, t) → r s t

/-- An operation that starts in `p` and ends in a value ends in `q`. -/
def Ends (p : State → Prop) (m : M α) (q : α → State → Prop) : Prop :=
  ∀ s, p s → ∀ a t, m s = .ok (a, t) → q a t

/-- An operation that starts in `p` makes no access the model stops on. -/
def Traps (p : State → Prop) (m : M α) : Prop := ∀ s, p s → ∀ f, m s ≠ .error (.trap f)

theorem Relates.bind {r : State → State → Prop} (trans : ∀ {a b c}, r a b → r b c → r a c) {m : M α} {k : α → M β}
    (hm : Relates r m) (hk : ∀ a, Relates r (k a)) : Relates r (m >>= k) := by
  intro s b u h
  obtain ⟨a, t, h₁, h₂⟩ := bind_ok.1 h
  exact trans (hm s a t h₁) (hk a t b u h₂)

theorem Ends.bind {p : State → Prop} {q : α → State → Prop} {q' : β → State → Prop} {m : M α} {k : α → M β}
    (hm : Ends p m q) (hk : ∀ a, Ends (q a) (k a) q') : Ends p (m >>= k) q' := by
  intro s hs b u h
  obtain ⟨a, t, h₁, h₂⟩ := bind_ok.1 h
  exact hk a t (hm s hs a t h₁) b u h₂

theorem Traps.bind {p : State → Prop} {q : α → State → Prop} {m : M α} {k : α → M β} (hm : Traps p m)
    (hq : Ends p m q) (hk : ∀ a, Traps (q a) (k a)) : Traps p (m >>= k) := by
  intro s hs f h
  rcases bind_error.1 h with h | ⟨a, t, h₁, h₂⟩
  · exact hm s hs f h
  · exact hk a t (hq s hs a t h₁) f h₂

/-! ## The outcome of an instruction -/

/-- What `commit` can answer: a refusal after a fault; else the operation's value given back, its fault taken, or its
stop. -/
theorem commit_cases (ret : α → Result) (m : M α) (s : State) :
    (∃ f, s.fault = some f ∧ commit ret m s = .refused .afterFault) ∨
    (s.fault = none ∧
      ((∃ a t, m s = .ok (a, t) ∧ commit ret m s = .next (t.giveBack (ret a))) ∨
       (∃ f t, m s = .error (.raised f t) ∧ commit ret m s = .next (t.takeFault f)) ∨
       (∃ r, m s = .error (.refuse r) ∧ commit ret m s = .refused r) ∨
       (∃ f, m s = .error (.trap f) ∧ commit ret m s = .fault f))) := by
  unfold commit
  cases hf : s.fault with
  | some f => exact .inl ⟨f, rfl, rfl⟩
  | none =>
    refine .inr ⟨rfl, ?_⟩
    cases hm : m s with
    | ok p => exact .inl ⟨p.1, p.2, rfl, rfl⟩
    | error e =>
      cases e with
      | raised f t => exact .inr (.inl ⟨f, t, rfl, rfl⟩)
      | refuse r => exact .inr (.inr (.inl ⟨r, rfl, rfl⟩))
      | trap f => exact .inr (.inr (.inr ⟨f, rfl, rfl⟩))

/-- An operation that ends in a value gives a next state. -/
theorem commit_ok {ret : α → Result} {m : M α} {s t : State} {a : α} (hf : s.fault = none) (hm : m s = .ok (a, t)) :
    commit ret m s = .next (t.giveBack (ret a)) := by simp [commit, hf, hm]

/-- An operation that raises a fault takes it. -/
theorem commit_raised {ret : α → Result} {m : M α} {s t : State} {f : CoreFault} (hf : s.fault = none)
    (hm : m s = .error (.raised f t)) : commit ret m s = .next (t.takeFault f) := by simp [commit, hf, hm]

/-- An operation that refuses is refused. -/
theorem commit_refused {ret : α → Result} {m : M α} {s : State} {r : Refusal} (hf : s.fault = none)
    (hm : m s = .error (.refuse r)) : commit ret m s = .refused r := by simp [commit, hf, hm]

/-- The CORE refuses an operation once a fault has been taken. -/
theorem commit_faulted {ret : α → Result} {m : M α} {s : State} (hf : s.fault ≠ none) :
    commit ret m s = .refused .afterFault := by
  obtain ⟨f, hf⟩ := Option.ne_none_iff_exists'.1 hf
  simp [commit, hf]

end Sys2Proof.Machine
end

