-- ==== Sys2Proof/Laws/Coder.lean ====
section
/-! SUPPORT. What the fetch, the normalisation and the decisions of the range coder can do (spec/40_input_cursor.md R130,
spec/42_range_coder.md R160 to R165), and the rules that carry a property through a whole decoder. -/

namespace Sys2Proof.Machine

variable {α β : Type} {s t u : State}

/-! ## Fetching a byte -/

/-- `in.read_byte` succeeds exactly when a byte is left, and moves the cursor by one (R130). -/
theorem readByte_ok {b : Byte} :
    readByte s = .ok (b, t) ↔
      s.inp.offset < s.inp.size ∧ s.inp.bytes.read s.inp.offset = some b ∧ t = s.advance 1 := by
  unfold readByte
  by_cases h : s.inp.offset < s.inp.size
  · rw [if_pos h]
    cases hr : s.inp.bytes.read s.inp.offset with
    | none => simp
    | some b' =>
      simp only [Except.ok.injEq, Prod.mk.injEq, h, true_and, Option.some.injEq]
      exact and_congr_right fun _ => eq_comm
  · simp [h]

/-- `in.read_byte` stops by `EndOfInput` at the end of the input, or on an address without a byte. -/
theorem readByte_error {e : Stop} :
    readByte s = .error e ↔
      (¬s.inp.offset < s.inp.size ∧ e = .raised (.endOfInput s.inp.offset) s) ∨
      (s.inp.offset < s.inp.size ∧ s.inp.bytes.read s.inp.offset = none ∧ e = .trap .inNoValue) := by
  unfold readByte
  by_cases h : s.inp.offset < s.inp.size
  · rw [if_pos h]
    cases hr : s.inp.bytes.read s.inp.offset with
    | none =>
      simp only [trap_error, h, not_true_eq_false, false_and, true_and, false_or]
      exact eq_comm
    | some b' => simp [h]
  · rw [if_neg h]
    simp only [raise_error, h, not_false_eq_true, true_and, false_and, or_false]
    exact eq_comm

/-! ## Normalisation (R162) -/

theorem normalize_ok {a : Unit} :
    normalize s = .ok (a, t) ↔
      (¬s.rc.range < Config.rcTop ∧ t = s) ∨
      (s.rc.range < Config.rcTop ∧ s.rc.remaining ≠ 0 ∧
        ∃ b, readByte s = .ok (b, s.advance 1) ∧ t = (s.advance 1).shiftIn b) := by
  unfold normalize
  split
  · next h =>
    split
    · next h' => simp [h, h']
    · next h' =>
      rw [bind_ok]
      simp only [update_ok]
      constructor
      · rintro ⟨b, v, h₁, rfl⟩
        have hv := (readByte_ok.1 h₁).2.2
        subst hv
        exact .inr ⟨h, h', b, h₁, rfl⟩
      · rintro (⟨h₁, -⟩ | ⟨-, -, b, h₁, rfl⟩)
        · exact absurd h h₁
        · exact ⟨b, _, h₁, rfl⟩
  · next h =>
    simp only [Except.ok.injEq, Prod.mk.injEq, true_and, h, not_false_eq_true, false_and, or_false]
    exact eq_comm

theorem normalize_error {e : Stop} :
    normalize s = .error e ↔
      s.rc.range < Config.rcTop ∧
        ((s.rc.remaining = 0 ∧ e = .raised (.budgetExhausted s.inp.offset) s) ∨
         (s.rc.remaining ≠ 0 ∧ readByte s = .error e)) := by
  unfold normalize
  by_cases h : s.rc.range < Config.rcTop
  · rw [if_pos h]
    by_cases h' : s.rc.remaining = 0
    · rw [if_pos h']
      simp only [raise_error, h, h', true_and, ne_eq, not_true_eq_false, false_and, or_false]
      exact eq_comm
    · rw [if_neg h', bind_error]
      simp only [update_error, and_false, exists_false, or_false, h, h', true_and, false_and, false_or, ne_eq,
        not_false_eq_true]
  · simp [h]

/-- Normalisation keeps the dictionary, the engine, the cells and everything but `rc` and `in.offset`. -/
theorem normalize_frame {a : Unit} (h : normalize s = .ok (a, t)) : CoderOnly s t := by
  rcases normalize_ok.1 h with ⟨-, rfl⟩ | ⟨-, -, b, -, rfl⟩ <;> rfl

/-- After normalisation `rc.range >= 2^24` (R44 (b)), from any range of at least `2^16` (R165 (e)). -/
theorem normalize_range {a : Unit} (h : normalize s = .ok (a, t)) (hr : 2 ^ 16 ≤ s.rc.range.toNat) :
    2 ^ 24 ≤ t.rc.range.toNat := by
  have e : Config.rcTop.toNat = 2 ^ 24 := rfl
  rcases normalize_ok.1 h with ⟨h', rfl⟩ | ⟨h', -, b, -, rfl⟩
  · rw [BitVec.lt_def, e] at h'
    omega
  · rw [BitVec.lt_def, e] at h'
    simp only [State.shiftIn_rc, State.advance_rc, BitVec.toNat_shiftLeft, Nat.shiftLeft_eq]
    omega

/-! ## One decision and one direct bit (R163, R167) -/

theorem decodeBit_ok {c : Cell} {b : Bool} :
    decodeBit c s = .ok (b, t) ↔ ∃ u, normalize s = .ok ((), u) ∧ b = u.decision c ∧ t = u.decided c := by
  unfold decodeBit
  rw [bind_ok]
  constructor
  · rintro ⟨⟨⟩, u, h, h'⟩
    simp only [Except.ok.injEq, Prod.mk.injEq] at h'
    exact ⟨u, h, h'.1.symm, h'.2.symm⟩
  · rintro ⟨u, h, rfl, rfl⟩
    exact ⟨(), u, h, rfl⟩

theorem decodeBit_error {c : Cell} {e : Stop} : decodeBit c s = .error e ↔ normalize s = .error e := by
  unfold decodeBit
  rw [bind_error]
  simp

theorem decodeDirectBit_ok {b : Bool} :
    decodeDirectBit s = .ok (b, t) ↔ ∃ u, normalize s = .ok ((), u) ∧ b = u.directBit ∧ t = u.directed := by
  unfold decodeDirectBit
  rw [bind_ok]
  constructor
  · rintro ⟨⟨⟩, u, h, h'⟩
    simp only [Except.ok.injEq, Prod.mk.injEq] at h'
    exact ⟨u, h, h'.1.symm, h'.2.symm⟩
  · rintro ⟨u, h, rfl, rfl⟩
    exact ⟨(), u, h, rfl⟩

theorem decodeDirectBit_error {e : Stop} : decodeDirectBit s = .error e ↔ normalize s = .error e := by
  unfold decodeDirectBit
  rw [bind_error]
  simp

/-- `CoderOnly` holds of no change and of two changes in a row. -/
theorem CoderOnly.refl (s : State) : CoderOnly s s := rfl

theorem CoderOnly.trans {a b c : State} (h₁ : CoderOnly a b) (h₂ : CoderOnly b c) : CoderOnly a c := by
  unfold CoderOnly at *
  rw [h₁] at h₂
  rw [h₂]

theorem decided_frame (c : Cell) : CoderOnly s (s.decided c) := by
  unfold State.decided CoderOnly
  dsimp only
  split <;> rfl

theorem decodeBit_frame {c : Cell} {b : Bool} (h : decodeBit c s = .ok (b, t)) : CoderOnly s t := by
  obtain ⟨u, hu, -, rfl⟩ := decodeBit_ok.1 h
  exact (normalize_frame hu).trans (decided_frame c)

theorem decodeDirectBit_frame {b : Bool} (h : decodeDirectBit s = .ok (b, t)) : CoderOnly s t := by
  obtain ⟨u, hu, -, rfl⟩ := decodeDirectBit_ok.1 h
  exact (normalize_frame hu).trans rfl

/-- The other cells keep their values through a decision (R62). -/
theorem decided_cell {c d : Cell} (h : d ≠ c) : (s.decided c).cell d = s.cell d := by
  unfold State.decided
  dsimp only
  split <;> rw [State.cell_setCell, if_neg h] <;> rfl

/-- The decided cell adapts (R163). -/
theorem decided_cell_same (c : Cell) : (s.decided c).cell c = adapt (s.cell c) (s.decision c) := by
  unfold State.decided
  rw [State.cell_setCell, if_pos rfl]

/-! ## The arithmetic of R165 -/

/-- The product of R163 fits a `u32` (R165 (b)). -/
theorem bound_toNat {range : Word} {p : Prob} (hp : p.toNat ≤ 2047) :
    (bound range p).toNat = range.toNat / 2048 * p.toNat := by
  have hr := range.isLt
  have h1 : range.toNat / 2048 ≤ 2097151 := by omega
  have h2 : range.toNat / 2048 * p.toNat ≤ 2097151 * 2047 := Nat.mul_le_mul h1 hp
  have h3 : p.toNat % 4294967296 = p.toNat := Nat.mod_eq_of_lt (by omega)
  simp only [bound, Config.probBits, BitVec.toNat_mul, BitVec.toNat_ushiftRight, Nat.shiftRight_eq_div_pow,
    BitVec.toNat_setWidth]
  norm_num only
  rw [h3]
  exact Nat.mod_eq_of_lt (by omega)

/-- `bound < range` (R165 (c)), and both new ranges are at least `2^16` (R165 (e)). -/
theorem bound_range {range : Word} {p : Prob} (hr : 2 ^ 24 ≤ range.toNat) (hp : 31 ≤ p.toNat)
    (hp' : p.toNat ≤ 2017) :
    2 ^ 16 ≤ (bound range p).toNat ∧ (bound range p).toNat + 2 ^ 16 ≤ range.toNat := by
  rw [bound_toNat (by omega)]
  have h1 : 8192 ≤ range.toNat / 2048 := by omega
  have h2 : 8192 * 31 ≤ range.toNat / 2048 * p.toNat := Nat.mul_le_mul h1 hp
  have h3 : range.toNat / 2048 * p.toNat ≤ range.toNat / 2048 * 2017 := Nat.mul_le_mul_left _ hp'
  constructor <;> omega

/-- An adapted cell stays in 31..2017 (R165 (d)). -/
theorem adapt_range {p : Prob} (hp : 31 ≤ p.toNat) (hp' : p.toNat ≤ 2017) (b : Bool) :
    31 ≤ (adapt p b).toNat ∧ (adapt p b).toNat ≤ 2017 := by
  unfold adapt Config.moveBits
  cases b
  · have e1 : (2048 - p).toNat = 2048 - p.toNat := by
      rw [BitVec.toNat_sub_of_le (BitVec.le_def.2 (by rw [show (2048 : BitVec 16).toNat = 2048 from rfl]; omega))]
      rfl
    have e2 : ((2048 - p) >>> 5).toNat = (2048 - p.toNat) / 32 := by
      rw [BitVec.toNat_ushiftRight, e1, Nat.shiftRight_eq_div_pow]
    simp only [Bool.false_eq_true, if_false, BitVec.toNat_add, e2]
    rw [Nat.mod_eq_of_lt (by omega)]
    omega
  · have e2 : (p >>> 5).toNat = p.toNat / 32 := by
      rw [BitVec.toNat_ushiftRight, Nat.shiftRight_eq_div_pow]
    simp only [if_true]
    rw [BitVec.toNat_sub_of_le (BitVec.le_def.2 (by rw [e2]; omega)), e2]
    omega

/-! ## Whole decoders -/

/-- A relation that every decision and every direct bit keeps, and that composes, is kept by every decoder. -/
theorem run_relates {r : State → State → Prop} (refl : ∀ a, r a a) (trans : ∀ {a b c}, r a b → r b c → r a c)
    (bit : ∀ c, Relates r (decodeBit c)) (direct : Relates r decodeDirectBit) (d : Dec α) :
    Relates r d.run := by
  induction d with
  | ret a =>
    intro s b t h
    obtain ⟨-, rfl⟩ := pure_ok.1 h
    exact refl s
  | decide c k ih => exact Relates.bind (r := r) trans (bit c) ih
  | direct k ih => exact Relates.bind (r := r) trans direct ih

/-- A property of states that every decision and every direct bit keeps is kept by every decoder. -/
theorem run_keeps {p : State → Prop} (bit : ∀ c, Ends p (decodeBit c) fun _ => p)
    (direct : Ends p decodeDirectBit fun _ => p) (d : Dec α) : Ends p d.run fun _ => p := by
  induction d with
  | ret a =>
    intro s hs b t h
    obtain ⟨-, rfl⟩ := pure_ok.1 h
    exact hs
  | decide c k ih => exact Ends.bind (bit c) ih
  | direct k ih => exact Ends.bind direct ih

/-- A decoder stops on no access the model stops on, if no decision and no direct bit does. -/
theorem run_traps {p : State → Prop} (bit : ∀ c, Ends p (decodeBit c) fun _ => p)
    (direct : Ends p decodeDirectBit fun _ => p) (bitT : ∀ c, Traps p (decodeBit c))
    (directT : Traps p decodeDirectBit) (d : Dec α) : Traps p d.run := by
  induction d with
  | ret a => intro s _ f h; exact absurd h pure_error
  | decide c k ih => exact Traps.bind (bitT c) (bit c) ih
  | direct k ih => exact Traps.bind directT direct ih

/-- A decoder changes only the range coder, the cells and `in.offset` (R47, R62). -/
theorem run_frame {d : Dec α} {a : α} (h : d.run s = .ok (a, t)) : CoderOnly s t :=
  run_relates CoderOnly.refl CoderOnly.trans (fun _ _ _ _ => decodeBit_frame) (fun _ _ _ => decodeDirectBit_frame)
    d s a t h

/-- Two decoders in a row. -/
theorem run_bind (d : Dec α) (f : α → Dec β) : (d.bind f).run = d.run >>= fun a => (f a).run := by
  induction d with
  | ret a => funext s; rw [bind_run]; rfl
  | decide c k ih =>
    show (decodeBit c >>= fun b => ((k b).bind f).run) = (decodeBit c >>= fun b => (k b).run) >>= _
    rw [bind_assoc]
    exact congrArg _ (funext ih)
  | direct k ih =>
    show (decodeDirectBit >>= fun b => ((k b).bind f).run) = (decodeDirectBit >>= fun b => (k b).run) >>= _
    rw [bind_assoc]
    exact congrArg _ (funext ih)

theorem run_map (f : α → β) (d : Dec α) : (d.map f).run = f <$> d.run := by
  unfold Dec.map
  rw [run_bind, ← bind_pure_comp]
  rfl

theorem run_map_ok {f : α → β} {d : Dec α} {b : β} :
    (d.map f).run s = .ok (b, t) ↔ ∃ a, d.run s = .ok (a, t) ∧ f a = b := by
  unfold Dec.map
  rw [run_bind, bind_ok]
  constructor
  · rintro ⟨a, v, h, h'⟩
    obtain ⟨rfl, rfl⟩ := pure_ok.1 h'
    exact ⟨a, h, rfl⟩
  · rintro ⟨a, h, rfl⟩
    exact ⟨a, t, h, rfl⟩

/-! ## Decoders answered by a string of decisions -/

theorem bits_bind (d : Dec α) (f : α → Dec β) (ds : List Bool) :
    (d.bind f).bits ds = (d.bits ds).bind fun p => (f p.1).bits p.2 := by
  induction d generalizing ds with
  | ret a => rfl
  | decide c k ih => cases ds <;> simp [Dec.bind, Dec.bits, ih]
  | direct k ih => cases ds <;> simp [Dec.bind, Dec.bits, ih]

theorem bits_map (f : α → β) (d : Dec α) (ds : List Bool) :
    (d.map f).bits ds = (d.bits ds).map fun p => (f p.1, p.2) := by
  rw [Dec.map, bits_bind]
  cases d.bits ds <;> rfl

end Sys2Proof.Machine
end

