-- ==== Sys2Proof/Laws/Dict.lean ====
section
/-! SUPPORT. What the input cursor's, the dictionary's and `rc.init`'s operations can do (spec/40_input_cursor.md R131, R132,
spec/41_dictionary.md R142 to R148, spec/42_range_coder.md R160), each said once. -/

namespace Sys2Proof.Machine

variable {s t u : State}

/-! ## The input cursor -/

theorem viewBytes_eq_some {m : Mem} {a n : Nat} {bs : List Byte} :
    viewBytes m a n = some bs ↔ bs.length = n ∧ ∀ k, k < n → m.read (a + k) = bs[k]? := by
  induction n generalizing a bs with
  | zero => simp [viewBytes, List.length_eq_zero_iff, eq_comm (a := ([] : List Byte))]
  | succ n ih =>
    simp only [viewBytes]
    cases hr : m.read a with
    | none =>
      simp only [false_iff, not_and, reduceCtorEq]
      intro hl h
      have := h 0 (by omega)
      rw [Nat.add_zero, hr, List.getElem?_eq_getElem (by omega)] at this
      simp at this
    | some b =>
      simp only [Option.map_eq_some_iff, ih]
      constructor
      · rintro ⟨cs, ⟨hl, h⟩, rfl⟩
        refine ⟨by simp [hl], fun k hk => ?_⟩
        cases k with
        | zero => simp [hr]
        | succ k => rw [← Nat.add_assoc, Nat.add_right_comm, h k (by omega), List.getElem?_cons_succ]
      · rintro ⟨hl, h⟩
        cases bs with
        | nil => simp at hl
        | cons c cs =>
          have h0 := h 0 (by omega)
          simp only [Nat.add_zero, hr, List.getElem?_cons_zero, Option.some.injEq] at h0
          subst h0
          refine ⟨cs, ⟨by simpa using hl, fun k hk => ?_⟩, rfl⟩
          have := h (k + 1) (by omega)
          rwa [← Nat.add_assoc, Nat.add_right_comm, List.getElem?_cons_succ] at this

/-- `in.reserve` succeeds exactly when `n` bytes are left and hold values, and moves the cursor past them. -/
theorem reserve_ok {n : Nat} {bs : List Byte} :
    reserve n s = .ok (bs, t) ↔
      s.inp.offset + n ≤ s.inp.size ∧ viewBytes s.inp.bytes s.inp.offset n = some bs ∧
        t = s.advance n := by
  unfold reserve
  by_cases h : s.inp.offset + n > s.inp.size
  · simp [h, Nat.not_le.2 h]
  · rw [if_neg h]
    cases hv : viewBytes s.inp.bytes s.inp.offset n with
    | none => simp
    | some cs =>
      simp only [Except.ok.injEq, Prod.mk.injEq, Nat.not_lt.1 h, true_and, Option.some.injEq]
      exact and_congr_right fun _ => eq_comm

theorem reserve_error {n : Nat} {e : Stop} :
    reserve n s = .error e ↔
      (s.inp.size < s.inp.offset + n ∧ e = .raised (.endOfInput s.inp.offset) s) ∨
      (s.inp.offset + n ≤ s.inp.size ∧ viewBytes s.inp.bytes s.inp.offset n = none ∧
        e = .trap .inNoValue) := by
  unfold reserve
  by_cases h : s.inp.offset + n > s.inp.size
  · rw [if_pos h]
    simp only [raise_error, h, true_and, Nat.not_le.2 h, false_and, or_false]
    exact eq_comm
  · rw [if_neg h]
    cases hv : viewBytes s.inp.bytes s.inp.offset n with
    | none =>
      simp only [trap_error, h, false_and, Nat.not_lt.1 h, true_and, false_or]
      exact eq_comm
    | some cs => simp [h]

/-! ## The dictionary -/

/-- A read of `OUT` changes nothing. -/
theorem readOut_ok {a : Nat} {b : Byte} :
    readOut a s = .ok (b, t) ↔ a < s.dict.bufferSize ∧ s.dict.out.read a = some b ∧ t = s := by
  unfold readOut
  by_cases h : a < s.dict.bufferSize
  · rw [if_pos h]
    cases hr : s.dict.out.read a with
    | none => simp
    | some c =>
      simp only [Except.ok.injEq, Prod.mk.injEq, h, true_and, Option.some.injEq]
      exact and_congr_right fun _ => eq_comm
  · simp [h]

theorem readOut_error {a : Nat} {e : Stop} :
    readOut a s = .error e ↔
      (a < s.dict.bufferSize ∧ s.dict.out.read a = none ∧ e = .trap .outNoValue) ∨
      (¬a < s.dict.bufferSize ∧ e = .trap .outNoAddress) := by
  unfold readOut
  by_cases h : a < s.dict.bufferSize
  · rw [if_pos h]
    cases hr : s.dict.out.read a with
    | none =>
      simp only [trap_error, h, true_and, not_true_eq_false, false_and, or_false]
      exact eq_comm
    | some c => simp [h]
  · rw [if_neg h]
    simp only [trap_error, h, false_and, not_false_eq_true, true_and, false_or]
    exact eq_comm

theorem appendByte_ok {b : Byte} {a : Unit} :
    appendByte b s = .ok (a, t) ↔ s.dict.position < s.dict.bufferSize ∧ t = s.append b := by
  unfold appendByte
  by_cases h : s.dict.position < s.dict.bufferSize
  · rw [if_pos h]
    simp only [Except.ok.injEq, Prod.mk.injEq, h, true_and]
    exact eq_comm
  · simp [h]

theorem appendByte_error {b : Byte} {e : Stop} :
    appendByte b s = .error e ↔ ¬s.dict.position < s.dict.bufferSize ∧ e = .trap .outNoAddress := by
  unfold appendByte
  by_cases h : s.dict.position < s.dict.bufferSize
  · simp [h]
  · rw [if_neg h]
    simp only [trap_error, h, not_false_eq_true, true_and]
    exact eq_comm

/-- `dict.set_limit` succeeds exactly when the chunk fits in the buffer (R142). -/
theorem setLimit_ok {n : Nat} {a : Unit} :
    setLimit n s = .ok (a, t) ↔ s.dict.position + n ≤ s.dict.bufferSize ∧ t = s.setLimit n := by
  unfold setLimit
  by_cases h : s.dict.position + n > s.dict.bufferSize
  · simp [h, Nat.not_le.2 h]
  · rw [if_neg h]
    simp only [Except.ok.injEq, Prod.mk.injEq, Nat.not_lt.1 h, true_and]
    exact eq_comm

theorem setLimit_error {n : Nat} {e : Stop} :
    setLimit n s = .error e ↔
      s.dict.bufferSize < s.dict.position + n ∧
        e = .raised (.outputOverflow s.dict.position n) s := by
  unfold setLimit
  by_cases h : s.dict.position + n > s.dict.bufferSize
  · rw [if_pos h]
    simp only [raise_error, h, true_and]
    exact eq_comm
  · simp [h]

/-- `dict.put_literal` below the limit appends; at the limit it raises `Full` (R144). -/
theorem putLiteral_ok {b : Byte} {a : Unit} :
    putLiteral b s = .ok (a, t) ↔ s.dict.position ≠ s.dict.limit ∧ appendByte b s = .ok (a, t) := by
  unfold putLiteral
  by_cases h : s.dict.position = s.dict.limit <;> simp [h]

theorem putLiteral_error {b : Byte} {e : Stop} :
    putLiteral b s = .error e ↔
      (s.dict.position = s.dict.limit ∧ e = .raised (.full s.dict.position) s) ∨
      (s.dict.position ≠ s.dict.limit ∧ appendByte b s = .error e) := by
  unfold putLiteral
  by_cases h : s.dict.position = s.dict.limit
  · rw [if_pos h]
    simp only [raise_error, h, true_and, ne_eq, not_true_eq_false, false_and, or_false]
    exact eq_comm
  · simp [h]

/-- One byte of a copy: the distance test, the limit test, then the byte `distance` back appended (R146). -/
theorem copyByte_ok {d : Nat} {a : Unit} :
    copyByte d s = .ok (a, t) ↔
      d ≤ s.dict.position ∧ s.dict.position ≠ s.dict.limit ∧
        ∃ b, readOut (s.dict.position - d) s = .ok (b, s) ∧ appendByte b s = .ok (a, t) := by
  unfold copyByte
  by_cases h : d > s.dict.position
  · simp [h, Nat.not_le.2 h]
  · rw [if_neg h]
    by_cases h' : s.dict.position = s.dict.limit
    · simp [h']
    · rw [if_neg h', bind_ok]
      constructor
      · rintro ⟨b, v, h₁, h₂⟩
        have hv := (readOut_ok.1 h₁).2.2
        subst hv
        exact ⟨Nat.not_lt.1 h, h', b, h₁, h₂⟩
      · rintro ⟨-, -, b, h₁, h₂⟩
        exact ⟨b, _, h₁, h₂⟩

theorem copyByte_error {d : Nat} {e : Stop} :
    copyByte d s = .error e ↔
      (s.dict.position < d ∧ e = .raised (.invalidDistance d s.dict.position) s) ∨
      (d ≤ s.dict.position ∧ s.dict.position = s.dict.limit ∧
        e = .raised (.full s.dict.position) s) ∨
      (d ≤ s.dict.position ∧ s.dict.position ≠ s.dict.limit ∧
        (readOut (s.dict.position - d) s = .error e ∨ ∃ b, appendByte b s = .error e ∧
          readOut (s.dict.position - d) s = .ok (b, s))) := by
  unfold copyByte
  by_cases h : d > s.dict.position
  · rw [if_pos h]
    simp only [raise_error, h, true_and, Nat.not_le.2 h, false_and, or_false]
    exact eq_comm
  · rw [if_neg h]
    simp only [h, false_and, Nat.not_lt.1 h, true_and, false_or]
    by_cases h' : s.dict.position = s.dict.limit
    · rw [if_pos h']
      simp only [raise_error, h', true_and, ne_eq, not_true_eq_false, false_and, or_false]
      exact eq_comm
    · rw [if_neg h', bind_error]
      simp only [h', false_and, false_or, ne_eq, not_false_eq_true, true_and]
      refine or_congr_right ⟨?_, ?_⟩
      · rintro ⟨b, v, h₁, h₂⟩
        have hv := (readOut_ok.1 h₁).2.2
        subst hv
        exact ⟨b, h₂, h₁⟩
      · rintro ⟨b, h₂, h₁⟩
        exact ⟨b, _, h₁, h₂⟩

theorem copyBytes_succ_ok {d n : Nat} {a : Unit} :
    copyBytes d (n + 1) s = .ok (a, t) ↔ ∃ u, copyByte d s = .ok ((), u) ∧ copyBytes d n u = .ok (a, t) := by
  show (copyByte d >>= fun _ => copyBytes d n) s = _ ↔ _
  rw [bind_ok]
  exact ⟨fun ⟨_, v, h⟩ => ⟨v, h⟩, fun ⟨v, h⟩ => ⟨(), v, h⟩⟩

theorem copyBytes_succ_error {d n : Nat} {e : Stop} :
    copyBytes d (n + 1) s = .error e ↔
      copyByte d s = .error e ∨ ∃ u, copyByte d s = .ok ((), u) ∧ copyBytes d n u = .error e := by
  show (copyByte d >>= fun _ => copyBytes d n) s = _ ↔ _
  rw [bind_error]
  exact or_congr_right ⟨fun ⟨_, v, h⟩ => ⟨v, h⟩, fun ⟨v, h⟩ => ⟨(), v, h⟩⟩

/-- `dict.byte_at` changes nothing: distance 0 is refused, an address before the buffer reads as 0 (R148). -/
theorem byteAt_ok {d : Nat} {b : Byte} :
    byteAt d s = .ok (b, t) ↔
      d ≠ 0 ∧ t = s ∧ ((s.dict.position < d ∧ b = 0) ∨
        (d ≤ s.dict.position ∧ readOut (s.dict.position - d) s = .ok (b, s))) := by
  unfold byteAt
  by_cases h0 : d = 0
  · simp [h0]
  · rw [if_neg h0]
    by_cases h : d > s.dict.position
    · rw [if_pos h]
      simp only [Except.ok.injEq, Prod.mk.injEq, h0, ne_eq, not_false_eq_true, true_and, h, Nat.not_le.2 h,
        false_and, or_false]
      constructor
      · rintro ⟨rfl, rfl⟩; exact ⟨rfl, rfl⟩
      · rintro ⟨rfl, rfl⟩; exact ⟨rfl, rfl⟩
    · rw [if_neg h]
      simp only [h0, ne_eq, not_false_eq_true, true_and, h, false_and, Nat.not_lt.1 h, false_or]
      constructor
      · intro h₁
        have hv := (readOut_ok.1 h₁).2.2
        subst hv
        exact ⟨rfl, h₁⟩
      · rintro ⟨rfl, h₁⟩
        exact h₁

theorem byteAt_error {d : Nat} {e : Stop} :
    byteAt d s = .error e ↔
      (d = 0 ∧ e = .refuse .distanceZero) ∨
      (d ≠ 0 ∧ d ≤ s.dict.position ∧ readOut (s.dict.position - d) s = .error e) := by
  unfold byteAt
  by_cases h0 : d = 0
  · rw [if_pos h0]
    simp only [refuse_error, h0, true_and, ne_eq, not_true_eq_false, false_and, or_false]
    exact eq_comm
  · rw [if_neg h0]
    by_cases h : d > s.dict.position
    · simp [h0, h, Nat.not_le.2 h]
    · simp [h0, h, Nat.not_lt.1 h]

/-! ## `rc.init` (R160) -/

/-- Five bytes read in a row: the cursor has moved past them. -/
theorem readPayloadHeader_ok {w : Word} :
    readPayloadHeader s = .ok (w, t) ↔
      ∃ b1 b2 b3 b4, readByte s = .ok (0x00, s.advance 1) ∧
        readByte (s.advance 1) = .ok (b1, (s.advance 1).advance 1) ∧
        readByte ((s.advance 1).advance 1) = .ok (b2, ((s.advance 1).advance 1).advance 1) ∧
        readByte (((s.advance 1).advance 1).advance 1) =
          .ok (b3, (((s.advance 1).advance 1).advance 1).advance 1) ∧
        readByte ((((s.advance 1).advance 1).advance 1).advance 1) = .ok (b4, t) ∧
        w = (b1.setWidth 32 <<< 24) ||| (b2.setWidth 32 <<< 16) ||| (b3.setWidth 32 <<< 8) |||
          b4.setWidth 32 := by
  unfold readPayloadHeader
  simp only [bind_ok]
  constructor
  · rintro ⟨b0, t0, h0, b1, t1, h1, b2, t2, h2, b3, t3, h3, b4, t4, h4, h⟩
    split at h
    · next hb =>
      subst hb
      obtain ⟨rfl, rfl⟩ := pure_ok.1 h
      obtain ⟨-, -, rfl⟩ := readByte_ok.1 h0
      obtain ⟨-, -, rfl⟩ := readByte_ok.1 h1
      obtain ⟨-, -, rfl⟩ := readByte_ok.1 h2
      obtain ⟨-, -, rfl⟩ := readByte_ok.1 h3
      exact ⟨b1, b2, b3, b4, h0, h1, h2, h3, h4, rfl⟩
    · simp at h
  · rintro ⟨b1, b2, b3, b4, h0, h1, h2, h3, h4, rfl⟩
    exact ⟨0x00, _, h0, b1, _, h1, b2, _, h2, b3, _, h3, b4, _, h4, by simp⟩

/-- `rc.init` succeeds exactly with a payload of at least five bytes whose header can be read and starts with 0. -/
theorem rcInit_ok {n : Nat} {a : Unit} :
    rcInit n s = .ok (a, t) ↔
      Config.rcInitBytes ≤ n ∧ ∃ w u, readPayloadHeader s = .ok (w, u) ∧ t = u.loadCoder w n := by
  unfold rcInit
  by_cases h : n < Config.rcInitBytes
  · simp [h, Nat.not_le.2 h]
  · rw [if_neg h, bind_ok]
    simp only [update_ok, Nat.not_lt.1 h, true_and]
    exact ⟨fun ⟨w, u, h₁, h₂⟩ => ⟨w, u, h₁, h₂.symm⟩, fun ⟨w, u, h₁, h₂⟩ => ⟨w, u, h₁, h₂.symm⟩⟩

end Sys2Proof.Machine
end

