-- ==== Sys2Proof/Laws/Engine.lean ====
section
/-! SUPPORT. What decoding does to the state, said once for every operation from `rc.normalize` up to `lz.decode`'s loop
(spec/10_state.md R47, spec/43_lzma_engine.md R190 to R205): the frame, the payload bytes spent, the bytes of `OUT`
written; and that the loop's bound on packets is never the reason it ends. -/

namespace Sys2Proof

/-- How many bytes a packet writes. -/
def Packet.bytes : Packet → Nat
  | .lit _ => 1
  | .matchNew len _ => len
  | .shortRep => 1
  | .longRep0 len => len
  | .longRep1 len => len
  | .longRep2 len => len
  | .longRep3 len => len

end Sys2Proof

namespace Sys2Proof.Machine

variable {α β : Type} {s t u : State}

/-! ## The relation of decoding -/

/-- What decoding can change: the range coder but for its budget, the engine, the cells, the position, `OUT` between the
old position and the new, and `in.offset`, which moves by as many bytes as `rc.remaining` falls. -/
structure Decodes (s t : State) : Prop where
  frame : t = { s with
    rc := { t.rc with budget := s.rc.budget }
    lz := t.lz
    probs := t.probs
    dict := { s.dict with position := t.dict.position, out := t.dict.out }
    inp := { s.inp with offset := t.inp.offset } }
  spent : s.inp.offset + s.rc.remaining.toNat = t.inp.offset + t.rc.remaining.toNat
  fewer : t.rc.remaining.toNat ≤ s.rc.remaining.toNat
  grown : s.dict.position ≤ t.dict.position
  ordered : s.dict.position ≤ s.dict.limit → t.dict.position ≤ s.dict.limit
  kept : ∀ a, (a < s.dict.position ∨ t.dict.position ≤ a) → t.dict.out.read a = s.dict.out.read a

theorem Decodes.refl (s : State) : Decodes s s := ⟨rfl, rfl, le_rfl, le_rfl, id, fun _ _ => rfl⟩

theorem Decodes.limit (h : Decodes s t) : t.dict.limit = s.dict.limit := by rw [h.frame]

theorem Decodes.fault (h : Decodes s t) : t.fault = s.fault := by rw [h.frame]

theorem Decodes.stage (h : Decodes s t) : t.stage = s.stage := by rw [h.frame]

theorem Decodes.trans (h₁ : Decodes s t) (h₂ : Decodes t u) : Decodes s u where
  frame := by
    have e₁ := h₁.frame
    have e₂ := h₂.frame
    rw [e₁] at e₂
    rw [e₂]
  spent := h₁.spent.trans h₂.spent
  fewer := le_trans h₂.fewer h₁.fewer
  grown := le_trans h₁.grown h₂.grown
  ordered := fun h => by
    have := h₂.ordered (by rw [h₁.limit]; exact h₁.ordered h)
    rwa [h₁.limit] at this
  kept := fun a ha => by
    have g₁ := h₁.grown
    have g₂ := h₂.grown
    rw [h₂.kept a (by omega), h₁.kept a (by omega)]

theorem Decodes.of_same (s : State) {t : State} (hf : t = { s with rc := t.rc, lz := t.lz, probs := t.probs })
    (hb : t.rc.budget = s.rc.budget) (hr : t.rc.remaining = s.rc.remaining) : Decodes s t := by
  have hd : t.dict = s.dict := by rw [hf]
  have hi : t.inp = s.inp := by rw [hf]
  refine ⟨by rw [hd, hi, ← hb]; exact hf, by rw [hi, hr], by rw [hr], by rw [hd], fun h => by rwa [hd],
    fun _ _ => by rw [hd]⟩

theorem decodes_normalize : Relates Decodes normalize := by
  intro s _ t h
  rcases normalize_ok.1 h with ⟨-, rfl⟩ | ⟨-, hrem, b, hb, rfl⟩
  · exact Decodes.refl _
  · have hpos : s.rc.remaining.toNat ≠ 0 := fun e => hrem (BitVec.eq_of_toNat_eq e)
    have e1 : (s.rc.remaining - 1).toNat = s.rc.remaining.toNat - 1 :=
      BitVec.toNat_sub_of_le (BitVec.le_def.2 (by show 1 ≤ _; omega))
    refine ⟨rfl, ?_, ?_, le_rfl, id, fun _ _ => rfl⟩
    · show s.inp.offset + s.rc.remaining.toNat = s.inp.offset + 1 + (s.rc.remaining - 1).toNat
      omega
    · show (s.rc.remaining - 1).toNat ≤ _
      omega

theorem decodes_decided (s : State) (c : Cell) : Decodes s (s.decided c) := by
  unfold State.decided
  dsimp only
  split <;> exact Decodes.of_same s rfl rfl rfl

theorem decodes_decodeBit (c : Cell) : Relates Decodes (decodeBit c) := by
  intro s b t h
  obtain ⟨u, hu, -, rfl⟩ := decodeBit_ok.1 h
  exact (decodes_normalize s _ u hu).trans (decodes_decided u c)

theorem decodes_decodeDirectBit : Relates Decodes decodeDirectBit := by
  intro s b t h
  obtain ⟨u, hu, -, rfl⟩ := decodeDirectBit_ok.1 h
  exact (decodes_normalize s _ u hu).trans (Decodes.of_same u rfl rfl rfl)

theorem decodes_run (d : Dec α) : Relates Decodes d.run :=
  run_relates Decodes.refl Decodes.trans decodes_decodeBit decodes_decodeDirectBit d

/-! ## Packets -/

theorem decodes_append {b : Byte} (hl : s.dict.position ≠ s.dict.limit) : Decodes s (s.append b) := by
  refine ⟨rfl, rfl, le_rfl, ?_, fun hle => ?_, fun a ha => ?_⟩
  · show s.dict.position ≤ s.dict.position + 1
    omega
  · show s.dict.position + 1 ≤ s.dict.limit
    omega
  · show (s.dict.out.write s.dict.position b).read a = _
    refine Mem.read_write_other _ _ ?_
    have : (s.append b).dict.position = s.dict.position + 1 := rfl
    omega

theorem decodes_putLiteral (b : Byte) : Relates Decodes (putLiteral b) := by
  intro s _ t h
  obtain ⟨hl, h⟩ := putLiteral_ok.1 h
  obtain ⟨hb, rfl⟩ := appendByte_ok.1 h
  exact decodes_append hl

theorem decodes_copyByte (d : Nat) : Relates Decodes (copyByte d) := by
  intro s _ t h
  obtain ⟨-, hl, b, -, h⟩ := copyByte_ok.1 h
  obtain ⟨hb, rfl⟩ := appendByte_ok.1 h
  exact decodes_append hl

theorem decodes_copyBytes (d n : Nat) : Relates Decodes (copyBytes d n) := by
  induction n with
  | zero => intro s _ t h; obtain ⟨-, rfl⟩ := pure_ok.1 h; exact Decodes.refl _
  | succ n ih =>
    intro s _ t h
    obtain ⟨u, h₁, h₂⟩ := copyBytes_succ_ok.1 h
    exact (decodes_copyByte d s _ u h₁).trans (ih u _ t h₂)

/-- A copy that ends has moved the position by its length. -/
theorem copyBytes_position {d n : Nat} {a : Unit} (h : copyBytes d n s = .ok (a, t)) :
    t.dict.position = s.dict.position + n := by
  induction n generalizing s with
  | zero => obtain ⟨-, rfl⟩ := pure_ok.1 h; rfl
  | succ n ih =>
    obtain ⟨u, h₁, h₂⟩ := copyBytes_succ_ok.1 h
    obtain ⟨-, hl, b, -, h₁⟩ := copyByte_ok.1 h₁
    obtain ⟨hb, rfl⟩ := appendByte_ok.1 h₁
    rw [ih h₂, State.append_dict]
    show s.dict.position + 1 + n = _
    omega

/-- A copy of at least one byte starts at most its distance after the start of the buffer. -/
theorem copyBytes_distance {d n : Nat} {a : Unit} (hn : n ≠ 0) (h : copyBytes d n s = .ok (a, t)) :
    d ≤ s.dict.position := by
  cases n with
  | zero => exact absurd rfl hn
  | succ n =>
    obtain ⟨u, h₁, -⟩ := copyBytes_succ_ok.1 h
    exact (copyByte_ok.1 h₁).1

theorem copyMatch_ok {d n : Nat} {a : Unit} :
    copyMatch d n s = .ok (a, t) ↔ d ≠ 0 ∧ copyBytes d n s = .ok (a, t) := by
  unfold copyMatch
  by_cases h : d = 0 <;> simp [h]

/-- The samples of a packet change nothing. -/
theorem litContext_ok {x : PacketCtx} (h : litContext s = .ok (x, t)) : t = s := by
  unfold litContext at h
  obtain ⟨y, u, h₁, h⟩ := bind_ok.1 h
  obtain ⟨rfl, rfl⟩ := look_ok.1 h₁
  obtain ⟨p, v, h₂, h⟩ := bind_ok.1 h
  have hv := (byteAt_ok.1 h₂).2.1
  subst hv
  split at h
  · obtain ⟨-, rfl⟩ := pure_ok.1 h; rfl
  · obtain ⟨r, w, h₃, h⟩ := bind_ok.1 h
    obtain ⟨rfl, rfl⟩ := look_ok.1 h₃
    obtain ⟨m, z, h₄, h⟩ := bind_ok.1 h
    obtain ⟨-, rfl⟩ := pure_ok.1 h
    exact (byteAt_ok.1 h₄).2.1

theorem sampleContext_ok {k : PacketKind} {x : PacketCtx} (h : sampleContext k s = .ok (x, t)) : t = s := by
  cases k
  case lit => exact litContext_ok h
  all_goals exact (look_ok.1 h).2.symm

theorem copyFrom_ok {lz : Engine} {n : Nat} {a : Unit} :
    copyFrom lz n s = .ok (a, t) ↔ copyBytes (lz.rep0.toNat + 1) n (s.setEngine lz) = .ok (a, t) := by
  unfold copyFrom
  rw [bind_ok]
  simp only [update_ok, copyMatch_ok]
  constructor
  · rintro ⟨_, u, rfl, -, h⟩; exact h
  · intro h; exact ⟨(), _, rfl, by omega, h⟩

theorem decodes_setEngine (s : State) (lz : Engine) : Decodes s (s.setEngine lz) := Decodes.of_same s rfl rfl rfl

theorem decodes_copyFrom (lz : Engine) (n : Nat) : Relates Decodes (copyFrom lz n) := fun s _ t h =>
  (decodes_setEngine s lz).trans (decodes_copyBytes _ _ _ _ t (copyFrom_ok.1 h))

/-- A packet with room at its start goes on; one at the limit takes `Full` (R190). -/
theorem needRoom_ok {a : Unit} : needRoom s = .ok (a, t) ↔ s.dict.position ≠ s.dict.limit ∧ s = t := by
  unfold needRoom; split <;> simp_all

theorem needRoom_error {e : Stop} :
    needRoom s = .error e ↔ s.dict.position = s.dict.limit ∧ .raised (.full s.dict.position) s = e := by
  unfold needRoom; split <;> simp_all

/-- With room at its start, a packet's effect is what its rule writes. -/
theorem needRoom_bind {m : M α} (h : s.dict.position ≠ s.dict.limit) : (needRoom >>= fun _ => m) s = m s := by
  rw [bind_run]
  simp [needRoom, h]

/-- At the limit every packet takes `Full` (R190, decision D24). -/
theorem applyPacket_full {p : Packet} (h : s.dict.position = s.dict.limit) :
    applyPacket p s = .error (.raised (.full s.dict.position) s) := by
  unfold applyPacket
  exact bind_error.2 (.inl (needRoom_error.2 ⟨h, rfl⟩))

/-- A packet that takes effect decodes, and moves the position by the bytes it writes. -/
theorem applyPacket_ok {p : Packet} {a : Unit} (h : applyPacket p s = .ok (a, t)) :
    Decodes s t ∧ t.dict.position = s.dict.position + p.bytes := by
  unfold applyPacket at h
  obtain ⟨_, s', h₀, h⟩ := bind_ok.1 h
  obtain ⟨-, rfl⟩ := needRoom_ok.1 h₀
  obtain ⟨lz, u, h₁, h⟩ := bind_ok.1 h
  obtain ⟨rfl, rfl⟩ := look_ok.1 h₁
  have copy : ∀ {lz : Engine} {n : Nat}, copyFrom lz n s = .ok (a, t) →
      Decodes s t ∧ t.dict.position = s.dict.position + n := by
    intro lz n h
    have hc := copyFrom_ok.1 h
    have hp := copyBytes_position hc
    exact ⟨decodes_copyFrom lz n s a t h, hp⟩
  cases p
  case lit b =>
    obtain ⟨_, v, h₂, h⟩ := bind_ok.1 h
    have hu := update_ok.1 h
    subst hu
    obtain ⟨hl, h₃⟩ := putLiteral_ok.1 h₂
    obtain ⟨hb, rfl⟩ := appendByte_ok.1 h₃
    exact ⟨(decodes_append hl).trans (decodes_setEngine _ _), rfl⟩
  case matchNew len dist =>
    obtain ⟨o, v, h₂, h⟩ := bind_ok.1 h
    obtain ⟨rfl, rfl⟩ := look_ok.1 h₂
    split at h
    · exact absurd h raise_ok
    · exact copy h
  all_goals exact copy h

theorem decodes_packetBody (k : PacketKind) : Relates Decodes (packetBody k) := by
  intro s _ t h
  obtain ⟨x, u, h₁, h₂⟩ := bind_ok.1 h
  obtain rfl := sampleContext_ok h₁
  obtain ⟨p, v, h₃, h₄⟩ := bind_ok.1 h₂
  exact (decodes_run _ _ _ v h₃).trans (applyPacket_ok h₄).1

/-! ## What a decoder can yield -/

/-- Every result of a decoder has a property. -/
def Yields (p : α → Prop) : Dec α → Prop
  | .ret a => p a
  | .decide _ k => ∀ b, Yields p (k b)
  | .direct k => ∀ b, Yields p (k b)

theorem Yields.run {p : α → Prop} {d : Dec α} {a : α} (hd : Yields p d) (h : d.run s = .ok (a, t)) : p a := by
  induction d generalizing s with
  | ret b => obtain ⟨rfl, -⟩ := pure_ok.1 h; exact hd
  | decide c k ih => obtain ⟨b, u, -, h⟩ := bind_ok.1 h; exact ih b (hd b) h
  | direct k ih => obtain ⟨b, u, -, h⟩ := bind_ok.1 h; exact ih b (hd b) h

theorem Yields.bits {p : α → Prop} {d : Dec α} {a : α} {ds rest : List Bool} (hd : Yields p d)
    (h : d.bits ds = some (a, rest)) : p a := by
  induction d generalizing ds with
  | ret b => simp only [Dec.bits, Option.some.injEq, Prod.mk.injEq] at h; rw [← h.1]; exact hd
  | decide c k ih => cases ds <;> simp only [Dec.bits, reduceCtorEq] at h; exact ih _ (hd _) h
  | direct k ih => cases ds <;> simp only [Dec.bits, reduceCtorEq] at h; exact ih _ (hd _) h

theorem Yields.bind {p : α → Prop} {q : β → Prop} {d : Dec α} {f : α → Dec β} (hd : Yields p d)
    (hf : ∀ a, p a → Yields q (f a)) : Yields q (d.bind f) := by
  induction d with
  | ret a => exact hf a hd
  | decide c k ih => exact fun b => ih b (hd b)
  | direct k ih => exact fun b => ih b (hd b)

theorem Yields.map {p : α → Prop} {q : β → Prop} {d : Dec α} {f : α → β} (hd : Yields p d)
    (hf : ∀ a, p a → q (f a)) : Yields q (d.map f) := hd.bind hf

theorem yields_walk (t : Probs) (n m : Nat) : Yields (fun v => m * 2 ^ n ≤ v ∧ v < (m + 1) * 2 ^ n) (Dec.walk t n m) := by
  induction n generalizing m with
  | zero => simp [Dec.walk, Yields]
  | succ n ih =>
    intro b
    have h := ih (2 * m + b.toNat)
    have hb : b.toNat ≤ 1 := Bool.toNat_le b
    have := h.bind (f := Dec.ret) (q := fun v => m * 2 ^ (n + 1) ≤ v ∧ v < (m + 1) * 2 ^ (n + 1)) fun v hv => by
      refine ⟨le_trans ?_ hv.1, lt_of_lt_of_le hv.2 ?_⟩
      · rw [pow_succ']; nlinarith [Nat.two_pow_pos n]
      · rw [pow_succ']; nlinarith [Nat.two_pow_pos n]
    have id_bind : ∀ (d : Dec Nat), d.bind Dec.ret = d := by
      intro d
      induction d with
      | ret a => rfl
      | decide c k ih => simp [Dec.bind, ih]
      | direct k ih => simp [Dec.bind, ih]
    rwa [id_bind] at this

/-- A tree of `n` decisions yields an `n`-bit number (R170). -/
theorem yields_tree (t : Probs) (n : Nat) : Yields (fun v => v < 2 ^ n) (Dec.tree t n) :=
  (yields_walk t n 1).map fun v hv => by
    have := Nat.two_pow_pos n
    omega

theorem yields_lenBody (l : LenCoder) (ps : BitVec 2) (k : LenClass) :
    Yields (fun v => 2 ≤ v ∧ v ≤ 273) (lenBodyTree l ps k) := by
  cases k
  · exact (yields_tree _ 3).map fun v hv => by constructor <;> omega
  · exact (yields_tree _ 3).map fun v hv => by constructor <;> omega
  · exact (yields_tree _ 8).map fun v hv => by constructor <;> omega

/-- A length code yields 2..273 (R99, R204). -/
theorem yields_length (l : LenCoder) (ps : BitVec 2) : Yields (fun v => 2 ≤ v ∧ v ≤ 273) (lengthTree l ps) := by
  have h : Yields (fun _ => True) (lenClassTree l) := by
    intro b; cases b
    · trivial
    · intro b; trivial
  exact h.bind fun k _ => yields_lenBody l ps k

/-- A packet's operands give it at least one byte to write. -/
theorem yields_operand (x : PacketCtx) (k : PacketKind) : Yields (fun p => 1 ≤ p.bytes) (operandTree x k) := by
  have any : ∀ {γ : Type} (d : Dec γ), Yields (fun _ => True) d := by
    intro γ d
    induction d with
    | ret a => trivial
    | decide c k ih => exact ih
    | direct k ih => exact ih
  cases k
  case lit => exact (any _).map fun _ _ => le_rfl
  case matchNew =>
    refine (yields_length _ _).bind fun len hlen => (any _).map fun d _ => ?_
    show 1 ≤ len
    omega
  case shortRep => exact le_rfl
  all_goals exact (yields_length _ _).map fun len hlen => by show 1 ≤ len; omega

/-! ## `lz.decode`'s loop (R190) -/

/-- A packet of the loop decodes and writes at least one byte. -/
theorem onePacket_ok {a : Unit} (h : onePacket s = .ok (a, t)) :
    Decodes s t ∧ s.dict.position < t.dict.position := by
  obtain ⟨x, u, h₁, h'⟩ := bind_ok.1 h
  obtain ⟨rfl, rfl⟩ := look_ok.1 h₁
  obtain ⟨k, v, h₂, h''⟩ := bind_ok.1 h'
  obtain ⟨x', w, h₃, h₅⟩ := bind_ok.1 h''
  obtain rfl := sampleContext_ok h₃
  obtain ⟨p, z, h₄, h₆⟩ := bind_ok.1 h₅
  have d₁ := decodes_run _ _ _ _ h₂
  have d₂ := decodes_run _ _ _ _ h₄
  have d₃ := applyPacket_ok h₆
  have hp := (yields_operand x' k).run h₄
  refine ⟨(d₁.trans d₂).trans d₃.1, ?_⟩
  have := d₁.grown
  have := d₂.grown
  omega

/-- The loop, one packet at a time. -/
theorem packetLoop_succ (n : Nat) (s : State) :
    packetLoop (n + 1) s = (match onePacket s with
      | .ok (_, t) => if t.dict.position ≥ t.dict.limit then .ok ((), t) else packetLoop n t
      | .error e => .error e) := by
  show (onePacket >>= fun _ => look (fun s => decide (s.dict.position ≥ s.dict.limit)) >>= fun full =>
    if full then pure () else packetLoop n) s = _
  rw [bind_run]
  cases h : onePacket s with
  | error e => rfl
  | ok p =>
    obtain ⟨⟨⟩, t⟩ := p
    show (look _ >>= _) t = _
    rw [bind_run]
    show (if decide (t.dict.position ≥ t.dict.limit) = true then (pure () : M Unit) else packetLoop n) t = _
    by_cases hl : t.dict.position ≥ t.dict.limit
    · simp only [hl, decide_true, if_true]; rfl
    · simp only [hl, decide_false, Bool.false_eq_true, if_false]

theorem decodes_packetLoop (n : Nat) : Relates Decodes (packetLoop n) := by
  induction n with
  | zero => intro s _ t h; obtain ⟨-, rfl⟩ := pure_ok.1 h; exact Decodes.refl _
  | succ n ih =>
    intro s a t h
    rw [packetLoop_succ] at h
    cases h₁ : onePacket s with
    | error e => rw [h₁] at h; cases h
    | ok p =>
      obtain ⟨⟨⟩, u⟩ := p
      rw [h₁] at h
      dsimp only at h
      split at h
      · cases h; exact (onePacket_ok h₁).1
      · exact (onePacket_ok h₁).1.trans (ih u a t h)

/-- The loop ends by its own exit test: at the limit. Its bound on packets is large enough. -/
theorem packetLoop_exits {n : Nat} {a : Unit} (hn : 1 ≤ n) (hn' : s.dict.limit - s.dict.position ≤ n)
    (h : packetLoop n s = .ok (a, t)) : t.dict.limit ≤ t.dict.position := by
  induction n generalizing s with
  | zero => omega
  | succ n ih =>
    rw [packetLoop_succ] at h
    cases h₁ : onePacket s with
    | error e => rw [h₁] at h; cases h
    | ok p =>
      obtain ⟨⟨⟩, u⟩ := p
      rw [h₁] at h
      dsimp only at h
      split at h
      · next hl => cases h; exact hl
      · next hl =>
        have hd := onePacket_ok h₁
        have hl' : u.dict.position < u.dict.limit := Nat.lt_of_not_le hl
        have := hd.2
        rw [hd.1.limit] at hl'
        exact ih (by omega) (by rw [hd.1.limit]; omega) h

/-- Any two bounds that are large enough give the same loop. -/
theorem packetLoop_bound {n m : Nat} (hn : 1 ≤ n) (hm : 1 ≤ m)
    (hn' : s.dict.limit - s.dict.position ≤ n) (hm' : s.dict.limit - s.dict.position ≤ m) :
    packetLoop n s = packetLoop m s := by
  induction n generalizing s m with
  | zero => omega
  | succ n ih =>
    cases m with
    | zero => omega
    | succ m =>
      rw [packetLoop_succ, packetLoop_succ]
      cases h₁ : onePacket s with
      | error e => rfl
      | ok p =>
        obtain ⟨⟨⟩, u⟩ := p
        dsimp only
        split
        · rfl
        · next hl =>
          have hd := onePacket_ok h₁
          have hl' : u.dict.position < u.dict.limit := Nat.lt_of_not_le hl
          have := hd.2
          rw [hd.1.limit] at hl'
          exact ih (by omega) (by omega) (by rw [hd.1.limit]; omega) (by rw [hd.1.limit]; omega)

/-- `lz.decode` that ends: its packets, the final normalisation, and the mark that another needs another `rc.init`. -/
theorem lzDecode_ok {a : Unit} :
    lzDecode s = .ok (a, t) ↔ ∃ u v, packetLoop (max 1 (s.dict.limit - s.dict.position)) s = .ok ((), u) ∧
      normalize u = .ok ((), v) ∧ t = v.markDecoded := by
  unfold lzDecode
  simp only [bind_ok, look_ok, update_ok]
  constructor
  · rintro ⟨n, s', ⟨rfl, rfl⟩, ⟨⟩, u, h₁, ⟨⟩, v, h₂, h⟩
    exact ⟨u, v, h₁, h₂, h.symm⟩
  · rintro ⟨u, v, h₁, h₂, h⟩
    exact ⟨_, s, ⟨rfl, rfl⟩, (), u, h₁, (), v, h₂, h.symm⟩

/-- `lz.decode` stops where its packets do, or where the final normalisation does. -/
theorem lzDecode_error {e : Stop} :
    lzDecode s = .error e ↔ packetLoop (max 1 (s.dict.limit - s.dict.position)) s = .error e ∨
      ∃ u, packetLoop (max 1 (s.dict.limit - s.dict.position)) s = .ok ((), u) ∧ normalize u = .error e := by
  unfold lzDecode
  simp only [bind_error, look_error, update_error, and_false, exists_false, or_false, look_ok, false_or]
  constructor
  · rintro ⟨n, s', ⟨rfl, rfl⟩, h | ⟨⟨⟩, u, h, h'⟩⟩
    · exact .inl h
    · exact .inr ⟨u, h, h'⟩
  · rintro (h | ⟨u, h, h'⟩)
    · exact ⟨_, s, ⟨rfl, rfl⟩, .inl h⟩
    · exact ⟨_, s, ⟨rfl, rfl⟩, .inr ⟨(), u, h, h'⟩⟩

/-- One packet is its type code and then, on the state that leaves, the packet's own text. -/
theorem onePacket_of_type {u : State} {k : PacketKind} (h : (typeTree s.lz.state s.posState).run s = .ok (k, u)) :
    onePacket s = packetBody k u := by
  show (look State.packetCtx >>= fun x => (typeTree x.state x.posState).run >>= packetBody) s = _
  rw [bind_run]
  show ((typeTree s.lz.state s.posState).run >>= packetBody) s = _
  rw [bind_run, h]

/-- What the type code raises, the packet raises. -/
theorem onePacket_of_type_error {e : Stop} (h : (typeTree s.lz.state s.posState).run s = .error e) :
    onePacket s = .error e := by
  show (look State.packetCtx >>= fun x => (typeTree x.state x.posState).run >>= packetBody) s = _
  rw [bind_run]
  show ((typeTree s.lz.state s.posState).run >>= packetBody) s = _
  rw [bind_run, h]

end Sys2Proof.Machine
end

