-- ==== Sys2Proof/Laws/Decoders.lean ====
section
/-! SUPPORT. What a decoder run by the range coder reads (spec/42_range_coder.md R167 to R171): the decisions along its path,
as `Follows` writes them; and when it runs to its end: when the payload bytes its decisions could need are there. -/

namespace Sys2Proof.Machine

variable {α β : Type} {s t u : State}

/-! ## Tables -/

/-- An index inside its table asks for a cell of the table. -/
theorem cell_of_lt {p : Probs} {i : Nat} (h : i < p.size) : p.cell i = p.cellIn i := if_pos h

/-! ## Paths -/

/-- One path after another. -/
theorem follows_append {qs rs : List (Option Cell × Bool)} :
    Follows s (qs ++ rs) t ↔ ∃ u, Follows s qs u ∧ Follows u rs t := by
  induction qs generalizing s with
  | nil => exact ⟨fun h => ⟨s, rfl, h⟩, fun ⟨u, h, h'⟩ => by cases h; exact h'⟩
  | cons q qs ih =>
    obtain ⟨c, b⟩ := q
    cases c <;> simp only [List.cons_append, Follows, ih]
    · exact ⟨fun ⟨v, h, u, h₁, h₂⟩ => ⟨u, ⟨v, h, h₁⟩, h₂⟩, fun ⟨u, ⟨v, h, h₁⟩, h₂⟩ => ⟨v, h, u, h₁, h₂⟩⟩
    · exact ⟨fun ⟨v, h, u, h₁, h₂⟩ => ⟨u, ⟨v, h, h₁⟩, h₂⟩, fun ⟨u, ⟨v, h, h₁⟩, h₂⟩ => ⟨v, h, u, h₁, h₂⟩⟩

/-- A decoder that starts with a decision. -/
theorem run_decide_ok {c : Cell} {k : Bool → Dec α} {a : α} :
    (Dec.decide c k).run s = .ok (a, t) ↔ ∃ b u, decodeBit c s = .ok (b, u) ∧ (k b).run u = .ok (a, t) := bind_ok

/-- A decoder that starts with a direct bit. -/
theorem run_direct_ok {k : Bool → Dec α} {a : α} :
    (Dec.direct k).run s = .ok (a, t) ↔ ∃ b u, decodeDirectBit s = .ok (b, u) ∧ (k b).run u = .ok (a, t) := bind_ok

/-- Two decoders in a row. -/
theorem run_bind_ok {d : Dec α} {f : α → Dec β} {b : β} :
    (d.bind f).run s = .ok (b, t) ↔ ∃ a u, d.run s = .ok (a, u) ∧ (f a).run u = .ok (b, t) := by
  rw [run_bind]
  exact bind_ok

/-- A tree walk follows the tree's path and shifts its decisions into the index (R170). -/
theorem walk_ok {p : Probs} {n m v : Nat} :
    (Dec.walk p n m).run s = .ok (v, t) ↔
      ∃ bs, bs.length = n ∧ Follows s (treePath p m bs) t ∧ v = bs.foldl (fun v b => 2 * v + b.toNat) m := by
  induction n generalizing s m with
  | zero =>
    show (pure m : M Nat) s = _ ↔ _
    rw [pure_ok]
    constructor
    · rintro ⟨rfl, rfl⟩; exact ⟨[], rfl, rfl, rfl⟩
    · rintro ⟨bs, hl, h, rfl⟩
      obtain rfl := List.length_eq_zero_iff.1 hl
      exact ⟨rfl, h⟩
  | succ n ih =>
    simp only [Dec.walk, run_decide_ok, ih]
    constructor
    · rintro ⟨b, u, h, bs, hl, hf, rfl⟩
      exact ⟨b :: bs, by simp [hl], ⟨u, h, hf⟩, rfl⟩
    · rintro ⟨bs, hl, hf, rfl⟩
      cases bs with
      | nil => simp at hl
      | cons b bs =>
        obtain ⟨u, h, hf⟩ := hf
        exact ⟨b, u, h, bs, by simpa using hl, hf, rfl⟩

/-- A reverse walk follows the same path and puts its decisions in from bit `i` up (R171). -/
theorem reverseWalk_ok {p : Probs} {n i m v w : Nat} :
    (Dec.reverseWalk p n i m v).run s = .ok (w, t) ↔
      ∃ bs, bs.length = n ∧ Follows s (treePath p m bs) t ∧ w = v + lsbValue bs * 2 ^ i := by
  induction n generalizing s i m v with
  | zero =>
    show (pure v : M Nat) s = _ ↔ _
    rw [pure_ok]
    constructor
    · rintro ⟨rfl, rfl⟩; exact ⟨[], rfl, rfl, by simp [lsbValue]⟩
    · rintro ⟨bs, hl, h, rfl⟩
      obtain rfl := List.length_eq_zero_iff.1 hl
      exact ⟨by simp [lsbValue], h⟩
  | succ n ih =>
    have e : ∀ (b : Bool) (bs : List Bool),
        v + b.toNat * 2 ^ i + lsbValue bs * 2 ^ (i + 1) = v + lsbValue (b :: bs) * 2 ^ i := by
      intro b bs
      simp only [lsbValue, pow_succ]
      ring
    simp only [Dec.reverseWalk, run_decide_ok, ih]
    constructor
    · rintro ⟨b, u, h, bs, hl, hf, rfl⟩
      exact ⟨b :: bs, by simp [hl], ⟨u, h, hf⟩, e b bs⟩
    · rintro ⟨bs, hl, hf, rfl⟩
      cases bs with
      | nil => simp at hl
      | cons b bs =>
        obtain ⟨u, h, hf⟩ := hf
        exact ⟨b, u, h, bs, by simpa using hl, hf, (e b bs).symm⟩

/-- Direct bits are shifted in, first one most significant (R167). -/
theorem directWalk_ok {n v w : Nat} :
    (Dec.directWalk n v).run s = .ok (w, t) ↔
      ∃ bs : List Bool, bs.length = n ∧ Follows s (bs.map fun b => (none, b)) t ∧
        w = bs.foldl (fun v b => 2 * v + b.toNat) v := by
  induction n generalizing s v with
  | zero =>
    show (pure v : M Nat) s = _ ↔ _
    rw [pure_ok]
    constructor
    · rintro ⟨rfl, rfl⟩; exact ⟨[], rfl, rfl, rfl⟩
    · rintro ⟨bs, hl, h, rfl⟩
      obtain rfl := List.length_eq_zero_iff.1 hl
      exact ⟨rfl, h⟩
  | succ n ih =>
    simp only [Dec.directWalk, run_direct_ok, ih]
    constructor
    · rintro ⟨b, u, h, bs, hl, hf, rfl⟩
      exact ⟨b :: bs, by simp [hl], ⟨u, h, hf⟩, rfl⟩
    · rintro ⟨bs, hl, hf, rfl⟩
      cases bs with
      | nil => simp at hl
      | cons b bs =>
        obtain ⟨u, h, hf⟩ := hf
        exact ⟨b, u, h, bs, by simpa using hl, hf, rfl⟩

/-- What bits shifted in from index `m` make: `m` moved up, and the bits' own number. -/
theorem foldl_msb (bs : List Bool) (m : Nat) :
    bs.foldl (fun v b => 2 * v + b.toNat) m = m * 2 ^ bs.length + msbValue bs := by
  induction bs generalizing m with
  | nil => simp [msbValue]
  | cons b bs ih =>
    simp only [msbValue, List.foldl_cons, List.length_cons] at ih ⊢
    rw [ih, ih (2 * 0 + b.toNat), pow_succ]
    ring

/-- `rc.decode_tree` (R170). -/
theorem tree_ok {p : Probs} {n v : Nat} :
    (Dec.tree p n).run s = .ok (v, t) ↔
      ∃ bs, bs.length = n ∧ Follows s (treePath p 1 bs) t ∧ v = msbValue bs := by
  unfold Dec.tree
  rw [run_map_ok]
  simp only [walk_ok]
  constructor
  · rintro ⟨a, ⟨bs, hl, hf, rfl⟩, rfl⟩
    exact ⟨bs, hl, hf, by rw [foldl_msb, hl]; omega⟩
  · rintro ⟨bs, hl, hf, rfl⟩
    exact ⟨_, ⟨bs, hl, hf, rfl⟩, by rw [foldl_msb, hl]; omega⟩

/-- `rc.decode_reverse_tree` (R171). -/
theorem reverseTree_ok {p : Probs} {n v : Nat} :
    (Dec.reverseTree p n).run s = .ok (v, t) ↔
      ∃ bs, bs.length = n ∧ Follows s (treePath p 1 bs) t ∧ v = lsbValue bs := by
  unfold Dec.reverseTree
  rw [reverseWalk_ok]
  simp

/-- `rc.decode_direct` (R167). -/
theorem directBits_ok {n v : Nat} :
    (Dec.directBits n).run s = .ok (v, t) ↔
      ∃ bs : List Bool, bs.length = n ∧ Follows s (bs.map fun b => (none, b)) t ∧ v = msbValue bs := directWalk_ok

theorem msbValue_lt (bs : List Bool) : msbValue bs < 2 ^ bs.length := by
  induction bs with
  | nil => simp [msbValue]
  | cons b bs ih =>
    have h := foldl_msb bs (2 * 0 + b.toNat)
    have hb := Bool.toNat_le b
    simp only [msbValue, List.foldl_cons, List.length_cons, pow_succ] at h ih ⊢
    rw [h]
    nlinarith [Nat.two_pow_pos bs.length]

theorem lsbValue_lt (bs : List Bool) : lsbValue bs < 2 ^ bs.length := by
  induction bs with
  | nil => simp [lsbValue]
  | cons b bs ih =>
    have hb := Bool.toNat_le b
    simp only [lsbValue, List.length_cons, pow_succ]
    omega

/-! ## Running to the end -/

/-- A decoder takes at most `n` decisions, whatever their outcomes. -/
def Within : Dec α → Nat → Prop
  | .ret _, _ => True
  | .decide _ k, n => ∃ m, n = m + 1 ∧ ∀ b, Within (k b) m
  | .direct k, n => ∃ m, n = m + 1 ∧ ∀ b, Within (k b) m

theorem Within.mono {d : Dec α} {n m : Nat} (h : Within d n) (hm : n ≤ m) : Within d m := by
  induction d generalizing n m with
  | ret a => trivial
  | decide c k ih =>
    obtain ⟨n', rfl, h⟩ := h
    exact ⟨m - 1, by omega, fun b => ih b (h b) (by omega)⟩
  | direct k ih =>
    obtain ⟨n', rfl, h⟩ := h
    exact ⟨m - 1, by omega, fun b => ih b (h b) (by omega)⟩

theorem Within.bind {d : Dec α} {f : α → Dec β} {n m : Nat} (h : Within d n) (hf : ∀ a, Within (f a) m) :
    Within (d.bind f) (n + m) := by
  induction d generalizing n with
  | ret a => exact (hf a).mono (by omega)
  | decide c k ih =>
    obtain ⟨n', rfl, h⟩ := h
    exact ⟨n' + m, by omega, fun b => ih b (h b)⟩
  | direct k ih =>
    obtain ⟨n', rfl, h⟩ := h
    exact ⟨n' + m, by omega, fun b => ih b (h b)⟩

theorem Within.map {d : Dec α} {f : α → β} {n : Nat} (h : Within d n) : Within (d.map f) n :=
  h.bind (m := 0) fun _ => trivial

theorem within_walk (p : Probs) (n m : Nat) : Within (Dec.walk p n m) n := by
  induction n generalizing m with
  | zero => trivial
  | succ n ih => exact ⟨n, rfl, fun b => ih _⟩

theorem within_tree (p : Probs) (n : Nat) : Within (Dec.tree p n) n := (within_walk p n 1).map

theorem within_reverseWalk (p : Probs) (n i m v : Nat) : Within (Dec.reverseWalk p n i m v) n := by
  induction n generalizing i m v with
  | zero => trivial
  | succ n ih => exact ⟨n, rfl, fun b => ih _ _ _⟩

theorem within_directWalk (n v : Nat) : Within (Dec.directWalk n v) n := by
  induction n generalizing v with
  | zero => trivial
  | succ n ih => exact ⟨n, rfl, fun b => ih _⟩

theorem within_matchedWalk (c : Fin 8) (n : Nat) (symbol offset mb : BitVec 16) :
    Within (Dec.matchedWalk c n symbol offset mb) n := by
  induction n generalizing symbol offset mb with
  | zero => trivial
  | succ n ih => exact ⟨n, rfl, fun b => ih _ _ _⟩

theorem State.CanFetch.mono {n m : Nat} (h : s.CanFetch n) (hm : m ≤ n) : s.CanFetch m :=
  ⟨le_trans hm h.1, by have := h.2.1; omega, fun k hk => h.2.2 k (by omega)⟩

theorem State.CanFetch.of_same {n : Nat} (h : s.CanFetch n) (hr : t.rc.remaining = s.rc.remaining)
    (hi : t.inp = s.inp) : t.CanFetch n := by
  unfold State.CanFetch
  rw [hr, hi]
  exact h

/-- Where a payload byte is there, a normalisation succeeds, and spends at most that byte. -/
theorem normalize_completes {n : Nat} (h : s.CanFetch (n + 1)) : ∃ u, normalize s = .ok ((), u) ∧ u.CanFetch n := by
  by_cases hr : s.rc.range < Config.rcTop
  · have h0 : s.rc.remaining ≠ 0 := fun e => by
      have := h.1
      rw [e] at this
      simp at this
    have hsz := h.2.1
    have hlt : s.inp.offset < s.inp.size := by omega
    obtain ⟨b, hb⟩ := Option.isSome_iff_exists.1 (h.2.2 0 (by omega))
    refine ⟨(s.advance 1).shiftIn b, normalize_ok.2 (.inr ⟨hr, h0, b, ?_, rfl⟩), ?_, ?_, ?_⟩
    · exact readByte_ok.2 ⟨hlt, hb, rfl⟩
    · show n ≤ (s.rc.remaining - 1).toNat
      have := h.1
      rw [BitVec.toNat_sub_of_le (BitVec.le_def.2 (by show 1 ≤ _; omega))]
      show n ≤ s.rc.remaining.toNat - 1
      omega
    · show s.inp.offset + 1 + n ≤ s.inp.size
      omega
    · intro k hk
      show (s.inp.bytes.read (s.inp.offset + 1 + k)).isSome
      rw [Nat.add_assoc, Nat.add_comm 1 k]
      exact h.2.2 (k + 1) (by omega)
  · exact ⟨s, normalize_ok.2 (.inl ⟨hr, rfl⟩), h.mono (by omega)⟩

/-- A decoder of at most `n` decisions runs to its end where `n` payload bytes are there. -/
theorem run_completes {d : Dec α} {n : Nat} (hd : Within d n) (h : s.CanFetch n) : ∃ a t, d.run s = .ok (a, t) := by
  induction d generalizing s n with
  | ret a => exact ⟨a, s, rfl⟩
  | decide c k ih =>
    obtain ⟨m, rfl, hk⟩ := hd
    obtain ⟨u, hu, hc⟩ := normalize_completes h
    have hc' : (u.decided c).CanFetch m := hc.of_same
      (by unfold State.decided; dsimp only; split <;> rfl) (State.decided_inp u c)
    obtain ⟨a, t, ht⟩ := ih (u.decision c) (hk _) hc'
    exact ⟨a, t, run_decide_ok.2 ⟨_, _, decodeBit_ok.2 ⟨u, hu, rfl, rfl⟩, ht⟩⟩
  | direct k ih =>
    obtain ⟨m, rfl, hk⟩ := hd
    obtain ⟨u, hu, hc⟩ := normalize_completes h
    have hc' : u.directed.CanFetch m := hc.of_same rfl rfl
    obtain ⟨a, t, ht⟩ := ih u.directBit (hk _) hc'
    exact ⟨a, t, run_direct_ok.2 ⟨_, _, decodeDirectBit_ok.2 ⟨u, hu, rfl, rfl⟩, ht⟩⟩

end Sys2Proof.Machine
end

