-- ==== Sys2Proof/Laws/Fetch.lean ====
section
/-! SUPPORT. What the fetch of a chunk header can do (spec/30_encoding.md R91, spec/44_lzma2_chunk_commands.md R240): the
bytes read are a prefix of the window, the window ends only where the input does, and six bytes always hold a
header. -/

namespace Sys2Proof.Machine

/-- An LZMA header's bytes are the first of the input. -/
theorem decodeLzmaHeader_suffix {control : Byte} {bs rest : List Byte} {i : Instr}
    (h : decodeLzmaHeader control bs = .ok (i, rest)) : ∃ hdr, bs = hdr ++ rest := by
  unfold decodeLzmaHeader at h
  split at h
  · next i0 i1 i2 i3 tail =>
    split_ifs at h
    · cases h; exact ⟨[i0, i1, i2, i3], rfl⟩
    · cases h; exact ⟨[i0, i1, i2, i3], rfl⟩
    · cases h; exact ⟨[i0, i1, i2, i3], rfl⟩
    · split at h
      · cases h
      · next p tail' => cases h; exact ⟨[i0, i1, i2, i3, p], rfl⟩
  · cases h

/-- A header's bytes are the first of the input, the control byte among them. -/
theorem decodeBytes_suffix {bs rest : List Byte} {i : Instr} (h : decodeBytes bs = .ok (i, rest)) :
    ∃ control hdr, bs = control :: (hdr ++ rest) := by
  cases bs with
  | nil => cases h
  | cons control tail =>
    simp only [decodeBytes] at h
    split_ifs at h
    case neg =>
      obtain ⟨hdr, rfl⟩ := decodeLzmaHeader_suffix h
      exact ⟨control, hdr, rfl⟩
    all_goals
      simp only [Except.ok.injEq, Prod.mk.injEq] at h
      exact ⟨control, [], by rw [h.2]; rfl⟩

/-- Six bytes always hold a header. -/
theorem decodeBytes_error {bs : List Byte} {e : DecodeReject} (h : decodeBytes bs = .error e) : bs.length < maxHeader := by
  match bs, h with
  | [], _ => decide
  | control :: tail, h =>
    simp only [decodeBytes] at h
    split_ifs at h
    unfold decodeLzmaHeader at h
    split at h
    · split_ifs at h
      split at h
      · simp [maxHeader]
      · cases h
    · next hne =>
      rcases tail with _ | ⟨i0, _ | ⟨i1, _ | ⟨i2, _ | ⟨i3, tail⟩⟩⟩⟩
      · simp [maxHeader]
      · simp [maxHeader]
      · simp [maxHeader]
      · simp [maxHeader]
      · exact absurd rfl (hne i0 i1 i2 i3 tail)

/-- Where every byte of the input is there, the window is as long as it may be. -/
theorem inWindow_length {m : Mem} {size : Nat} (hm : ∀ a, a < size → (m.read a).isSome) (n a : Nat) (ha : a ≤ size) :
    (inWindow m size a n).length = min n (size - a) := by
  induction n generalizing a with
  | zero => simp [inWindow]
  | succ n ih =>
    simp only [inWindow]
    split
    · next h =>
      have hs := hm a h
      cases hb : m.read a with
      | none => rw [hb] at hs; cases hs
      | some b => simp only [List.length_cons, ih (a + 1) (by omega)]; omega
    · simp only [List.length_nil]; omega

theorem window_length {s : State} (h : s.InputPresent) :
    s.window.length = min maxHeader (s.inp.size - s.inp.offset) :=
  inWindow_length h.2 _ _ h.1

end Sys2Proof.Machine
end

