-- ==== Sys2Proof/Laws/PerInstr.lean ====
section
/-! SUPPORT. The statement made of every instruction of the opcode table, about the instruction as syntax: where its encoding
stands among the rows of spec/opcode_table.json (spec/30_encoding.md R92, R97, R99, R100, R108). -/

namespace Sys2Proof.Laws.RowPattern

/-- A chunk command's first byte is a control byte of its own row of the opcode table; a packet, length or distance opcode is
a string of one to six decisions and no chunk row's; an operation is encoded by nothing. -/
def Statement (i : Instr) : Prop :=
  match encode i with
  | .bytes bs => ∃ n row control rest, chunkRowOf i = some n ∧ chunkRows[n]? = some row ∧ bs = control :: rest ∧
      row.admits control = true
  | .decisions ds => 1 ≤ ds.length ∧ ds.length ≤ 6 ∧ chunkRowOf i = none
  | .invoked => chunkRowOf i = none

/-- The first byte of an LZMA header keeps its top three bits whatever the sizes (R91). -/
theorem lzmaHeader_admits (row : ChunkRow) (r : BitVec 2) (u : BitVec 21) (c : BitVec 16)
    (h : ∀ x : BitVec 5, row.admits ((1 : BitVec 1) ++ r ++ x) = true) :
    ∃ control rest, lzmaHeader r u c = control :: rest ∧ row.admits control = true :=
  ⟨_, _, rfl, h (u.extractLsb' 16 5)⟩

theorem chunkEnd : Statement .chunkEnd := ⟨0, _, _, [], rfl, rfl, rfl, by decide⟩

theorem chunkRawReset : Statement .chunkRawReset := ⟨1, _, _, [], rfl, rfl, rfl, by decide⟩

theorem chunkRaw : Statement .chunkRaw := ⟨2, _, _, [], rfl, rfl, rfl, by decide⟩

theorem chunkReserved03 : Statement .chunkReserved03 := ⟨3, _, _, [], rfl, rfl, rfl, by decide⟩

theorem chunkReserved04 (x : BitVec 2) : Statement (.chunkReserved04 x) :=
  ⟨4, _, _, [], rfl, rfl, rfl, by revert x; decide⟩

theorem chunkReserved08 (x : BitVec 3) : Statement (.chunkReserved08 x) :=
  ⟨5, _, _, [], rfl, rfl, rfl, by revert x; decide⟩

theorem chunkReserved10 (x : BitVec 4) : Statement (.chunkReserved10 x) :=
  ⟨6, _, _, [], rfl, rfl, rfl, by revert x; decide⟩

theorem chunkReserved20 (x : BitVec 5) : Statement (.chunkReserved20 x) :=
  ⟨7, _, _, [], rfl, rfl, rfl, by revert x; decide⟩

theorem chunkReserved40 (x : BitVec 6) : Statement (.chunkReserved40 x) :=
  ⟨8, _, _, [], rfl, rfl, rfl, by revert x; decide⟩

theorem chunkLzmaNone (u : BitVec 21) (c : BitVec 16) : Statement (.chunkLzmaNone u c) := by
  obtain ⟨control, rest, h, h'⟩ := lzmaHeader_admits chunkRows[9] 0 u c (by decide)
  exact ⟨9, _, control, rest, rfl, rfl, h, h'⟩

theorem chunkLzmaState (u : BitVec 21) (c : BitVec 16) : Statement (.chunkLzmaState u c) := by
  obtain ⟨control, rest, h, h'⟩ := lzmaHeader_admits chunkRows[10] 1 u c (by decide)
  exact ⟨10, _, control, rest, rfl, rfl, h, h'⟩

theorem chunkLzmaProps (u : BitVec 21) (c : BitVec 16) : Statement (.chunkLzmaProps u c) := by
  obtain ⟨control, rest, h, h'⟩ := lzmaHeader_admits chunkRows[11] 2 u c (by decide)
  exact ⟨11, _, control, rest, rfl, rfl, h, h'⟩

theorem chunkLzmaFull (u : BitVec 21) (c : BitVec 16) (props : Byte) : Statement (.chunkLzmaFull u c props) := by
  obtain ⟨control, rest, h, h'⟩ := lzmaHeader_admits chunkRows[12] 3 u c (by decide)
  refine ⟨12, _, control, rest ++ [props], rfl, rfl, ?_, h'⟩
  rw [← List.cons_append, ← h]

theorem packetLit : Statement .packetLit := by simp [Statement, encode, chunkRowOf]

theorem packetMatch : Statement .packetMatch := by simp [Statement, encode, chunkRowOf]

theorem packetShortRep : Statement .packetShortRep := by simp [Statement, encode, chunkRowOf]

theorem packetLongRep0 : Statement .packetLongRep0 := by simp [Statement, encode, chunkRowOf]

theorem packetLongRep1 : Statement .packetLongRep1 := by simp [Statement, encode, chunkRowOf]

theorem packetLongRep2 : Statement .packetLongRep2 := by simp [Statement, encode, chunkRowOf]

theorem packetLongRep3 : Statement .packetLongRep3 := by simp [Statement, encode, chunkRowOf]

theorem lenLow (l : LenCoder) (ps : BitVec 2) : Statement (.lenLow l ps) := by simp [Statement, encode, chunkRowOf]

theorem lenMid (l : LenCoder) (ps : BitVec 2) : Statement (.lenMid l ps) := by simp [Statement, encode, chunkRowOf]

theorem lenHigh (l : LenCoder) : Statement (.lenHigh l) := by simp [Statement, encode, chunkRowOf]

theorem distSlot0To3 (slot : BitVec 2) : Statement (.distSlot0To3 slot) := by simp [Statement, encode, chunkRowOf, msbBits]

theorem distSlot4To13 (k : Fin 10) : Statement (.distSlot4To13 k) := by simp [Statement, encode, chunkRowOf, msbBits]

theorem distSlot14To63 (k : Fin 50) : Statement (.distSlot14To63 k) := by simp [Statement, encode, chunkRowOf, msbBits]

theorem construct (input : List Byte) (params : Params) : Statement (.construct input params) := rfl

theorem inReadByte : Statement .inReadByte := rfl

theorem inReserve (n : Nat) : Statement (.inReserve n) := rfl

theorem inAlign4 : Statement .inAlign4 := rfl

theorem dictInit (size : Nat) : Statement (.dictInit size) := rfl

theorem dictSetLimit (chunkSize : Nat) : Statement (.dictSetLimit chunkSize) := rfl

theorem dictPutLiteral (b : Byte) : Statement (.dictPutLiteral b) := rfl

theorem dictCopyMatch (distance length : Nat) : Statement (.dictCopyMatch distance length) := rfl

theorem dictByteAt (distance : Nat) : Statement (.dictByteAt distance) := rfl

theorem dictIsComplete : Statement .dictIsComplete := rfl

theorem rcInit (compressedSize : Count) : Statement (.rcInit compressedSize) := rfl

theorem rcNormalize : Statement .rcNormalize := rfl

theorem rcDecodeBit (c : Cell) : Statement (.rcDecodeBit c) := rfl

theorem rcDecodeDirect (n : Nat) : Statement (.rcDecodeDirect n) := rfl

theorem rcDecodeTree (probs : Probs) (n : Nat) : Statement (.rcDecodeTree probs n) := rfl

theorem rcDecodeReverseTree (probs : Probs) (n : Nat) : Statement (.rcDecodeReverseTree probs n) := rfl

theorem rcDecodeMatchedLiteral (c : Fin 8) (matchByte : Byte) : Statement (.rcDecodeMatchedLiteral c matchByte) := rfl

theorem rcIsComplete : Statement .rcIsComplete := rfl

theorem lzDecode : Statement .lzDecode := rfl

theorem lzDecodeLength (l : LenCoder) (ps : BitVec 2) : Statement (.lzDecodeLength l ps) := rfl

theorem lzDecodeDistance (len : Nat) : Statement (.lzDecodeDistance len) := rfl

theorem lzResetState : Statement .lzResetState := rfl

end Sys2Proof.Laws.RowPattern
end

