-- ==== Sys2Proof/Laws/Safe.lean ====
section
/-! SUPPORT. What every shared operation does with the invariant of the machine, said once per operation: from a sound
state it ends sound, raises its fault in a state with canonical memories, and never makes an access the model stops
on. -/

namespace Sys2Proof.Machine

variable {α β : Type} {s t : State}

/-- The invariant of a run no fault has ended (Safety.lean `State.Inv`). -/
structure State.Sound (s : State) : Prop where
  canonical : s.Canonical
  positions : s.PositionsOrdered
  output : s.OutputWritten
  cells : s.CellsInRange
  input : s.InputPresent
  coder : s.CoderInRange
  history : s.HistoryBelow

/-- An operation from `p`: a value ends in `q`, a fault is raised in a state with canonical memories, and no access traps. -/
def Safe (p : State → Prop) (m : M α) (q : α → State → Prop) : Prop :=
  ∀ s, p s →
    (∀ a t, m s = .ok (a, t) → q a t) ∧ (∀ f t, m s = .error (.raised f t) → t.Canonical) ∧
      ∀ f, m s ≠ .error (.trap f)

/-- An operation that keeps soundness. -/
abbrev Keeps (m : M α) : Prop := Safe State.Sound m fun _ => State.Sound

theorem Safe.bind {p : State → Prop} {q : α → State → Prop} {q' : β → State → Prop} {m : M α} {k : α → M β}
    (hm : Safe p m q) (hk : ∀ a, Safe (q a) (k a) q') : Safe p (m >>= k) q' := by
  intro s hs
  refine ⟨fun b u h => ?_, fun f u h => ?_, fun f h => ?_⟩
  · obtain ⟨a, t, h₁, h₂⟩ := bind_ok.1 h
    exact (hk a t ((hm s hs).1 a t h₁)).1 b u h₂
  · rcases bind_error.1 h with h | ⟨a, t, h₁, h₂⟩
    · exact (hm s hs).2.1 f u h
    · exact (hk a t ((hm s hs).1 a t h₁)).2.1 f u h₂
  · rcases bind_error.1 h with h | ⟨a, t, h₁, h₂⟩
    · exact (hm s hs).2.2 f h
    · exact (hk a t ((hm s hs).1 a t h₁)).2.2 f h₂

theorem Safe.weaken {p p' : State → Prop} {q q' : α → State → Prop} {m : M α} (h : Safe p m q)
    (hp : ∀ s, p' s → p s) (hq : ∀ a t, q a t → q' a t) : Safe p' m q' := fun s hs =>
  ⟨fun a t h' => hq a t ((h s (hp s hs)).1 a t h'), (h s (hp s hs)).2⟩

theorem Safe.pure {p : State → Prop} {q : α → State → Prop} {a : α} (h : ∀ s, p s → q a s) :
    Safe p (Pure.pure a : M α) q := by
  intro s hs
  refine ⟨fun b t h' => ?_, fun f t h' => absurd h' pure_error, fun f h' => absurd h' pure_error⟩
  obtain ⟨rfl, rfl⟩ := pure_ok.1 h'
  exact h s hs

theorem Safe.update {p : State → Prop} {q : Unit → State → Prop} {f : State → State} (h : ∀ s, p s → q () (f s)) :
    Safe p (Machine.update f) q := by
  intro s hs
  refine ⟨fun b t h' => ?_, fun f t h' => absurd h' update_error, fun f h' => absurd h' update_error⟩
  rw [← update_ok.1 h']
  exact h s hs

theorem Safe.look {p : State → Prop} {f : State → α} : Safe p (Machine.look f) fun a t => p t ∧ f t = a := by
  intro s hs
  refine ⟨fun b t h' => ?_, fun f t h' => absurd h' look_error, fun f h' => absurd h' look_error⟩
  obtain ⟨rfl, rfl⟩ := look_ok.1 h'
  exact ⟨hs, rfl⟩

theorem Safe.raise {p : State → Prop} {q : α → State → Prop} {f : CoreFault} (h : ∀ s, p s → s.Canonical) :
    Safe p (Machine.raise f : M α) q := by
  intro s hs
  refine ⟨fun b t h' => absurd h' raise_ok, fun g t h' => ?_, fun g h' => ?_⟩
  · cases raise_error.1 h'
    exact h s hs
  · cases raise_error.1 h'

theorem Safe.refuse {p : State → Prop} {q : α → State → Prop} {r : Refusal} : Safe p (Machine.refuse r : M α) q := by
  intro s _
  refine ⟨fun b t h' => absurd h' refuse_ok, fun g t h' => ?_, fun g h' => ?_⟩ <;> cases refuse_error.1 h'

theorem Safe.require {p : State → Prop} {ok : Bool} {r : Refusal} :
    Safe p (Machine.require ok r) fun _ t => p t ∧ ok = true := by
  cases ok
  · exact Safe.refuse
  · exact Safe.pure fun s hs => ⟨hs, rfl⟩

theorem Safe.needRc {p : State → Prop} : Safe p Machine.needRc fun _ => p := by
  intro s hs
  unfold Machine.needRc
  split
  · exact Safe.refuse (q := fun _ => p) s hs
  · exact Safe.pure (q := fun _ => p) (fun _ h => h) s hs

theorem Safe.needChunk {p : State → Prop} : Safe p Machine.needChunk fun _ => p := by
  intro s hs
  unfold Machine.needChunk
  split
  · exact Safe.refuse (q := fun _ => p) s hs
  · split
    · exact Safe.pure (q := fun _ => p) (fun _ h => h) s hs
    · exact Safe.refuse (q := fun _ => p) s hs
  · exact Safe.refuse (q := fun _ => p) s hs

theorem Safe.needBeforeInit {p : State → Prop} : Safe p Machine.needBeforeInit fun _ => p := by
  intro s hs
  unfold Machine.needBeforeInit
  split
  · exact Safe.refuse (q := fun _ => p) s hs
  · exact Safe.pure (q := fun _ => p) (fun _ h => h) s hs

theorem Safe.needLimit {p : State → Prop} : Safe p Machine.needLimit fun _ => p := by
  intro s hs
  unfold Machine.needLimit
  split
  · exact Safe.pure (q := fun _ => p) (fun _ h => h) s hs
  · exact Safe.refuse (q := fun _ => p) s hs

theorem Safe.needBetweenChunks {p : State → Prop} : Safe p Machine.needBetweenChunks fun _ => p := by
  intro s hs
  unfold Machine.needBetweenChunks
  split
  · exact Safe.refuse (q := fun _ => p) s hs
  · exact Safe.pure (q := fun _ => p) (fun _ h => h) s hs

/-! ## The input cursor -/

/-- The canonical forms depend on the memories, the table and the sizes alone. -/
theorem State.Canonical.of_eq (h : s.Canonical) (ho : t.dict.out = s.dict.out) (hb : t.inp.bytes = s.inp.bytes)
    (hp : t.probs = s.probs) (hs : t.dict.bufferSize = s.dict.bufferSize ∧ t.inp.size = s.inp.size ∧ t.wPos = s.wPos) :
    t.Canonical := by
  refine ⟨?_, ?_, ?_, ?_⟩
  · rw [ho]; exact h.out
  · rw [hb]; exact h.bytes
  · rw [hp]; exact h.probs
  · rw [hs.1, hs.2.1, hs.2.2]; exact h.sizes

theorem State.Sound.advance (h : s.Sound) {n : Nat} (hn : s.inp.offset + n ≤ s.inp.size) :
    (s.advance n).Sound where
  canonical := ⟨h.canonical.out, h.canonical.bytes, h.canonical.probs, h.canonical.sizes⟩
  positions := h.positions
  output := h.output
  cells := h.cells
  input := by
    exact ⟨hn, h.input.2⟩
  coder := h.coder
  history := h.history

/-- `in.read_byte` keeps soundness; a byte read was left. -/
theorem keeps_readByte : Keeps readByte := by
  intro s hs
  refine ⟨fun b t h => ?_, fun f t h => ?_, fun f h => ?_⟩
  · obtain ⟨hlt, -, rfl⟩ := readByte_ok.1 h
    exact hs.advance hlt
  · rcases readByte_error.1 h with ⟨-, h⟩ | ⟨-, -, h⟩ <;> cases h
    exact hs.canonical
  · rcases readByte_error.1 h with ⟨-, h⟩ | ⟨hlt, hn, h⟩
    · cases h
    · have := hs.input.2 _ hlt
      rw [hn] at this
      cases this

theorem keeps_reserve (n : Nat) : Keeps (reserve n) := by
  intro s hs
  refine ⟨fun b t h => ?_, fun f t h => ?_, fun f h => ?_⟩
  · obtain ⟨hlt, -, rfl⟩ := reserve_ok.1 h
    exact hs.advance hlt
  · rcases reserve_error.1 h with ⟨-, h⟩ | ⟨-, -, h⟩ <;> cases h
    exact hs.canonical
  · rcases reserve_error.1 h with ⟨-, h⟩ | ⟨hle, hn, h⟩
    · cases h
    · have key : ∀ (n a : Nat), a + n ≤ s.inp.size → viewBytes s.inp.bytes a n ≠ none := by
        intro n
        induction n with
        | zero => intro a _; simp [viewBytes]
        | succ n ih =>
          intro a ha
          simp only [viewBytes]
          have hr := hs.input.2 a (by omega)
          cases hb : s.inp.bytes.read a with
          | none => rw [hb] at hr; cases hr
          | some b => simpa using ih (a + 1) (by omega)
      exact key _ _ hle hn

theorem keeps_padByte : Keeps padByte := by
  refine Safe.bind Safe.look fun a => Safe.bind (q := fun _ => State.Sound) ?_ fun b => ?_
  · exact keeps_readByte.weaken (fun _ h => h.1) fun _ _ h => h
  · split
    · exact Safe.pure fun _ h => h
    · exact Safe.raise fun _ h => h.canonical

theorem keeps_padBytes (n : Nat) : Keeps (padBytes n) := by
  induction n with
  | zero => exact Safe.pure fun _ h => h
  | succ n ih =>
    refine Safe.bind Safe.look fun a => ?_
    split
    · exact Safe.pure fun _ h => h.1
    · exact Safe.bind (keeps_padByte.weaken (fun _ h => h.1) fun _ _ h => h) fun _ => ih

/-! ## The dictionary -/

theorem State.Sound.append (h : s.Sound) (hl : s.dict.position ≠ s.dict.limit) (b : Byte) : (s.append b).Sound where
  canonical := ⟨Mem.wf_write h.canonical.out _ _, h.canonical.bytes, h.canonical.probs, h.canonical.sizes⟩
  positions := ⟨Nat.lt_of_le_of_ne h.positions.1 hl, h.positions.2⟩
  output := by
    intro a
    show ((s.dict.out.write s.dict.position b).read a).isSome ↔ a < s.dict.position + 1
    rw [Mem.read_write]
    by_cases ha : a = s.dict.position
    · simp [ha]
    · rw [if_neg ha, h.output a]
      omega
  cells := h.cells
  input := h.input
  coder := h.coder
  history := Nat.le_succ_of_le h.history

/-- A position below the limit lies in the buffer. -/
theorem State.Sound.below (h : s.Sound) (hl : s.dict.position ≠ s.dict.limit) :
    s.dict.position < s.dict.bufferSize := by
  have h1 := h.positions.1
  have h2 := h.positions.2
  omega

/-- A packet that goes past `needRoom` begins below the limit. -/
theorem keeps_needRoom : Keeps needRoom := by
  intro s hs
  refine ⟨fun a t h => ?_, fun f t h => ?_, fun f h => ?_⟩
  · rw [← (needRoom_ok.1 h).2]; exact hs
  · cases (needRoom_error.1 h).2; exact hs.canonical
  · cases (needRoom_error.1 h).2

theorem keeps_putLiteral (b : Byte) : Keeps (putLiteral b) := by
  intro s hs
  refine ⟨fun a t h => ?_, fun f t h => ?_, fun f h => ?_⟩
  · obtain ⟨hl, h⟩ := putLiteral_ok.1 h
    obtain ⟨-, rfl⟩ := appendByte_ok.1 h
    exact hs.append hl b
  · rcases putLiteral_error.1 h with ⟨-, h⟩ | ⟨-, h⟩
    · cases h
      exact hs.canonical
    · cases (appendByte_error.1 h).2
  · rcases putLiteral_error.1 h with ⟨-, h⟩ | ⟨hl, h⟩
    · cases h
    · exact (appendByte_error.1 h).1 (hs.below hl)

/-- A read of the written output does not trap. -/
theorem State.Sound.readOut (h : s.Sound) {a : Nat} (ha : a < s.dict.position) (e : Stop) :
    readOut a s ≠ .error e := by
  intro he
  have h1 := h.positions.1
  have h2 := h.positions.2
  rcases readOut_error.1 he with ⟨-, hn, -⟩ | ⟨hn, -⟩
  · have := (h.output a).2 ha
    rw [hn] at this
    cases this
  · omega

theorem keeps_copyByte {d : Nat} (hd : d ≠ 0) : Keeps (copyByte d) := by
  intro s hs
  have key : ∀ e, d ≤ s.dict.position → s.dict.position ≠ s.dict.limit →
      ¬(Machine.readOut (s.dict.position - d) s = .error e ∨ ∃ b, appendByte b s = .error e ∧
          Machine.readOut (s.dict.position - d) s = .ok (b, s)) := by
    rintro e hle hl (h | ⟨b, h, -⟩)
    · exact hs.readOut (by omega) e h
    · exact (appendByte_error.1 h).1 (hs.below hl)
  refine ⟨fun a t h => ?_, fun f t h => ?_, fun f h => ?_⟩
  · obtain ⟨-, hl, b, -, h⟩ := copyByte_ok.1 h
    obtain ⟨-, rfl⟩ := appendByte_ok.1 h
    exact hs.append hl b
  · rcases copyByte_error.1 h with ⟨-, h⟩ | ⟨-, -, h⟩ | ⟨hle, hl, h⟩
    · cases h; exact hs.canonical
    · cases h; exact hs.canonical
    · exact absurd h (key _ hle hl)
  · rcases copyByte_error.1 h with ⟨-, h⟩ | ⟨-, -, h⟩ | ⟨hle, hl, h⟩
    · cases h
    · cases h
    · exact absurd h (key _ hle hl)

theorem keeps_copyBytes {d : Nat} (hd : d ≠ 0) (n : Nat) : Keeps (copyBytes d n) := by
  induction n with
  | zero => exact Safe.pure fun _ h => h
  | succ n ih => exact Safe.bind (keeps_copyByte hd) fun _ => ih

theorem keeps_copyMatch (d n : Nat) : Keeps (copyMatch d n) := by
  unfold copyMatch
  split
  · exact Safe.refuse
  · next h => exact keeps_copyBytes h n

theorem keeps_byteAt (d : Nat) : Keeps (byteAt d) := by
  intro s hs
  refine ⟨fun a t h => ?_, fun f t h => ?_, fun f h => ?_⟩
  · rw [(byteAt_ok.1 h).2.1]
    exact hs
  all_goals
    rcases byteAt_error.1 h with ⟨-, h⟩ | ⟨h0, hle, h⟩
    · cases h
    · exact absurd h (hs.readOut (by omega) _)

theorem keeps_setLimit (n : Nat) : Keeps (setLimit n) := by
  intro s hs
  refine ⟨fun a t h => ?_, fun f t h => ?_, fun f h => ?_⟩
  · obtain ⟨hle, rfl⟩ := setLimit_ok.1 h
    exact ⟨hs.canonical.of_eq rfl rfl rfl ⟨rfl, rfl, rfl⟩, ⟨Nat.le_add_right _ n, hle⟩, hs.output, hs.cells, hs.input,
      hs.coder, le_refl _⟩
  · cases (setLimit_error.1 h).2
    exact hs.canonical
  · cases (setLimit_error.1 h).2

/-! ## The range coder -/

theorem keeps_readPayloadHeader : Keeps readPayloadHeader := by
  refine Safe.bind keeps_readByte fun b0 => Safe.bind keeps_readByte fun b1 => Safe.bind keeps_readByte fun b2 =>
    Safe.bind keeps_readByte fun b3 => Safe.bind keeps_readByte fun b4 => ?_
  split
  · exact Safe.pure fun _ h => h
  · exact Safe.raise fun _ h => h.canonical

theorem keeps_rcInit {n : Nat} (hn : n < 2 ^ 17) : Keeps (rcInit n) := by
  unfold rcInit
  split
  · exact Safe.raise fun _ h => h.canonical
  · next h5 =>
    refine Safe.bind keeps_readPayloadHeader fun w => Safe.update fun s hs =>
      ⟨hs.canonical.of_eq rfl rfl rfl ⟨rfl, rfl, rfl⟩, hs.positions, hs.output, hs.cells, hs.input, fun _ => ?_, hs.history⟩
    refine ⟨?_, ?_⟩
    · show 2 ^ 16 ≤ (0xFFFFFFFF : Word).toNat
      decide
    · show (BitVec.ofNat 17 (n - Config.rcInitBytes)).toNat + Config.rcInitBytes ≤ (BitVec.ofNat 17 n).toNat
      rw [BitVec.toNat_ofNat, BitVec.toNat_ofNat, Nat.mod_eq_of_lt hn, Nat.mod_eq_of_lt (by omega)]
      omega

/-- After normalisation of a ready coder the range is at least `2^24` (R44 (b)). -/
theorem safe_normalize :
    Safe State.Sound normalize fun _ t => t.Sound ∧ (t.stage ≠ .uninit → 2 ^ 24 ≤ t.rc.range.toNat) := by
  intro s hs
  refine ⟨fun a t h => ?_, fun f t h => ?_, fun f h => ?_⟩
  · have hr : t.stage ≠ .uninit → 2 ^ 24 ≤ t.rc.range.toNat := by
      intro hst
      have hst' : s.stage ≠ .uninit := by
        have hf := normalize_frame h
        unfold CoderOnly at hf
        rw [hf] at hst
        exact hst
      exact normalize_range h (hs.coder hst').1
    refine ⟨?_, hr⟩
    rcases normalize_ok.1 h with ⟨-, rfl⟩ | ⟨hlt, hrem, b, hb, rfl⟩
    · exact hs
    · have hadv := (keeps_readByte s hs).1 _ _ hb
      refine ⟨hadv.canonical.of_eq rfl rfl rfl ⟨rfl, rfl, rfl⟩, hadv.positions, hadv.output, hadv.cells, hadv.input, fun hst => ?_, hadv.history⟩
      refine ⟨le_trans (by decide) (hr hst), ?_⟩
      have hc := (hs.coder hst).2
      show (s.rc.remaining - 1).toNat + Config.rcInitBytes ≤ s.rc.budget.toNat
      have hpos : s.rc.remaining.toNat ≠ 0 := fun e => hrem (BitVec.eq_of_toNat_eq e)
      rw [BitVec.toNat_sub_of_le (BitVec.le_def.2 (by show 1 ≤ _; omega))]
      show s.rc.remaining.toNat - 1 + _ ≤ _
      omega
  · obtain ⟨-, ⟨-, h⟩ | ⟨-, h⟩⟩ := normalize_error.1 h
    · cases h; exact hs.canonical
    · exact (keeps_readByte s hs).2.1 _ _ h
  · obtain ⟨-, ⟨-, h⟩ | ⟨-, h⟩⟩ := normalize_error.1 h
    · cases h
    · exact (keeps_readByte s hs).2.2 _ h

theorem keeps_normalize : Keeps normalize := safe_normalize.weaken (fun _ h => h) fun _ _ h => h.1

theorem State.Sound.decided (h : s.Sound) (hr : s.stage ≠ .uninit → 2 ^ 24 ≤ s.rc.range.toNat) (c : Cell) :
    (s.decided c).Sound where
  canonical := by
    refine ⟨?_, ?_, ?_, ?_⟩
    · rw [State.decided_dict]; exact h.canonical.out
    · rw [State.decided_inp]; exact h.canonical.bytes
    · unfold State.decided
      dsimp only
      split <;> exact ProbTable.wf_set h.canonical.probs (cell_index_lt c) _
    · rw [State.decided_dict, State.decided_inp, State.decided_wPos]; exact h.canonical.sizes
  positions := by unfold State.PositionsOrdered; rw [State.decided_dict]; exact h.positions
  output := by unfold State.OutputWritten; rw [State.decided_dict]; exact h.output
  cells := by
    intro d
    by_cases hd : d = c
    · rw [hd, decided_cell_same]
      exact adapt_range (h.cells c).1 (h.cells c).2 _
    · rw [decided_cell hd]
      exact h.cells d
  input := by unfold State.InputPresent; rw [State.decided_inp]; exact h.input
  history := by unfold State.HistoryBelow; rw [State.decided_dict]; exact h.history
  coder := by
    intro hst
    rw [State.decided_stage] at hst
    have hb := bound_range (hr hst) (h.cells c).1 (h.cells c).2
    have hc := (h.coder hst).2
    unfold State.decided
    dsimp only
    split
    · refine ⟨?_, hc⟩
      show 2 ^ 16 ≤ (s.rc.range - bound s.rc.range (s.cell c)).toNat
      rw [BitVec.toNat_sub_of_le (BitVec.le_def.2 (by omega))]
      omega
    · exact ⟨hb.1, hc⟩

theorem keeps_decodeBit (c : Cell) : Keeps (decodeBit c) := by
  refine Safe.bind safe_normalize fun _ => ?_
  intro s hs
  refine ⟨fun b t h => ?_, fun f t h => (by cases h), fun f h => (by cases h)⟩
  cases h
  exact hs.1.decided hs.2 c

theorem keeps_decodeDirectBit : Keeps decodeDirectBit := by
  refine Safe.bind safe_normalize fun _ => ?_
  intro s hs
  refine ⟨fun b t h => ?_, fun f t h => (by cases h), fun f h => (by cases h)⟩
  cases h
  refine ⟨hs.1.canonical.of_eq rfl rfl rfl ⟨rfl, rfl, rfl⟩, hs.1.positions, hs.1.output, hs.1.cells, hs.1.input, fun hst => ⟨?_, (hs.1.coder hst).2⟩,
    hs.1.history⟩
  have := hs.2 hst
  show 2 ^ 16 ≤ (s.rc.range >>> 1).toNat
  rw [BitVec.toNat_ushiftRight, Nat.shiftRight_eq_div_pow]
  omega

/-- Every decoder keeps soundness. -/
theorem keeps_run (d : Dec α) : Keeps d.run := by
  induction d with
  | ret a => exact Safe.pure fun _ h => h
  | decide c k ih => exact Safe.bind (keeps_decodeBit c) ih
  | direct k ih => exact Safe.bind keeps_decodeDirectBit ih

/-! ## Packets, chunks -/

/-- Writing the engine's registers or the model's own fields keeps soundness. -/
theorem State.Sound.setEngine (h : s.Sound) (lz : Engine) : (s.setEngine lz).Sound :=
  ⟨h.canonical.of_eq rfl rfl rfl ⟨rfl, rfl, rfl⟩, h.positions, h.output, h.cells, h.input, h.coder, h.history⟩

theorem keeps_look (f : State → α) : Keeps (look f) := Safe.look.weaken (fun _ h => h) fun _ _ h => h.1

theorem keeps_litContext : Keeps litContext := by
  refine Safe.bind (keeps_look _) fun x => Safe.bind (keeps_byteAt 1) fun prev => ?_
  split
  · exact Safe.pure fun _ h => h
  · exact Safe.bind (keeps_look _) fun r => Safe.bind (keeps_byteAt _) fun mb => Safe.pure fun _ h => h

theorem keeps_sampleContext (k : PacketKind) : Keeps (sampleContext k) := by
  cases k <;> first | exact keeps_litContext | exact keeps_look _

theorem keeps_copyFrom (lz : Engine) (n : Nat) : Keeps (copyFrom lz n) :=
  Safe.bind (Safe.update fun _ h => h.setEngine lz) fun _ => keeps_copyMatch _ _

theorem keeps_applyPacket (p : Packet) : Keeps (applyPacket p) := by
  refine Safe.bind keeps_needRoom fun _ => Safe.bind (keeps_look _) fun lz => ?_
  cases p
  case lit b => exact Safe.bind (keeps_putLiteral b) fun _ => Safe.update fun _ h => h.setEngine _
  case matchNew len dist =>
    refine Safe.bind (keeps_look _) fun o => ?_
    split
    · exact Safe.raise fun _ h => h.canonical
    · exact keeps_copyFrom _ _
  all_goals exact keeps_copyFrom _ _

theorem keeps_packetBody (k : PacketKind) : Keeps (packetBody k) :=
  Safe.bind (keeps_sampleContext k) fun _ => Safe.bind (keeps_run _) fun p => keeps_applyPacket p

theorem keeps_onePacket : Keeps onePacket :=
  Safe.bind (keeps_look _) fun _ => Safe.bind (keeps_run _) fun k => keeps_packetBody k

theorem keeps_packetLoop (n : Nat) : Keeps (packetLoop n) := by
  induction n with
  | zero => exact Safe.pure fun _ h => h
  | succ n ih =>
    refine Safe.bind keeps_onePacket fun _ => Safe.bind (keeps_look _) fun full => ?_
    split
    · exact Safe.pure fun _ h => h
    · exact ih

theorem State.Sound.markDecoded (h : s.Sound) (hst : s.stage ≠ .uninit) : s.markDecoded.Sound :=
  ⟨h.canonical.of_eq rfl rfl rfl ⟨rfl, rfl, rfl⟩, h.positions, h.output, h.cells, h.input, fun _ => h.coder hst, h.history⟩

theorem State.Sound.resetModel (h : s.Sound) : s.resetModel.Sound :=
  ⟨⟨h.canonical.out, h.canonical.bytes, ProbTable.wf_nil, h.canonical.sizes⟩, h.positions, h.output,
    fun c => by simp [State.cell, Config.probInit],
    h.input, h.coder, h.history⟩

theorem keeps_resetState : Keeps resetState :=
  Safe.bind Safe.needBetweenChunks fun _ => Safe.update fun _ h => h.resetModel

/-- A sound state whose `rc` registers hold values. -/
abbrev State.Started (s : State) : Prop := s.Sound ∧ s.stage ≠ .uninit

/-- An operation of the decoding keeps the stage. -/
theorem Keeps.started {m : M α} (h : Keeps m) (hd : Relates Decodes m) : Safe State.Started m fun _ => State.Started := by
  intro s hs
  refine ⟨fun a t h' => ⟨(h s hs.1).1 a t h', ?_⟩, (h s hs.1).2⟩
  rw [(hd s a t h').stage]
  exact hs.2

theorem safe_lzDecode : Safe State.Started lzDecode fun _ => State.Sound := by
  refine Safe.bind Safe.look fun n => Safe.bind (q := fun _ => State.Started) ?_ fun _ =>
    Safe.bind (q := fun _ => State.Started) ?_ fun _ => Safe.update fun s hs => hs.1.markDecoded hs.2
  · exact ((keeps_packetLoop _).started (decodes_packetLoop _)).weaken (fun _ h => h.1) fun _ _ h => h
  · exact keeps_normalize.started decodes_normalize

theorem keeps_checkComplete (usize csize : Nat) : Keeps (checkComplete usize csize) := by
  refine Safe.bind (keeps_look _) fun rc => Safe.bind (keeps_look _) fun code => Safe.bind (keeps_look _) fun d => ?_
  split
  · exact Safe.raise fun _ h => h.canonical
  · split
    · exact Safe.raise fun _ h => h.canonical
    · exact Safe.pure fun _ h => h

theorem safe_rcInit {n : Nat} (hn : n < 2 ^ 17) : Safe State.Sound (rcInit n) fun _ => State.Started := by
  intro s hs
  refine ⟨fun a t h => ⟨(keeps_rcInit hn s hs).1 a t h, ?_⟩, (keeps_rcInit hn s hs).2⟩
  obtain ⟨-, w, u, -, rfl⟩ := rcInit_ok.1 h
  simp

theorem keeps_decodeChunk (usize : Nat) {csize : Nat} (h : csize < 2 ^ 17) : Keeps (decodeChunk usize csize) :=
  Safe.bind Safe.needBeforeInit fun _ => Safe.bind (keeps_setLimit _) fun _ => Safe.bind (safe_rcInit h) fun _ => Safe.bind safe_lzDecode fun _ =>
    keeps_checkComplete _ _

theorem keeps_lzmaChunk (reset : Bool) (u : BitVec 21) (c : BitVec 16) : Keeps (lzmaChunk reset u c) := by
  refine Safe.bind (keeps_look _) fun mode => ?_
  cases mode
  · refine Safe.bind (q := fun _ => State.Sound) ?_ fun _ => keeps_decodeChunk _ ?_
    · cases reset
      · exact Safe.pure fun _ h => h
      · exact keeps_resetState
    · have := c.isLt
      unfold compressedSize
      omega
  · exact Safe.bind (keeps_reserve _) fun _ => Safe.update fun s h =>
      ⟨h.canonical.of_eq rfl rfl rfl ⟨rfl, rfl, rfl⟩, h.positions, h.output, h.cells, h.input, h.coder, h.history⟩

/-! ## The outcome of an instruction -/

theorem State.Inv.sound (h : s.Inv) (hf : s.fault = none) : s.Sound :=
  ⟨h.canonical, h.positions hf, h.output hf, h.cells hf, h.input hf, h.coder hf, h.history hf⟩

theorem State.Sound.inv (h : s.Sound) : s.Inv := by
  refine ⟨h.canonical, ?_, fun _ => h.positions, fun _ => h.output, fun _ => h.cells, fun _ => h.input, fun _ => h.coder,
    fun _ => h.history⟩
  have h1 := h.positions
  have h2 := h.input.1
  have h3 := h.canonical.sizes
  have h4 := h.history
  unfold State.PositionsOrdered at h1
  unfold State.HistoryBelow at h4
  refine ⟨?_, ?_, ?_, ?_, ?_, ?_⟩ <;> omega

/-- Taking a fault keeps the canonical forms and the widths, which is all the invariant asks after one. -/
theorem State.Canonical.takeFault (h : s.Canonical) (f : CoreFault) : (s.takeFault f).Inv := by
  have hp : ∀ r, s.freePosition r < 2 ^ s.wPos := fun r => Nat.mod_lt _ (Nat.two_pow_pos _)
  refine ⟨⟨Mem.wf_scramble h.out _, h.bytes, ProbTable.wf_scrambled _, hp 3, h.sizes.2⟩,
    ⟨hp 0, hp 1, hp 2, hp 3, hp 4, h.sizes.2⟩, ?_, ?_, ?_, ?_, ?_, ?_⟩ <;>
    exact fun hf => nomatch hf

/-- An instruction whose operation keeps soundness keeps the invariant and does not trap. -/
theorem commit_safe {p : State → Prop} {ret : α → Result} {m : M α} (hm : Safe p m fun _ => State.Sound)
    (hp : s.fault = none → p s) :
    (∀ t, commit ret m s = .next t → t.Inv) ∧ NoTrap (commit ret m s) := by
  rcases commit_cases ret m s with ⟨f, hf, h⟩ | ⟨hf, ⟨a, t, h₁, h⟩ | ⟨f, t, h₁, h⟩ | ⟨r, h₁, h⟩ | ⟨f, h₁, h⟩⟩ <;>
    rw [h]
  · exact ⟨fun t h => (nomatch h), fun f h => (nomatch h)⟩
  · refine ⟨fun u hu => ?_, fun f h => nomatch h⟩
    cases hu
    have hs := (hm s (hp hf)).1 a t h₁
    exact State.Sound.inv ⟨hs.canonical.of_eq rfl rfl rfl ⟨rfl, rfl, rfl⟩, hs.positions, hs.output, hs.cells, hs.input, hs.coder, hs.history⟩
  · refine ⟨fun u hu => ?_, fun f h => nomatch h⟩
    cases hu
    exact ((hm s (hp hf)).2.1 f t h₁).takeFault f
  · exact ⟨fun t h => (nomatch h), fun f h => (nomatch h)⟩
  · exact absurd h₁ ((hm s (hp hf)).2.2 f)

end Sys2Proof.Machine
end

