-- ==== Sys2Proof/Tests/Slice0.lean ====
section
/-! SUPPORT. The model's own tests: ill-formed terms refused, words of the spec decoded, one step of each instruction against
the vectors of spec/95_test_vectors.md, and a witness for the hypotheses of every statement that has some. -/

namespace Sys2Proof.Tests

open Sys2Proof.Machine

-- One test after another: each kernel evaluation would otherwise hold a thread of its own.
set_option Elab.async false

/-! ## Helpers -/

/-- The outcome is a next state with a property. -/
def nextIs (o : Outcome) (p : State → Bool) : Bool :=
  match o with
  | .next t => p t
  | .fault _ => false
  | .refused _ => false

/-- The outcome is this refusal. -/
def refusedBy (o : Outcome) (r : Refusal) : Bool :=
  match o with
  | .next _ => false
  | .fault _ => false
  | .refused r' => r' == r

/-- Bytes at addresses 0, 1, 2, … -/
def bytesFrom (bs : List Byte) : Mem := Mem.place [] 0 bs

/-- A constructed CORE over these input bytes. -/
def fed (bs : List Byte) (capacity : Nat) : State := State.reset.construct 32 bs capacity

/-- A dictionary of capacity 8 that holds these bytes (spec/95_test_vectors.md 2.2). -/
def dictOf (bs : List Byte) (limit start : Nat) : Dictionary :=
  { position := bs.length, limit := limit, historyStart := start, bufferSize := 8,
    out := bytesFrom bs }

/-- A CORE with such a dictionary. -/
def held (bs : List Byte) (limit start : Nat) : State := { State.reset with dict := dictOf bs limit start }

/-- A CORE with these `rc` registers and these bytes next in `IN`. -/
def coding (range code : Word) (remaining : Count) (bs : List Byte) : State :=
  { fed bs 64 with rc := { range := range, code := code, remaining := remaining, budget := 64 }, stage := .ready,
                   limitSet := true }

/-- A CORE whose decisions all come out 0: `code` is 0 and every byte to come is 0. -/
def zeros : State := coding 0xFFFFFFFF 0 48 (List.replicate 60 0x00)

/-- A CORE whose decisions all come out 1: `code` is one below `range` and every byte to come is `0xFF`. -/
def ones : State := coding 0x80000000 0x7FFFFFFF 48 (List.replicate 60 0xFF)

/-- Twelve bytes in `OUT`, room up to a limit, the reps of spec/95_test_vectors.md 2.10, and decisions that all come out 0. -/
def packets (limit : Nat) : State :=
  { zeros with
    dict := { position := 12, limit := limit, historyStart := 0, bufferSize := 64,
              out := bytesFrom [0x30, 0x31, 0x32, 0x33, 0x34, 0x35, 0x36, 0x37, 0x38, 0x39, 0x3A, 0x3B] }
    lz := { state := 0, rep0 := 2, rep1 := 5, rep2 := 7, rep3 := 9 } }

/-- Program P0 of spec/95_test_vectors.md. -/
def p0 : State := fed [0xE0, 0x00, 0x00, 0x00, 0x05, 0x5D, 0x00, 0x00, 0xFF, 0xFC, 0x00, 0x00, 0x00] 1

/-! ## Well-formedness: an ill-formed term for each check, refused -/

theorem test_wf_construct_input : (Instr.construct [0xAA, 0xBB] ⟨1, 0⟩).wellFormed = false := by decide
theorem test_wf_construct_capacity : (Instr.construct [] ⟨32, 0x100000000⟩).wellFormed = false := by decide
theorem test_wf_dictCopyMatch : (Instr.dictCopyMatch 0 5).wellFormed = false := by decide
theorem test_wf_dictByteAt : (Instr.dictByteAt 0).wellFormed = false := by decide
theorem test_wf_rcInit_low : (Instr.rcInit 0).wellFormed = false := by decide
theorem test_wf_rcInit_high : (Instr.rcInit 65537).wellFormed = false := by decide
theorem test_wf_rcDecodeTree : (Instr.rcDecodeTree (.lenLow .matchLen 0) 4).wellFormed = false := by decide
theorem test_wf_rcDecodeReverseTree : (Instr.rcDecodeReverseTree (.distSpecial 2) 3).wellFormed = false := by decide
theorem test_wf_lzDecodeDistance_low : (Instr.lzDecodeDistance 1).wellFormed = false := by decide
theorem test_wf_lzDecodeDistance_high : (Instr.lzDecodeDistance 274).wellFormed = false := by decide
theorem test_wf_matchNew : (Packet.matchNew 1 0).wellFormed = false := by decide
theorem test_wf_matchNew_long : (Packet.matchNew 274 0).wellFormed = false := by decide
theorem test_wf_longRep0 : (Packet.longRep0 1).wellFormed = false := by decide
theorem test_wf_longRep1 : (Packet.longRep1 274).wellFormed = false := by decide
theorem test_wf_longRep2 : (Packet.longRep2 0).wellFormed = false := by decide
theorem test_wf_longRep3 : (Packet.longRep3 1).wellFormed = false := by decide

/-! ## Decoding: words written out from the spec's encodings -/

/-- R92, R241: `00`. -/
theorem test_decode_chunkEnd : decodeTableWord 8 0b00000000 = some .chunkEnd := by decide
/-- R92, R242: `01`. -/
theorem test_decode_chunkRawReset : decodeTableWord 8 0b00000001 = some .chunkRawReset := by decide
/-- R92, R242: `02`. -/
theorem test_decode_chunkRaw : decodeTableWord 8 0b00000010 = some .chunkRaw := by decide
/-- R92, R243: `03`. -/
theorem test_decode_chunkReserved03 : decodeTableWord 8 0b00000011 = some .chunkReserved03 := by decide
/-- R243, R108: `04`/`FC`. -/
theorem test_decode_chunkReserved04 : decodeTableWord 8 0b00000110 = some (.chunkReserved04 0b10) := by decide
/-- R243, R108: `08`/`F8`. -/
theorem test_decode_chunkReserved08 : decodeTableWord 8 0b00001101 = some (.chunkReserved08 0b101) := by decide
/-- R243, R108: `10`/`F0`. -/
theorem test_decode_chunkReserved10 : decodeTableWord 8 0b00011001 = some (.chunkReserved10 0b1001) := by decide
/-- R243, R108: `20`/`E0`. -/
theorem test_decode_chunkReserved20 : decodeTableWord 8 0b00110001 = some (.chunkReserved20 0b10001) := by decide
/-- R243, R108: `40`/`C0`. -/
theorem test_decode_chunkReserved40 : decodeTableWord 8 0b01111111 = some (.chunkReserved40 0b111111) := by decide
/-- R91, R93 and 2.11: `80 00 14 00 0A` is 21 bytes from 11. -/
theorem test_decode_chunkLzmaNone : (decodeBytes [0x80, 0x00, 0x14, 0x00, 0x0A, 0x77]).toOption =
    some (.chunkLzmaNone 20 10, [0x77]) := by decide
/-- R91, R93 and 2.11: `A0 00 01 00 05` is 2 bytes from 6. -/
theorem test_decode_chunkLzmaState : (decodeBytes [0xA0, 0x00, 0x01, 0x00, 0x05]).toOption =
    some (.chunkLzmaState 1 5, []) := by decide
/-- R91, R245 and 2.11: `C0 00 0B 00 10`, no property byte read. -/
theorem test_decode_chunkLzmaProps : (decodeBytes [0xC0, 0x00, 0x0B, 0x00, 0x10, 0x5D]).toOption =
    some (.chunkLzmaProps 11 16, [0x5D]) := by decide
/-- R91, R93: control bits 4:0 are the top bits of the 21-bit size: `F2 34 56 78 9A` then the property byte. -/
theorem test_decode_chunkLzmaFull : (decodeBytes [0xF2, 0x34, 0x56, 0x78, 0x9A, 0x5D]).toOption =
    some (.chunkLzmaFull 0b100100011010001010110 0x789A 0x5D, []) := by decide
/-- 2.11: the input ends inside the header. -/
theorem test_decode_shortHeader : (decodeBytes [0xE0, 0x00, 0x0B]).toOption = none := by decide

/-- R97: `0` is LIT. -/
theorem test_decode_packetLit : decodePacketOpcode [false, true] = some (.packetLit, [true]) := by decide
/-- R97: `10` is MATCH. -/
theorem test_decode_packetMatch : decodePacketOpcode [true, false] = some (.packetMatch, []) := by decide
/-- R97: `1100` is SHORTREP. -/
theorem test_decode_packetShortRep : decodePacketOpcode [true, true, false, false] = some (.packetShortRep, []) := by
  decide
/-- R97: `1101` is LONGREP0. -/
theorem test_decode_packetLongRep0 : decodePacketOpcode [true, true, false, true] = some (.packetLongRep0, []) := by
  decide
/-- R97: `1110` is LONGREP1. -/
theorem test_decode_packetLongRep1 : decodePacketOpcode [true, true, true, false] = some (.packetLongRep1, []) := by
  decide
/-- R97: `11110` is LONGREP2. -/
theorem test_decode_packetLongRep2 :
    decodePacketOpcode [true, true, true, true, false] = some (.packetLongRep2, []) := by decide
/-- R97: `11111` is LONGREP3. -/
theorem test_decode_packetLongRep3 :
    decodePacketOpcode [true, true, true, true, true] = some (.packetLongRep3, []) := by decide
/-- R99: `0` is LEN.LOW. -/
theorem test_decode_lenLow : decodeLenOpcode .matchLen 2 [false] = some (.lenLow .matchLen 2, []) := by decide
/-- R99: `10` is LEN.MID. -/
theorem test_decode_lenMid : decodeLenOpcode .repLen 1 [true, false] = some (.lenMid .repLen 1, []) := by decide
/-- R99: `11` is LEN.HIGH. -/
theorem test_decode_lenHigh : decodeLenOpcode .repLen 1 [true, true] = some (.lenHigh .repLen, []) := by decide
/-- R100: slot `000010` is in DIST.SLOT0_3. -/
theorem test_decode_distSlot0To3 :
    decodeDistOpcode [false, false, false, false, true, false] = some (.distSlot0To3 2, []) := by decide
/-- R100: slot `001101` is the last of DIST.SLOT4_13. -/
theorem test_decode_distSlot4To13 :
    decodeDistOpcode [false, false, true, true, false, true] = some (.distSlot4To13 9, []) := by decide
/-- R100: slot `001110` is the first of DIST.SLOT14_63. -/
theorem test_decode_distSlot14To63 :
    decodeDistOpcode [false, false, true, true, true, false] = some (.distSlot14To63 0, []) := by decide
/-- 2.7: length 15 is `10 101`; 2.8: stored distance 199 is slot 15 = `001111`, direct bits `00`, align value 7 = `1110`. -/
theorem test_decode_matchPacket :
    (packetTree ⟨3, 1, 0x41, 0⟩).bits
      [true, false, true, false, true, false, true, false, false, true, true, true, true, false, false, true, true, true,
        false] = some (.matchNew 15 199, []) := by decide
/-- 2.6: the decisions `0 1 1 1 1 0 0 0` against the match byte `0x61` visit these cells and spell `0x78`. -/
theorem test_decode_matchedLiteral :
    (Dec.matchedLiteral 3 0x61).cells [false, true, true, true, true, false, false, false] =
        [0x101, 0x202, 0x205, 0x10B, 0x17, 0x2F, 0x5E, 0xBC].map (Cell.literal 3) ∧
      (Dec.matchedLiteral 3 0x61).bits [false, true, true, true, true, false, false, false] = some (0x78, []) := by
  decide
/-- R34: the first and the last cell of the table. -/
theorem test_layout : (Cell.isMatch 0 0).index = 0 ∧ (Cell.literal 7 767).index = 7989 := by decide

/-! ## One step of each instruction -/

/-- R330: the capacity 0 is the size query. -/
theorem test_construct : nextIs (exec (.construct [0xAA, 0xBB] ⟨32, 0⟩) (State.reset.takeFault (.full 3)))
    (fun t => t.fault == none && t.inp.size == 2 && t.inp.bytes.read 1 == some 0xBB && t.mode == .sizeQuery) = true := by decide +kernel
/-- R9: the largest sizes of two bits, and one too many. -/
theorem test_construct_wPos : nextIs (exec (.construct [1, 2, 3] ⟨2, 3⟩) State.reset) (fun t => t.dict.bufferSize == 3) = true ∧
    refusedBy (exec (.construct [1, 2, 3, 4] ⟨2, 3⟩) State.reset) .sizeTooLarge = true := by decide +kernel
/-- 2.1, first row. -/
theorem test_inReadByte : nextIs (exec .inReadByte (fed [0xAA, 0xBB] 8))
    (fun t => t.result == .byte 0xAA && t.inp.offset == 1) = true := by decide +kernel
/-- 2.1, third row. -/
theorem test_inReadByte_end : nextIs (exec .inReadByte (fed [] 8)) (fun t => t.fault == some (.endOfInput 0)) = true := by decide +kernel
/-- 2.1: seven of ten bytes from offset 3. -/
theorem test_inReserve : nextIs (exec (.inReserve 7) ((fed [0, 1, 2, 3, 4, 5, 6, 7, 8, 9] 8).advance 3))
    (fun t => t.result == .view [3, 4, 5, 6, 7, 8, 9] && t.inp.offset == 10) = true := by decide +kernel
/-- 2.1: eight of ten bytes from offset 3. -/
theorem test_inReserve_end : nextIs (exec (.inReserve 8) ((fed [0, 1, 2, 3, 4, 5, 6, 7, 8, 9] 8).advance 3))
    (fun t => t.fault == some (.endOfInput 3)) = true := by decide +kernel
/-- 2.1: three pad bytes. -/
theorem test_inAlign4 : nextIs (exec .inAlign4 ((fed [1, 1, 1, 1, 1, 0, 0, 0, 7] 8).advance 5))
    (fun t => t.inp.offset == 8 && t.fault == none) = true := by decide +kernel
/-- 2.1: a non-zero pad byte at address 6. -/
theorem test_inAlign4_corrupt : nextIs (exec .inAlign4 ((fed [1, 1, 1, 1, 1, 0, 1, 0] 8).advance 5))
    (fun t => t.fault == some (.corruptPadding 6)) = true := by decide +kernel
/-- R140. -/
theorem test_dictInit : nextIs (exec (.dictInit 9) (held [0x61, 0x62] 8 0))
    (fun t => t.dict == { position := 0, limit := 0, historyStart := 0, bufferSize := 9, out := [] }) = true := by decide +kernel
/-- 2.2: `set_limit(3)` at 5 of 8. -/
theorem test_dictSetLimit : nextIs (exec (.dictSetLimit 3) (held [1, 2, 3, 4, 5] 5 0))
    (fun t => t.dict.limit == 8 && t.dict.historyStart == 5) = true := by decide +kernel
/-- 2.2: `set_limit(4)` at 5 of 8. -/
theorem test_dictSetLimit_overflow : nextIs (exec (.dictSetLimit 4) (held [1, 2, 3, 4, 5] 5 0))
    (fun t => t.fault == some (.outputOverflow 5 4)) = true := by decide +kernel
/-- 2.2: `put_literal(0x61)`. -/
theorem test_dictPutLiteral : nextIs (exec (.dictPutLiteral 0x61) (held [] 8 0))
    (fun t => t.dict.out == [(0, 0x61)] && t.dict.position == 1) = true := by decide +kernel
/-- 2.2: `put_literal(0x61)` at the limit. -/
theorem test_dictPutLiteral_full : nextIs (exec (.dictPutLiteral 0x61) (held [1, 2, 3, 4, 5, 6, 7, 8] 8 0))
    (fun t => t.fault == some (.full 8)) = true := by decide +kernel
/-- 2.2: the overlapping copy of 5 bytes at distance 3. -/
theorem test_dictCopyMatch : nextIs (exec (.dictCopyMatch 3 5) (held [0x61, 0x62, 0x63] 8 0))
    (fun t => t.dict.out == bytesFrom [0x61, 0x62, 0x63, 0x61, 0x62, 0x63, 0x61, 0x62] && t.dict.position == 8) = true := by decide +kernel
/-- 2.2: a copy from before the start of the buffer. -/
theorem test_dictCopyMatch_far : nextIs (exec (.dictCopyMatch 2 1) (held [0x61] 8 0))
    (fun t => t.fault == some (.invalidDistance 2 1)) = true := by decide +kernel
/-- 2.2: `byte_at(3)` of three bytes. -/
theorem test_dictByteAt : nextIs (exec (.dictByteAt 3) (held [0x61, 0x62, 0x63] 8 0))
    (fun t => t.result == .byte 0x61) = true := by decide +kernel
/-- 2.2: `byte_at(4)` of three bytes. -/
theorem test_dictByteAt_before : nextIs (exec (.dictByteAt 4) (held [0x61, 0x62, 0x63] 8 0))
    (fun t => t.result == .byte 0x00) = true := by decide +kernel
/-- 2.2: position 5 of limit 8 from 2. -/
theorem test_dictIsComplete : nextIs (exec .dictIsComplete (held [1, 2, 3, 4, 5] 8 2))
    (fun t => t.result == .query false 3) = true := by decide +kernel
/-- 2.3: `rc.init(17)` over `00 34 19 49 DB`; refused with no `dict.set_limit` before it (R332, U15). -/
theorem test_rcInit : nextIs (exec (.rcInit 17) ((fed [0x00, 0x34, 0x19, 0x49, 0xDB] 8).setLimit 8))
      (fun t => t.rc == { range := 0xFFFFFFFF, code := 0x341949DB, remaining := 12, budget := 17 } &&
        t.inp.offset == 5) = true ∧
    refusedBy (exec (.rcInit 17) (fed [0x00, 0x34, 0x19, 0x49, 0xDB] 8)) .limitNotSet = true := by decide +kernel
/-- 2.3: a first payload byte that is not 0. -/
theorem test_rcInit_header : nextIs (exec (.rcInit 17) ((fed [0x01, 0x34, 0x19, 0x49, 0xDB] 8).setLimit 8))
    (fun t => t.fault == some (.nonZeroHeader 0x01)) = true := by decide +kernel
/-- 2.3: P1 before decision 10. -/
theorem test_rcNormalize : nextIs (exec .rcNormalize (coding 0x00800000 0x00194DDB 12 [0x85]))
    (fun t => t.rc == { range := 0x80000000, code := 0x194DDB85, remaining := 11, budget := 64 }) = true := by decide +kernel
/-- 2.3: the top byte of `code` is dropped. -/
theorem test_rcNormalize_drop : nextIs (exec .rcNormalize (coding 0x00FFFFFF 0xFF000000 1 [0x00]))
    (fun t => t.rc == { range := 0xFFFFFF00, code := 0x00000000, remaining := 0, budget := 64 }) = true := by decide +kernel
/-- 2.4, row 3: the boundary `code = bound` is a 1. -/
theorem test_rcDecodeBit : nextIs (exec (.rcDecodeBit (.isRep 4)) (coding 0xFFFFFFFF 0x7FFFFC00 9 []))
    (fun t => t.result == .decision true && t.cell (.isRep 4) == 0x3E0 && t.rc.range == 0x800003FF &&
      t.rc.code == 0) = true := by decide +kernel
/-- 2.4, row 5: a cell of 1056 after a 0. -/
theorem test_rcDecodeBit_zero :
    nextIs (exec (.rcDecodeBit (.isRep 4)) ((coding 0x20000000 0x0DDB855C 9 []).setCell (.isRep 4) 0x420))
      (fun t => t.result == .decision false && t.cell (.isRep 4) == 0x43F && t.rc.range == 0x10800000) = true := by decide +kernel
/-- 2.5, row 4. -/
theorem test_rcDecodeDirect : nextIs (exec (.rcDecodeDirect 2) (coding 0xFFFFFFFF 0xBFFFFFFF 9 []))
    (fun t => t.result == .value 3 && t.rc.range == 0x3FFFFFFF && t.rc.code == 1) = true := by decide +kernel
/-- 2.5, row 3. -/
theorem test_rcDecodeDirect_msb : nextIs (exec (.rcDecodeDirect 2) (coding 0x80000000 0x50000000 9 []))
    (fun t => t.result == .value 2) = true := by decide +kernel
/-- R170: eight decisions of 1 visit cells 1, 3, 7, …, 255 and spell 255 (2.6). -/
theorem test_rcDecodeTree : nextIs (exec (.rcDecodeTree (.lenHigh .repLen) 8) ones)
    (fun t => t.result == .value 255 && t.cell (.lenHigh .repLen 255) == 0x3E0 &&
      t.cell (.lenHigh .repLen 254) == 0x400) = true := by decide +kernel
/-- R170 over a row of 16 cells: four decisions of 1 visit cells 1, 3, 7 and 15 of `isRep0Long[3]`. -/
theorem test_rcDecodeTree_row : nextIs (exec (.rcDecodeTree (.isRep0Long 3) 4) ones)
    (fun t => t.result == .value 15 && t.cell (.isRep0Long 3 15) == 0x3E0 && t.cell (.isRep0Long 3 14) == 0x400) = true := by decide +kernel
/-- R171: three halvings by hand: from `range = 80000000` and equal cells, `code = 20000000` decides `0 1 0`, value 2. -/
theorem test_rcDecodeReverseTree : nextIs (exec (.rcDecodeReverseTree .posAlign 3) (coding 0x80000000 0x20000000 9 []))
    (fun t => t.result == .value 2 && t.cell (.posAlign 5) == 0x420) = true := by decide +kernel
/-- R171 over a table of 12 cells: three decisions of 0 visit cells 1, 2 and 4 of `isRepG1`. -/
theorem test_rcDecodeReverseTree_table : nextIs (exec (.rcDecodeReverseTree .isRepG1 3) zeros)
    (fun t => t.result == .value 0 && t.cell (.isRepG1 4) == 0x420 && t.cell (.isRepG1 3) == 0x400) = true := by decide +kernel
/-- 2.6, last row. -/
theorem test_rcDecodeMatchedLiteral : nextIs (exec (.rcDecodeMatchedLiteral 2 0xFF) ones)
    (fun t => t.result == .byte 0xFF && t.cell (.literal 2 0x2FF) == 0x3E0 && t.cell (.literal 2 0xFF) == 0x400) = true := by decide +kernel
/-- 2.6: against `0x00`, decisions of 1 leave the upper half after the first. -/
theorem test_rcDecodeMatchedLiteral_mismatch : nextIs (exec (.rcDecodeMatchedLiteral 2 0x00) ones)
    (fun t => t.cell (.literal 2 0x101) == 0x3E0 && t.cell (.literal 2 0x03) == 0x3E0) = true := by decide +kernel
/-- R175. -/
theorem test_rcIsComplete : nextIs (exec .rcIsComplete (coding 0x80000000 0 60 []))
    (fun t => t.result == .query true 4) = true := by decide +kernel
/-- P0: the literal after decision 1. -/
theorem test_packetLit : nextIs (exec .packetLit
      { coding 0x7FFFFC00 0x00FFFC00 1 [0x00] with dict := { (dictOf [] 1 0) with bufferSize := 1 } })
    (fun t => t.dict.out == [(0, 0x02)] && t.cell (.literal 0 129) == 0x420 && t.rc.range == 0x00800000) = true := by decide +kernel
/-- 2.6 and R194: in state 7 a literal is matched against the byte `rep0 + 1` back, `0x39`; all decisions 0 leave its
path at the third bit, cell `0x104`. -/
theorem test_packetLit_matched :
    nextIs (exec .packetLit { packets 13 with lz := { (packets 13).lz with state := 7 } })
      (fun t => t.dict.out.read 12 == some 0x00 && t.cell (.literal 1 0x101) == 0x420 &&
        t.cell (.literal 1 0x102) == 0x420 && t.cell (.literal 1 0x204) == 0x420 && t.lz.state == 4) = true := by decide +kernel
/-- 2.10: the reps of MATCH; length 2, stored distance 0: `0x3B` twice. -/
theorem test_packetMatch : nextIs (exec .packetMatch (packets 64))
    (fun t => t.lz == { state := 7, rep0 := 0, rep1 := 2, rep2 := 5, rep3 := 7 } && t.dict.position == 14 &&
      t.dict.out.read 13 == some 0x3B) = true := by decide +kernel
/-- P4 F2: the end marker, after 46 decisions, every eighth of which fetches a byte; at the limit it is `Full` (D24). -/
theorem test_packetMatch_endMarker :
    nextIs (exec .packetMatch { ones with dict := (packets 64).dict }) (fun t => t.fault == some (.endMarker 5)) = true ∧
    nextIs (exec .packetMatch { ones with dict := (packets 12).dict }) (fun t => t.fault == some (.full 12)) = true := by
  decide +kernel
/-- 2.10: SHORTREP copies from 3 back. -/
theorem test_packetShortRep : nextIs (exec .packetShortRep (packets 64))
    (fun t => t.lz == { state := 9, rep0 := 2, rep1 := 5, rep2 := 7, rep3 := 9 } && t.dict.position == 13 &&
      t.dict.out.read 12 == some 0x39) = true := by decide +kernel
/-- R198: SHORTREP reads no `rc` register, so it runs before the first `rc.init`. -/
theorem test_packetShortRep_early : nextIs (exec .packetShortRep { packets 64 with stage := .uninit })
    (fun t => t.dict.position == 13) = true := by decide +kernel
/-- 2.10: LONGREP0 copies from 3 back. -/
theorem test_packetLongRep0 : nextIs (exec .packetLongRep0 (packets 64))
    (fun t => t.lz == { state := 8, rep0 := 2, rep1 := 5, rep2 := 7, rep3 := 9 } &&
      t.dict.out.read 13 == some 0x3A && t.dict.position == 14) = true := by decide +kernel
/-- 2.10: LONGREP1 copies from 6 back. -/
theorem test_packetLongRep1 : nextIs (exec .packetLongRep1 (packets 64))
    (fun t => t.lz == { state := 8, rep0 := 5, rep1 := 2, rep2 := 7, rep3 := 9 } &&
      t.dict.out.read 12 == some 0x36) = true := by decide +kernel
/-- 2.10: LONGREP2 copies from 8 back. -/
theorem test_packetLongRep2 : nextIs (exec .packetLongRep2 (packets 64))
    (fun t => t.lz == { state := 8, rep0 := 7, rep1 := 2, rep2 := 5, rep3 := 9 } &&
      t.dict.out.read 12 == some 0x34) = true := by decide +kernel
/-- 2.10: LONGREP3 copies from 10 back. -/
theorem test_packetLongRep3 : nextIs (exec .packetLongRep3 (packets 64))
    (fun t => t.lz == { state := 8, rep0 := 9, rep1 := 2, rep2 := 5, rep3 := 7 } &&
      t.dict.out.read 12 == some 0x32) = true := by decide +kernel
/-- P4 F3: a copy longer than the room below the limit. -/
theorem test_packetLongRep3_full : nextIs (exec .packetLongRep3 (packets 13)) (fun t => t.fault == some (.full 13)) = true := by decide +kernel
/-- 2.7: length 9 is the last of LEN.LOW. -/
theorem test_lenLow : nextIs (exec (.lenLow .matchLen 3) ones)
    (fun t => t.result == .value 9 && t.cell (.lenLow .matchLen 3 7) == 0x3E0) = true := by decide +kernel
/-- 2.7: length 10 is the first of LEN.MID. -/
theorem test_lenMid : nextIs (exec (.lenMid .repLen 1) zeros)
    (fun t => t.result == .value 10 && t.cell (.lenMid .repLen 1 4) == 0x420) = true := by decide +kernel
/-- 2.7: length 273. -/
theorem test_lenHigh : nextIs (exec (.lenHigh .matchLen) ones) (fun t => t.result == .value 273) = true := by decide +kernel
/-- 2.8: stored distance 3. -/
theorem test_distSlot0To3 : nextIs (exec (.distSlot0To3 3) ones) (fun t => t.result == .value 3) = true := by decide +kernel
/-- 2.8: stored distance 127 is slot 13 with five decisions of 1. -/
theorem test_distSlot4To13 : nextIs (exec (.distSlot4To13 9) ones) (fun t => t.result == .value 127) = true := by decide +kernel
/-- 2.8: stored distance `0xFFFFFFFF` is slot 63 with every decision 1. -/
theorem test_distSlot14To63 : nextIs (exec (.distSlot14To63 49) ones) (fun t => t.result == .value 0xFFFFFFFF) = true := by decide +kernel
/-- 2.8: stored distance 128 is slot 14 with every decision 0. -/
theorem test_distSlot14To63_low : nextIs (exec (.distSlot14To63 0) zeros) (fun t => t.result == .value 128) = true := by decide +kernel
/-- P0: `lz.decode` after `rc.init(6)`. -/
theorem test_lzDecode : nextIs (exec .lzDecode
      { coding 0xFFFFFFFF 0x00FFFC00 1 [0x00] with dict := { (dictOf [] 1 0) with bufferSize := 1 } })
    (fun t => t.dict.out == [(0, 0x02)] && t.rc == { range := 0x80000000, code := 0, remaining := 0, budget := 64 } &&
      t.stage == .decoded) = true := by decide +kernel
/-- R252, U15: `lz.decode` with no `dict.set_limit` for its chunk. -/
theorem test_lzDecode_noLimit : refusedBy (exec .lzDecode { packets 64 with limitSet := false }) .limitNotSet = true := by decide +kernel
/-- 2.7: length 273 through the selector. -/
theorem test_lzDecodeLength : nextIs (exec (.lzDecodeLength .repLen 2) ones)
    (fun t => t.result == .value 273 && t.cell (.lenChoice2 .repLen) == 0x3E0) = true := by decide +kernel
/-- 2.8: `0xFFFFFFFF` through the slot; length 4 uses `posSlot[2]`. -/
theorem test_lzDecodeDistance : nextIs (exec (.lzDecodeDistance 4) ones)
    (fun t => t.result == .value 0xFFFFFFFF && t.cell (.posSlot 2 63) == 0x3E0) = true := by decide +kernel
/-- R215. -/
theorem test_lzResetState : nextIs (exec .lzResetState ((packets 64).markDecoded.setCell (.isRep 3) 0x300))
    (fun t => t.lz == Engine.initial && t.cell (.isRep 3) == 0x400 && t.dict.position == 12) = true := by decide +kernel
/-- U15: `lz.reset_state` between `rc.init` and `lz.decode`. -/
theorem test_lzResetState_late : refusedBy (exec .lzResetState (packets 64)) .outOfOrder = true := by decide +kernel
/-- P0: the chunk by one step. -/
theorem test_chunkLzmaFull : nextIs (step p0)
    (fun t => t.dict.out == [(0, 0x02)] && t.inp.offset == 12 && t.rc.code == 0 && t.rc.remaining == 0 &&
      t.fault == none) = true := by decide +kernel
/-- P4 F12: the property byte `5E`. -/
theorem test_chunkLzmaFull_props : nextIs (exec (.chunkLzmaFull 11 16 0x5E) p0)
    (fun t => t.fault == some (.badProperties 0x5E)) = true := by decide +kernel
/-- R244 and 2.11: `80 00 00 00 00` is a payload of one byte. -/
theorem test_chunkLzmaNone : nextIs (step (fed [0x80, 0, 0, 0, 0, 0] 4)) (fun t => t.fault == some (.budgetExhausted 1)) = true := by decide +kernel
/-- U15: a chunk between a host's `rc.init` and its `lz.decode`. -/
theorem test_chunkLzmaNone_late : refusedBy (exec (.chunkLzmaNone 0 5) (packets 64)) .outOfOrder = true := by decide +kernel
/-- P0's payload after a state reset: the byte `0x02`. -/
theorem test_chunkLzmaState : nextIs (step (fed [0xA0, 0, 0, 0, 5, 0, 0, 0xFF, 0xFC, 0, 0] 4))
    (fun t => t.dict.out == [(0, 0x02)] && t.fault == none) = true := by decide +kernel
/-- P4 F11. -/
theorem test_chunkLzmaProps : nextIs (step (fed [0xC0, 0, 0x0B, 0, 0x10, 0x5D] 12))
    (fun t => t.fault == some (.unsupportedReset 0xC0)) = true := by decide +kernel
/-- P4 F13. -/
theorem test_chunkEnd : nextIs (step (fed [0x00] 12))
    (fun t => t.result == .finished 0 && t.loop == .returned && t.inp.offset == 1) = true := by decide +kernel
/-- P4 F9. -/
theorem test_chunkRawReset : nextIs (step (fed [0x01, 0, 0x0B] 12)) (fun t => t.fault == some (.unsupportedChunk 0x01)) = true := by decide +kernel
/-- R242. -/
theorem test_chunkRaw : nextIs (step (fed [0x02] 12)) (fun t => t.fault == some (.unsupportedChunk 0x02)) = true := by decide +kernel
/-- P4 F10. -/
theorem test_chunkReserved03 : nextIs (step (fed [0x03] 12)) (fun t => t.fault == some (.unsupportedChunk 0x03)) = true := by decide +kernel
/-- R243. -/
theorem test_chunkReserved04 : nextIs (step (fed [0x06] 12)) (fun t => t.fault == some (.unsupportedChunk 0x06)) = true := by decide +kernel
/-- R243. -/
theorem test_chunkReserved08 : nextIs (step (fed [0x0D] 12)) (fun t => t.fault == some (.unsupportedChunk 0x0D)) = true := by decide +kernel
/-- R243. -/
theorem test_chunkReserved10 : nextIs (step (fed [0x19] 12)) (fun t => t.fault == some (.unsupportedChunk 0x19)) = true := by decide +kernel
/-- R243. -/
theorem test_chunkReserved20 : nextIs (step (fed [0x31] 12)) (fun t => t.fault == some (.unsupportedChunk 0x31)) = true := by decide +kernel
/-- R243: the last rejected control byte. -/
theorem test_chunkReserved40 : nextIs (step (fed [0x7F] 12)) (fun t => t.fault == some (.unsupportedChunk 0x7F)) = true := by decide +kernel
/-- R250: the size query over P0. -/
theorem test_sizeQuery : nextIs (step { p0 with mode := .sizeQuery })
    (fun t => t.tally == 1 && t.inp.offset == 12 && t.dict.position == 0) = true := by decide +kernel
/-- R240: the input ends before the control byte. -/
theorem test_step_endOfInput : nextIs (step State.reset) (fun t => t.fault == some (.endOfInput 0)) = true := by decide +kernel
/-- The host's placing: a rejected control byte right after reset. -/
theorem test_withFetchWord : nextIs (step (State.reset.withFetchWord 8 0x02))
    (fun t => t.fault == some (.unsupportedChunk 0x02)) = true := by decide +kernel

/-! ## Witnesses: states and operands that meet the hypotheses of the statements together -/

theorem of_toOption {α : Type} {x : Except Stop (α × State)} {a : α} (h : x.toOption.map Prod.fst = some a) :
    ∃ u, x = .ok (a, u) := by
  cases x with
  | error e => simp [Except.toOption] at h
  | ok p =>
    simp only [Except.toOption, Option.map_some, Option.some.injEq] at h
    exact ⟨p.2, by rw [← h]⟩

theorem bytesFrom_written (bs : List Byte) (a : Nat) : ((bytesFrom bs).read a).isSome ↔ a < bs.length := by
  unfold bytesFrom
  rw [Mem.read_place]
  by_cases h : a < bs.length <;> simp [h]

theorem packets_ready (l : Nat) : (packets l).Ready := ⟨rfl, by simp [packets, zeros, coding]⟩
theorem packets_written (l : Nat) : (packets l).OutputWritten := bytesFrom_written _
theorem packets_ordered : (packets 64).PositionsOrdered ∧ (packets 13).PositionsOrdered := by
  unfold State.PositionsOrdered; decide
theorem packets_canFetch : (packets 64).CanFetch 48 := by unfold State.CanFetch; decide +kernel
theorem zeros_ready : zeros.Ready := ⟨rfl, by decide⟩
theorem zeros_canFetch : zeros.CanFetch 48 := by unfold State.CanFetch; decide +kernel
theorem zeros_present : zeros.InputPresent := by
  constructor
  · decide
  · exact fun a h => (bytesFrom_written _ a).2 h
theorem fresh_cells (c : Cell) : zeros.cell c = 0x400 := rfl
theorem held_written (bs : List Byte) (limit start : Nat) : (held bs limit start).OutputWritten := bytesFrom_written bs
theorem fed_present (bs : List Byte) (capacity : Nat) : (fed bs capacity).InputPresent :=
  ⟨Nat.zero_le _, fun a ha => (bytesFrom_written bs a).2 ha⟩

/-- ChunkHeaderRoundTrip: the shortest and the longest header. -/
theorem witness_ChunkHeaderRoundTrip : encode .chunkEnd = .bytes [0x00] ∧
    encode (.chunkLzmaFull 0x1FFFFF 0xFFFF 0x5D) = .bytes [0xFF, 0xFF, 0xFF, 0xFF, 0xFF, 0x5D] := by decide
/-- PacketCodeRoundTrip: the ends of the length and distance ranges. -/
theorem witness_PacketCodeRoundTrip : (Packet.matchNew 2 0).wellFormed = true ∧
    (Packet.matchNew 273 0xFFFFFFFF).wellFormed = true ∧ (Packet.longRep3 273).wellFormed = true := by decide
/-- PacketCodeComplete: 48 decisions of 1, which begin with LONGREP3 of length 273. -/
theorem witness_PacketCodeComplete : 48 ≤ (List.replicate 48 true).length ∧ (Packet.longRep3 273).wellFormed = true ∧
    List.replicate 48 true = (Packet.longRep3 273).decisions ++ List.replicate 33 true := by decide
/-- StepRunsDecodedInstruction: P0's header; an operation issued. -/
theorem witness_StepRunsDecodedInstruction :
    (p0.issued = [] ∧ p0.fault = none ∧ p0.loop = .running ∧ decodeBytes p0.window = .ok (.chunkLzmaFull 0 5 0x5D, [])) ∧
    ({ State.reset with issued := [.inReadByte] } : State).issued = .inReadByte :: [] := by
  refine ⟨⟨rfl, rfl, rfl, ?_⟩, rfl⟩
  rfl
/-- StepAtEndOfInputOrRun: the first three bytes of a header; a loop that has returned; a fault. -/
theorem witness_StepAtEndOfInputOrRun :
    ((fed [0xE0, 0x00, 0x0B] 8).issued = [] ∧ (fed [0xE0, 0x00, 0x0B] 8).fault = none ∧
      (fed [0xE0, 0x00, 0x0B] 8).loop = .running ∧ (fed [0xE0, 0x00, 0x0B] 8).InputPresent ∧
      decodeBytes (fed [0xE0, 0x00, 0x0B] 8).window = .error .noInfoByte) ∧
    (State.reset.endLoop.issued = [] ∧ State.reset.endLoop.fault = none ∧ State.reset.endLoop.loop = .returned) ∧
    ((State.reset.takeFault (.full 3)).issued = [] ∧ (State.reset.takeFault (.full 3)).fault ≠ none) :=
  ⟨⟨rfl, rfl, rfl, fed_present _ _, rfl⟩, ⟨rfl, rfl, rfl⟩, rfl, by simp⟩
/-- ConstructEstablishesState: the largest input and capacity of 0 and of 2 bits; one byte too many. -/
theorem witness_ConstructEstablishesState : (([] : List Byte).length < 2 ^ 0 ∧ 0 < 2 ^ 0) ∧
    (([0xAA, 0xBB, 0xCC] : List Byte).length < 2 ^ 2 ∧ 3 < 2 ^ 2) ∧ 2 ^ 1 ≤ ([0xAA, 0xBB] : List Byte).length ∧
    2 ^ 1 ≤ 2 := by decide
/-- AfterFaultOnlyConstruct. -/
theorem witness_AfterFaultOnlyConstruct : (State.reset.takeFault (.full 3)).fault ≠ none ∧
    ∀ input params, Instr.inReadByte ≠ .construct input params := ⟨by simp, by simp⟩
/-- OutOfOrderOperationsRefused: before `rc.init`; after `lz.decode`; `rc.init` with no limit; a limit with no `rc.init`; a
host's `rc.init` and `dict.set_limit` in the loop's decode mode. -/
theorem witness_OutOfOrderOperationsRefused :
    (State.reset.fault = none ∧ State.reset.stage = .uninit) ∧
    (State.reset.markDecoded.fault = none ∧ State.reset.markDecoded.stage = .decoded) ∧
    ((State.reset.loadCoder 0 6).fault = none ∧ (State.reset.loadCoder 0 6).stage = .ready ∧
      (State.reset.loadCoder 0 6).limitSet = false) ∧
    ((State.reset.setLimit 1).fault = none ∧ (State.reset.setLimit 1).limitSet = true) ∧
    (State.reset.loadCoder 0 6).mode = .decode ∧ (State.reset.setLimit 1).mode = .decode := by decide
/-- InReadByteReadsAndAdvances: the last byte; the end. -/
theorem witness_InReadByteReadsAndAdvances :
    ((fed [0xAA] 8).fault = none ∧ (fed [0xAA] 8).inp.offset < (fed [0xAA] 8).inp.size ∧
      (fed [0xAA] 8).inp.bytes.read (fed [0xAA] 8).inp.offset = some 0xAA) ∧
    ((fed [] 8).fault = none ∧ (fed [] 8).inp.size ≤ (fed [] 8).inp.offset) := by decide
/-- InReserveReturnsView: all the bytes; none; one too many. -/
theorem witness_InReserveReturnsView :
    ((fed [0xAA, 0xBB] 8).fault = none ∧ ([0xAA, 0xBB] : List Byte).length = 2 ∧
      (fed [0xAA, 0xBB] 8).inp.offset + 2 ≤ (fed [0xAA, 0xBB] 8).inp.size ∧
      ∀ k, k < 2 → (fed [0xAA, 0xBB] 8).inp.bytes.read ((fed [0xAA, 0xBB] 8).inp.offset + k) =
        ([0xAA, 0xBB] : List Byte)[k]?) ∧
    ((fed [] 8).inp.offset + 0 ≤ (fed [] 8).inp.size) ∧
    (fed [0xAA, 0xBB] 8).inp.size < (fed [0xAA, 0xBB] 8).inp.offset + 3 := by decide
/-- InAlign4SkipsZeroPadding: three pad bytes and none; a wrong one; the end of the input. -/
theorem witness_InAlign4SkipsZeroPadding :
    let s := (fed [1, 1, 1, 1, 1, 0, 0, 0] 8).advance 5
    let e := (fed [1, 1, 1, 1, 1, 0] 8).advance 5
    let w := (fed [1, 1, 1, 1, 1, 0, 1] 8).advance 5
    (s.fault = none ∧ (s.inp.offset + 3) % 4 = 0 ∧ s.inp.offset + 3 ≤ s.inp.size ∧
      ∀ j, j < 3 → s.inp.bytes.read (s.inp.offset + j) = some 0) ∧
    ((fed [] 8).inp.offset + 0) % 4 = 0 ∧
    (w.fault = none ∧ (w.inp.offset + 3) % 4 = 0 ∧ w.inp.offset + 1 < w.inp.size ∧
      (∀ i, i < 1 → w.inp.bytes.read (w.inp.offset + i) = some 0) ∧
      w.inp.bytes.read (w.inp.offset + 1) = some 1) ∧
    (e.fault = none ∧ (e.inp.offset + 3) % 4 = 0 ∧ e.inp.offset + 1 = e.inp.size ∧
      ∀ i, i < 1 → e.inp.bytes.read (e.inp.offset + i) = some 0) := by decide
/-- DictInitClears: the largest size, and the next. -/
theorem witness_DictInitClears : zeros.fault = none ∧ 0xFFFFFFFF < 2 ^ zeros.wPos ∧ 2 ^ zeros.wPos ≤ 0x100000000 := by decide
/-- LzResetStateRestoresModel: after `lz.decode`. -/
theorem witness_LzResetStateRestoresModel : (packets 64).markDecoded.fault = none ∧
    (packets 64).markDecoded.limitSet = false ∧ (packets 64).markDecoded.stage ≠ .ready := by decide
/-- ChunkEndReturnsSuccess: a `0x00` at the offset. -/
theorem witness_ChunkEndReturnsSuccess : zeros.fault = none ∧ zeros.issued = [] ∧ zeros.loop = .running ∧
    zeros.mode = .decode ∧ zeros.inp.offset < zeros.inp.size ∧
    zeros.inp.bytes.read zeros.inp.offset = some 0x00 := by decide
/-- RejectedChunksFault: the smallest and the largest rejected control byte; the largest of PROPS; a wrong property byte. -/
theorem witness_RejectedChunksFault : zeros.fault = none ∧ encode .chunkRawReset = .bytes [0x01] ∧ (0x01 : Byte) ≠ 0 ∧
    encode (.chunkReserved40 0x3F) = .bytes [0x7F] ∧ (0x7F : Byte) ≠ 0 ∧
    encode (.chunkLzmaProps 0x1F0000 0) = .bytes [0xDF, 0x00, 0x00, 0x00, 0x00] ∧ (0x5E : Byte) ≠ 0x5D := by decide
/-- DictSetLimitBoundsChunk: the chunk that just fits and the next longer one. -/
theorem witness_DictSetLimitBoundsChunk :
    (held [1, 2, 3, 4, 5] 5 0).dict.position + 3 ≤ (held [1, 2, 3, 4, 5] 5 0).dict.bufferSize ∧
    (held [1, 2, 3, 4, 5] 5 0).dict.bufferSize < (held [1, 2, 3, 4, 5] 5 0).dict.position + 4 ∧
    (held [1, 2, 3, 4, 5] 5 0).fault = none ∧ (held [1, 2, 3, 4, 5] 5 0).stage ≠ .ready := by decide
/-- DictPutLiteralAppends: one byte below the limit; at the limit. -/
theorem witness_DictPutLiteralAppends :
    ((held [1, 2] 3 0).fault = none ∧ (held [1, 2] 3 0).PositionsOrdered ∧
      (held [1, 2] 3 0).dict.position ≠ (held [1, 2] 3 0).dict.limit) ∧
    (held [1, 2] 2 0).dict.position = (held [1, 2] 2 0).dict.limit := by
  unfold State.PositionsOrdered; decide
/-- DictCopyMatchCopies: the farthest copy, up to the limit. -/
theorem witness_DictCopyMatchCopies :
    (held [1, 2, 3] 8 0).fault = none ∧ (held [1, 2, 3] 8 0).PositionsOrdered ∧ (held [1, 2, 3] 8 0).OutputWritten ∧
    1 ≤ 3 ∧ 3 ≤ (held [1, 2, 3] 8 0).dict.position ∧
    (held [1, 2, 3] 8 0).dict.position + 5 ≤ (held [1, 2, 3] 8 0).dict.limit :=
  ⟨rfl, by unfold State.PositionsOrdered; decide, held_written _ _ _, by decide, by decide, by decide⟩
/-- DictCopyMatchFaults: one byte too far, at the limit; one byte too long; length 0. -/
theorem witness_DictCopyMatchFaults :
    ((held [1, 2, 3] 3 0).fault = none ∧ (held [1, 2, 3] 3 0).dict.position < 4) ∧
    ((held [1, 2, 3] 8 0).PositionsOrdered ∧ (held [1, 2, 3] 8 0).OutputWritten ∧
      3 ≤ (held [1, 2, 3] 8 0).dict.position ∧
      (held [1, 2, 3] 8 0).dict.limit < (held [1, 2, 3] 8 0).dict.position + 6) ∧ 1 ≤ 9 :=
  ⟨by decide, ⟨by unfold State.PositionsOrdered; decide, held_written _ _ _, by decide, by decide⟩, by decide⟩
/-- DictByteAtLooksBack: the first byte; one before it. -/
theorem witness_DictByteAtLooksBack :
    ((held [1, 2, 3] 8 0).fault = none ∧ (held [1, 2, 3] 8 0).PositionsOrdered ∧ 1 ≤ 3 ∧
      3 ≤ (held [1, 2, 3] 8 0).dict.position ∧
      (held [1, 2, 3] 8 0).dict.out.read ((held [1, 2, 3] 8 0).dict.position - 3) = some 1) ∧
    (held [1, 2, 3] 8 0).dict.position < 4 := by
  unfold State.PositionsOrdered; decide
/-- DictIsCompleteReports. -/
theorem witness_DictIsCompleteReports :
    (held [1, 2, 3] 3 3).fault = none ∧ (held [1, 2, 3] 3 3).HistoryBelow := by unfold State.HistoryBelow; decide
/-- RcInitLoadsCoder: the shortest payload. -/
theorem witness_RcInitLoadsCoder :
    let s := (fed [0x00, 0x34, 0x19, 0x49, 0xDB] 8).setLimit 8
    s.fault = none ∧ s.limitSet = true ∧ 5 ≤ (5 : Count).toNat ∧ s.inp.offset + 5 ≤ s.inp.size ∧
    s.inp.bytes.read s.inp.offset = some 0 ∧ s.inp.bytes.read (s.inp.offset + 1) = some 0x34 ∧
    s.inp.bytes.read (s.inp.offset + 2) = some 0x19 ∧ s.inp.bytes.read (s.inp.offset + 3) = some 0x49 ∧
    s.inp.bytes.read (s.inp.offset + 4) = some 0xDB := by decide
/-- RcInitFaultsInOrder: a payload of 4; four bytes left of five; a first byte of 1. -/
theorem witness_RcInitFaultsInOrder :
    let s := (fed [0, 1, 2, 3] 8).setLimit 8
    let b := (fed [1, 1, 2, 3, 4] 8).setLimit 8
    (s.fault = none ∧ s.limitSet = true ∧ (4 : Count).toNat < 5) ∧
    (5 ≤ (5 : Count).toNat ∧ s.InputPresent ∧ s.inp.size < s.inp.offset + 5) ∧
    (b.fault = none ∧ b.limitSet = true ∧ b.InputPresent ∧ b.inp.offset + 5 ≤ b.inp.size ∧
      b.inp.bytes.read b.inp.offset = some 1 ∧ (1 : Byte) ≠ 0) :=
  ⟨by decide, ⟨by decide, fed_present [0, 1, 2, 3] 8, by decide⟩, rfl, rfl, fed_present [1, 1, 2, 3, 4] 8, by decide⟩
/-- RcNormalizeShiftsOneByte: `range` at the threshold and one below it; no budget; no input. -/
theorem witness_RcNormalizeShiftsOneByte :
    ((coding 0x01000000 5 1 []).fault = none ∧ (coding 0x01000000 5 1 []).stage ≠ .uninit ∧
      2 ^ 24 ≤ (coding 0x01000000 5 1 []).rc.range.toNat) ∧
    (2 ^ 16 ≤ (coding 0x00010000 5 1 [0x85]).rc.range.toNat ∧
      ∃ t, exec .rcNormalize (coding 0x00010000 5 1 [0x85]) = .next t ∧ t.fault = none) ∧
    ((coding 0x00FFFFFF 5 1 [0x85]).rc.range.toNat < 2 ^ 24 ∧ (coding 0x00FFFFFF 5 1 [0x85]).rc.remaining ≠ 0 ∧
      (coding 0x00FFFFFF 5 1 [0x85]).inp.offset < (coding 0x00FFFFFF 5 1 [0x85]).inp.size ∧
      (coding 0x00FFFFFF 5 1 [0x85]).inp.bytes.read (coding 0x00FFFFFF 5 1 [0x85]).inp.offset = some 0x85) ∧
    (coding 0x00FFFFFF 5 0 [0x85]).rc.remaining = 0 ∧
    ((coding 0x00FFFFFF 5 1 []).rc.remaining ≠ 0 ∧
      (coding 0x00FFFFFF 5 1 []).inp.size ≤ (coding 0x00FFFFFF 5 1 []).inp.offset) :=
  ⟨by decide, ⟨by decide, _, rfl, rfl⟩, by decide, by decide, by decide⟩
/-- RcDecodeBitDecides, and the second part of RcDecodeDirectReadsBits: a normalisation that ends. -/
theorem witness_RcDecodeBitDecides : zeros.Ready ∧ (∃ u, normalize zeros = .ok ((), u)) ∧
    (zeros.cell (.isRep 3)).toNat ≤ 2047 ∧ normalize zeros = .ok ((), zeros) ∧
    let spent : State := { zeros with rc := { zeros.rc with range := 1, remaining := 0 } }
    spent.Ready ∧ normalize spent = .error (.raised (.budgetExhausted 0) spent) :=
  ⟨zeros_ready, ⟨zeros, rfl⟩, by decide, rfl, zeros_ready, rfl⟩
/-- DecisionKeepsArithmeticBounds: a decision that comes out. -/
theorem witness_DecisionKeepsArithmeticBounds : zeros.fault = none ∧ 2 ^ 16 ≤ zeros.rc.range.toNat ∧
    zeros.CellsInRange ∧ (∃ t, exec (.rcDecodeBit (.isRep 3)) zeros = .next t ∧ t.fault = none) ∧
    zeros.rc.code < zeros.rc.range :=
  ⟨rfl, by decide, fun c => by rw [fresh_cells]; decide, ⟨_, rfl, rfl⟩, by decide⟩
/-- RcDecodeDirectReadsBits: bits that follow. -/
theorem witness_RcDecodeDirectReadsBits : zeros.Ready ∧ zeros.CanFetch 26 ∧
    ∃ (bs : List Bool) (u : State), bs.length = 26 ∧ Follows zeros (bs.map fun b => (none, b)) u := by
  have h := zeros_canFetch.mono (m := 26) (by decide)
  obtain ⟨v, u, hr⟩ := run_completes (within_directWalk 26 0) h
  obtain ⟨bs, hl, hf, -⟩ := directBits_ok.1 hr
  exact ⟨zeros_ready, h, bs, u, hl, hf⟩
/-- RcDecodeTreeWalksMsbFirst: the whole of a table. -/
theorem witness_RcDecodeTreeWalksMsbFirst : zeros.Ready ∧ 2 ^ 8 ≤ Probs.size (.lenHigh .repLen) ∧ zeros.CanFetch 8 ∧
    ∃ bs u, bs.length = 8 ∧ Follows zeros (treePath (.lenHigh .repLen) 1 bs) u := by
  have h := zeros_canFetch.mono (m := 8) (by decide)
  obtain ⟨v, u, hr⟩ := run_completes (within_tree (.lenHigh .repLen) 8) h
  obtain ⟨bs, hl, hf, -⟩ := tree_ok.1 hr
  exact ⟨zeros_ready, by decide, h, bs, u, hl, hf⟩
/-- RcDecodeReverseTreeWalksLsbFirst: the whole tree of the last slot. -/
theorem witness_RcDecodeReverseTreeWalksLsbFirst : zeros.Ready ∧ 2 ^ 5 ≤ Probs.size (.distSpecial 9) ∧ zeros.CanFetch 5 ∧
    ∃ bs u, bs.length = 5 ∧ Follows zeros (treePath (.distSpecial 9) 1 bs) u := by
  have h := zeros_canFetch.mono (m := 5) (by decide)
  obtain ⟨v, u, hr⟩ := run_completes (within_tree (.distSpecial 9) 5) h
  obtain ⟨bs, hl, hf, -⟩ := tree_ok.1 hr
  exact ⟨zeros_ready, by decide, h, bs, u, hl, hf⟩
/-- RcDecodeMatchedLiteralFollowsMatchByte: eight decisions of 0 against `0x00`. -/
theorem witness_RcDecodeMatchedLiteralFollowsMatchByte : zeros.Ready ∧ zeros.CanFetch 8 ∧
    ∃ u, Follows zeros (matchedPath 2 0x00 0 1 true (List.replicate 8 false)) u := by
  refine ⟨zeros_ready, zeros_canFetch.mono (by decide), ?_⟩
  refine ⟨_, _, rfl, _, rfl, _, rfl, _, rfl, _, rfl, _, rfl, _, rfl, _, rfl, rfl⟩
/-- RcIsCompleteReports. -/
theorem witness_RcIsCompleteReports : zeros.Ready ∧ zeros.rc.remaining ≤ zeros.rc.budget := ⟨zeros_ready, by decide⟩
/-- LengthCodesAddTheirBase: a path of three, one of eight, and the three selectors. -/
theorem witness_LengthCodesAddTheirBase : zeros.Ready ∧ zeros.CanFetch 10 ∧
    (∃ bs u, bs.length = 3 ∧ Follows zeros (treePath (.lenLow .matchLen (posColumn 2)) 1 bs) u) ∧
    (∃ bs u, bs.length = 3 ∧ Follows zeros (treePath (.lenMid .matchLen (posColumn 2)) 1 bs) u) ∧
    (∃ bs u, bs.length = 8 ∧ Follows zeros (treePath (.lenHigh .matchLen) 1 bs) u) ∧
    (∃ u, Follows zeros [(some (.lenChoice .matchLen), false)] u) ∧
    (∃ u, Follows (coding 0x80000000 0x50000000 9 []) [(some (.lenChoice .matchLen), true), (some (.lenChoice2 .matchLen), false)] u) ∧
    (∃ u, Follows ones [(some (.lenChoice .matchLen), true), (some (.lenChoice2 .matchLen), true)] u) := by
  have h := zeros_canFetch.mono (m := 10) (by decide)
  have path : ∀ p n, n ≤ 10 → ∃ bs u, bs.length = n ∧ Follows zeros (treePath p 1 bs) u := by
    intro p n hn
    obtain ⟨v, u, hr⟩ := run_completes (within_tree p n) (h.mono hn)
    obtain ⟨bs, hl, hf, -⟩ := tree_ok.1 hr
    exact ⟨bs, u, hl, hf⟩
  exact ⟨zeros_ready, h, path _ _ (by decide), path _ _ (by decide), path _ _ (by decide), ⟨_, _, rfl, rfl⟩,
    ⟨_, _, rfl, _, rfl, rfl⟩, ⟨_, _, rfl, _, rfl, rfl⟩⟩
/-- DistanceCodesAssembleDistance: the ends of the slot classes. -/
theorem witness_DistanceCodesAssembleDistance : zeros.Ready ∧ zeros.CanFetch 30 ∧
    (4 = (0 : Fin 10).val + 4 ∧ 13 = (9 : Fin 10).val + 4 ∧ 14 = (0 : Fin 50).val + 14 ∧ 63 = (49 : Fin 50).val + 14) ∧
    (∃ bs u, bs.length = 13 / 2 - 1 ∧ Follows zeros (treePath (.distSpecial 9) 1 bs) u) ∧
    ∃ (ds as : List Bool) (u : State), ds.length = 63 / 2 - 5 ∧ as.length = 4 ∧
      Follows zeros ((ds.map fun b => (none, b)) ++ treePath .posAlign 1 as) u := by
  have h := zeros_canFetch.mono (m := 30) (by decide)
  refine ⟨zeros_ready, h, by decide, ?_, ?_⟩
  · obtain ⟨v, u, hr⟩ := run_completes (within_tree (.distSpecial 9) 5) (h.mono (by decide))
    obtain ⟨bs, hl, hf, -⟩ := tree_ok.1 hr
    exact ⟨bs, u, hl, hf⟩
  · obtain ⟨v, u, hr⟩ := run_completes
      ((within_directWalk 26 0).bind (f := fun _ => Dec.reverseTree .posAlign 4) fun _ => within_reverseWalk _ 4 0 1 0) h
    obtain ⟨d, w, h₁, h₂⟩ := run_bind_ok.1 hr
    obtain ⟨ds, hd, hf, -⟩ := directBits_ok.1 h₁
    obtain ⟨as, ha, hg, -⟩ := reverseTree_ok.1 h₂
    exact ⟨ds, as, u, hd, ha, follows_append.2 ⟨w, hf, hg⟩⟩
/-- LzDecodeDistanceSelectsSlot: the shortest length, and a path over every group. -/
theorem witness_LzDecodeDistanceSelectsSlot : zeros.Ready ∧ zeros.CanFetch 36 ∧ 2 ≤ 2 ∧
    ∀ group : Fin 4, ∃ bs u, bs.length = 6 ∧ Follows zeros (treePath (.posSlot group) 1 bs) u := by
  have h := zeros_canFetch.mono (m := 36) (by decide)
  refine ⟨zeros_ready, h, by decide, fun group => ?_⟩
  obtain ⟨v, u, hr⟩ := run_completes (within_tree (.posSlot group) 6) (h.mono (by decide))
  obtain ⟨bs, hl, hf, -⟩ := tree_ok.1 hr
  exact ⟨bs, u, hl, hf⟩
/-- RangeCoderSpellsDecisions: a length decoded. -/
theorem witness_RangeCoderSpellsDecisions : ∃ t, (lengthTree .matchLen 1).run zeros = .ok (2, t) :=
  of_toOption (by decide +kernel)
/-- What LIT samples of the packets' state: the last byte, and no match byte in state 0. -/
theorem packets_samples (l : Nat) : (packets l).LitSamples 0x3B 0 :=
  ⟨(rfl : (packets l).dict.out.read 11 = some 0x3B), fun h => absurd h (by decide : ¬7 ≤ 0),
    fun h => absurd h (by decide : ¬7 ≤ 0)⟩
/-- P0's literal after decision 1: one payload byte left, the limit one byte on. -/
def lastByte : State :=
  { coding 0x7FFFFC00 0x00FFFC00 1 [0x00] with dict := { (dictOf [] 1 0) with bufferSize := 1 } }
/-- LitAppendsDecodedByte: a plain literal; the first of the output; a matched one; one whose match byte lies before the
buffer; P0's, with one payload byte left. -/
theorem witness_LitAppendsDecodedByte :
    let far : State := { packets 64 with lz := { (packets 64).lz with state := 7, rep0 := 12 } }
    let s : State := { packets 64 with lz := { (packets 64).lz with state := 7 } }
    ((packets 64).Ready ∧ (packets 64).PositionsOrdered ∧ (packets 64).OutputWritten ∧ (packets 64).CanFetch 8 ∧
      (packets 64).dict.position < (packets 64).dict.limit ∧ (packets 64).LitSamples 0x3B 0) ∧
    s.LitSamples 0x3B 0x39 ∧ far.LitSamples 0x3B 0 ∧ zeros.LitSamples 0 0 ∧
    (lastByte.Ready ∧ lastByte.PositionsOrdered ∧ lastByte.OutputWritten ∧
      lastByte.dict.position < lastByte.dict.limit ∧ lastByte.LitSamples 0 0 ∧
      ∃ u, (lastByte.litDecoder 0 0).run lastByte = .ok (0x02, u)) := by
  refine ⟨⟨packets_ready _, packets_ordered.1, packets_written _, packets_canFetch.mono (by decide), by decide,
    packets_samples _⟩, ⟨?_, ?_, ?_⟩, ⟨?_, ?_, ?_⟩, ⟨?_, ?_, ?_⟩,
    ⟨rfl, by decide⟩, by unfold State.PositionsOrdered; decide, bytesFrom_written [], by decide, ⟨?_, ?_, ?_⟩,
    of_toOption (by decide +kernel)⟩ <;> decide
/-- MatchCopiesFromNewDistance: length 2, stored distance 0. -/
theorem witness_MatchCopiesFromNewDistance : (packets 64).CanFetch 46 ∧ (packets 64).Ready ∧ (packets 64).PositionsOrdered ∧
    (packets 64).OutputWritten ∧
    (∃ u v, (lengthTree .matchLen (packets 64).posState).run (packets 64) = .ok (2, u) ∧
      (distanceTree 2).run u = .ok (0, v)) ∧
    (0 : Word) ≠ 0xFFFFFFFF ∧ (0 : Word).toNat + 1 ≤ (packets 64).dict.position ∧
    (packets 64).dict.position + 2 ≤ (packets 64).dict.limit := by
  refine ⟨packets_canFetch.mono (by decide), packets_ready _, packets_ordered.1, packets_written _, ?_, by decide,
    by decide, by decide⟩
  obtain ⟨v, h⟩ := of_toOption (x := ((lengthTree .matchLen (packets 64).posState).bind fun l =>
    (distanceTree l).map fun d => (l, d)).run (packets 64)) (a := (2, 0)) (by decide +kernel)
  obtain ⟨l, u, h₁, h₂⟩ := run_bind_ok.1 h
  obtain ⟨d, h₃, h₄⟩ := run_map_ok.1 h₂
  cases h₄
  exact ⟨u, v, h₁, h₃⟩
/-- ShortRepCopiesOneByte: one byte of room. -/
theorem witness_ShortRepCopiesOneByte : (packets 13).fault = none ∧ (packets 13).PositionsOrdered ∧ (packets 13).OutputWritten ∧
    (packets 13).lz.rep0.toNat + 1 ≤ (packets 13).dict.position ∧
    (packets 13).dict.position < (packets 13).dict.limit ∧
    let far : State := { packets 13 with lz := { Engine.initial with rep0 := 12 } }
    far.fault = none ∧ far.dict.position ≠ far.dict.limit ∧ far.dict.position < far.lz.rep0.toNat + 1 :=
  ⟨rfl, packets_ordered.2, packets_written _, by decide, by decide, rfl, by decide, by decide⟩
/-- LongRepCopiesFromChosenRep: length 2, each rep inside the output. -/
theorem witness_LongRepCopiesFromChosenRep : (packets 64).CanFetch 10 ∧ (packets 64).Ready ∧ (packets 64).PositionsOrdered ∧
    (packets 64).OutputWritten ∧
    (∃ u, (lengthTree .repLen (packets 64).posState).run (packets 64) = .ok (2, u)) ∧
    (packets 64).dict.position + 2 ≤ (packets 64).dict.limit ∧
    (packets 64).lz.rep0.toNat + 1 ≤ (packets 64).dict.position ∧
    (packets 64).lz.rep1.toNat + 1 ≤ (packets 64).dict.position ∧
    (packets 64).lz.rep2.toNat + 1 ≤ (packets 64).dict.position ∧
    (packets 64).lz.rep3.toNat + 1 ≤ (packets 64).dict.position :=
  ⟨packets_canFetch.mono (by decide), packets_ready _, packets_ordered.1, packets_written _,
    of_toOption (by decide +kernel), by decide, by decide, by decide, by decide, by decide⟩
/-- A fault that an outcome has taken. -/
theorem took {o : Outcome} {f : CoreFault} (h : nextIs o (fun t => t.fault == some f) = true) :
    ∃ t, o = .next t ∧ t.fault = some f := by
  cases o with
  | next t => exact ⟨t, rfl, by simpa [nextIs] using h⟩
  | fault _ => simp [nextIs] at h
  | refused _ => simp [nextIs] at h
/-- The same CORE with nothing written and room up to 64. -/
def withRoom (s : State) : State := { s with dict := { s.dict with limit := 64 } }
/-- PacketFaultKinds: a fault of each packet. -/
theorem witness_PacketFaultKinds : (packets 12).fault = none ∧
    (∃ t, exec .packetLit (packets 12) = .next t ∧ t.fault = some (.full 12)) ∧
    (∃ t, exec .packetMatch (withRoom ones) = .next t ∧ t.fault = some (.endMarker 5)) ∧
    (∃ t, exec .packetShortRep (withRoom zeros) = .next t ∧ t.fault = some (.invalidDistance 1 0)) ∧
    ∃ t, exec .packetLongRep0 (packets 13) = .next t ∧ t.fault = some (.full 13) :=
  ⟨rfl, took (by decide +kernel), took (by decide +kernel), took (by decide +kernel), took (by decide +kernel)⟩
/-- The packets' state with a rep of one byte too far. -/
def far : State := { packets 64 with lz := { (packets 64).lz with rep3 := 12 } }
/-- PacketFaultConditions: the end marker, at the limit too; a distance of one byte too far; a copy one byte too long; the
same two of a LONGREP3, and one at the limit; a literal and a short rep there. -/
theorem witness_PacketFaultConditions :
    ((ones.Ready ∧ ones.PositionsOrdered ∧ ones.OutputWritten ∧ (withRoom ones).PositionsOrdered ∧
      (∃ u v, (lengthTree .matchLen ones.posState).run ones = .ok (273, u) ∧
        (distanceTree 273).run u = .ok (0xFFFFFFFF, v)) ∧ ones.dict.position = ones.dict.limit ∧
      (∃ u v, (lengthTree .matchLen (withRoom ones).posState).run (withRoom ones) = .ok (273, u) ∧
        (distanceTree 273).run u = .ok (0xFFFFFFFF, v)) ∧
      (withRoom ones).dict.position ≠ (withRoom ones).dict.limit) ∧
    ((withRoom zeros).Ready ∧ (∃ u v, (lengthTree .matchLen (withRoom zeros).posState).run (withRoom zeros) = .ok (2, u) ∧
      (distanceTree 2).run u = .ok (0, v)) ∧ (withRoom zeros).dict.position ≠ (withRoom zeros).dict.limit ∧
      (withRoom zeros).dict.position < (0 : Word).toNat + 1) ∧
    ((packets 13).dict.position ≠ (packets 13).dict.limit ∧ (packets 13).PositionsOrdered ∧ (packets 13).dict.limit < (packets 13).dict.position + 2)) ∧
    ((far.Ready ∧ far.PositionsOrdered ∧ far.OutputWritten ∧
        (∃ u, (lengthTree .repLen far.posState).run far = .ok (2, u)) ∧ far.dict.position ≠ far.dict.limit ∧
        far.dict.position < far.lz.rep3.toNat + 1) ∧
      (packets 13).Ready ∧ (packets 13).OutputWritten ∧
        (∃ u, (lengthTree .repLen (packets 13).posState).run (packets 13) = .ok (2, u)) ∧
        (packets 13).lz.rep3.toNat + 1 ≤ (packets 13).dict.position ∧
        ∃ u, (lengthTree .repLen (packets 12).posState).run (packets 12) = .ok (2, u)) ∧
    ((packets 12).Ready ∧ (packets 12).PositionsOrdered ∧ (packets 12).OutputWritten ∧ (packets 12).LitSamples 0x3B 0 ∧
      (∃ u, ((packets 12).litDecoder 0x3B 0).run (packets 12) = .ok (0, u)) ∧
      (packets 12).dict.position = (packets 12).dict.limit) := by
  have pair : ∀ {s : State} {ps : BitVec 2} {l : Nat} {d : Word},
      (((lengthTree .matchLen ps).bind fun l => (distanceTree l).map fun d => (l, d)).run s).toOption.map Prod.fst =
        some (l, d) →
      ∃ u v, (lengthTree .matchLen ps).run s = .ok (l, u) ∧ (distanceTree l).run u = .ok (d, v) := by
    intro s ps l d h
    obtain ⟨v, h⟩ := of_toOption h
    obtain ⟨l', u, h₁, h₂⟩ := run_bind_ok.1 h
    obtain ⟨d', h₃, h₄⟩ := run_map_ok.1 h₂
    cases h₄
    exact ⟨u, v, h₁, h₃⟩
  refine ⟨⟨⟨⟨rfl, by decide⟩, ?_, bytesFrom_written [], ?_, pair (by decide +kernel), rfl, pair (by decide +kernel),
      by decide⟩, ⟨⟨rfl, by decide⟩, pair (by decide +kernel), by decide, by decide⟩, by decide, packets_ordered.2, by decide⟩,
    ⟨⟨packets_ready 64, packets_ordered.1, packets_written 64, of_toOption (by decide +kernel), by decide, by decide⟩,
      packets_ready _, packets_written _, of_toOption (by decide +kernel), by decide, of_toOption (by decide +kernel)⟩,
    packets_ready _, ?_, packets_written _, packets_samples _, of_toOption (by decide +kernel), rfl⟩ <;>
  (unfold State.PositionsOrdered; decide)
/-- A CORE that needs a byte and has none in its budget. -/
def spent : State := { packets 13 with rc := { (packets 13).rc with range := 1, remaining := 0 } }
/-- P0's payload next in `IN`. -/
def p0Payload : State := fed [0x00, 0x00, 0xFF, 0xFC, 0x00, 0x00, 0x00] 8
/-- A chunk of one byte over it, its payload header read, `n` bytes of the payload left. -/
def p0Chunk (n : Count) : State :=
  { p0Payload with
    lz := Engine.initial
    probs := []
    dict := { p0Payload.dict with limit := 1 }
    inp := { p0Payload.inp with offset := 5 }
    rc := { range := 0xFFFFFFFF, code := 0x00FFFC00, remaining := n, budget := n + 5 }
    stage := .ready
    limitSet := true }
/-- One packet, and how the normalisation after it ends. -/
theorem packet_then {s : State} {p : State → Bool} {q : Except Stop (Unit × State) → Bool}
    (h : (match onePacket s with
      | .ok (_, u) => p u && q (normalize u)
      | .error _ => false) = true) : ∃ u, onePacket s = .ok ((), u) ∧ p u = true ∧ q (normalize u) = true := by
  cases hp : onePacket s with
  | error e => rw [hp] at h; cases h
  | ok r =>
    rw [hp] at h
    obtain ⟨h₁, h₂⟩ := Bool.and_eq_true_iff.1 h
    exact ⟨r.2, rfl, h₁, h₂⟩
/-- LzDecodeRunsPackets: a literal below the limit; one that reaches it, and the final normalisation; a packet that raises
a fault; a final normalisation that does. -/
theorem witness_LzDecodeRunsPackets :
    ((packets 64).fault = none ∧ (packets 64).stage = .ready ∧ (packets 64).limitSet = true ∧
      ∃ u, onePacket (packets 64) = .ok ((), u) ∧ u.dict.position < u.dict.limit) ∧
    (∃ u v, onePacket (packets 13) = .ok ((), u) ∧ u.dict.limit ≤ u.dict.position ∧ normalize u = .ok ((), v)) ∧
    onePacket spent = .error (.raised (.budgetExhausted 0) spent) ∧
    ∃ f u v, onePacket (p0Chunk 0) = .ok ((), u) ∧ u.dict.limit ≤ u.dict.position ∧
      normalize u = .error (.raised f v) := by
  refine ⟨⟨rfl, rfl, rfl, ?_⟩, ?_, rfl, ?_⟩
  · obtain ⟨u, h, hp, -⟩ := packet_then (s := packets 64) (p := fun u => decide (u.dict.position < u.dict.limit))
      (q := fun _ => true) (by decide +kernel)
    exact ⟨u, h, by simpa using hp⟩
  · obtain ⟨u, h, hp, hq⟩ := packet_then (s := packets 13) (p := fun u => decide (u.dict.limit ≤ u.dict.position))
      (q := fun r => match r with | .ok _ => true | .error _ => false) (by decide +kernel)
    cases hn : normalize u with
    | ok r => exact ⟨u, r.2, h, by simpa using hp, hn⟩
    | error e => rw [hn] at hq; cases hq
  · obtain ⟨u, h, hp, hq⟩ := packet_then (s := p0Chunk 0) (p := fun u => decide (u.dict.limit ≤ u.dict.position))
      (q := fun r => match r with | .error (.raised _ _) => true | _ => false) (by decide +kernel)
    cases hn : normalize u with
    | ok r => rw [hn] at hq; cases hq
    | error e =>
      cases e with
      | raised f v => exact ⟨f, u, v, h, by simpa using hp, hn⟩
      | refuse r => rw [hn] at hq; cases hq
      | trap r => rw [hn] at hq; cases hq
/-- PacketLoopRunsDecodedPacket: the type code of a literal, and the literal; at the limit, a literal that faults; a type code
that does. -/
theorem witness_PacketLoopRunsDecodedPacket :
    ((packets 64).Ready ∧ (0 : Fin 16).val = (packets 64).dict.position % 4 ∧ (packets 64).CanFetch 5 ∧
      (.packetLit, [(some (.isMatch 0 0), false)]) ∈ typeCodes (packets 64).lz.state 0 ∧
      (∃ u, Follows (packets 64) [(some (.isMatch 0 0), false)] u) ∧ ∃ v, onePacket (packets 64) = .ok ((), v)) ∧
    (∃ u t, Follows (packets 12) [(some (.isMatch 0 0), false)] u ∧ exec .packetLit u = .next t ∧
      t.fault = some (.full 12)) ∧
    (∃ u, Follows ones [(some (.isMatch 0 0), true), (some (.isRep 0), true), (some (.isRepG0 0), true),
      (some (.isRepG1 0), true), (some (.isRepG2 0), true)] u) ∧
    decodeBit (.isMatch 0 0) spent = .error (.raised (.budgetExhausted 0) spent) :=
  ⟨⟨packets_ready _, by decide, packets_canFetch.mono (by decide), .head _, ⟨_, _, rfl, rfl⟩,
    of_toOption (by decide +kernel)⟩, ⟨_, _, ⟨_, rfl, rfl⟩, rfl, rfl⟩, ⟨_, _, rfl, _, rfl, _, rfl, _, rfl, _, rfl, rfl⟩, rfl⟩
/-- LzDecodeEndsAtLimit: an `lz.decode` that ends. -/
theorem witness_LzDecodeEndsAtLimit : (packets 13).PositionsOrdered ∧
    ∃ t, exec .lzDecode (packets 13) = .next t ∧ t.fault = none := by
  refine ⟨packets_ordered.2, ?_⟩
  have h : nextIs (exec .lzDecode (packets 13)) (fun t => t.fault == none) = true := by decide +kernel
  generalize exec .lzDecode (packets 13) = o at h
  cases o with
  | next t => exact ⟨t, rfl, by simpa [nextIs] using h⟩
  | fault _ => simp [nextIs] at h
  | refused _ => simp [nextIs] at h
/-- ZeroPayloadDecodesZeroByte: `lz.decode` with one byte of room; chunks in a constructed CORE. -/
theorem witness_ZeroPayloadDecodesZeroByte :
    ((packets 13).fault = none ∧ (packets 13).stage = .ready ∧ (packets 13).limitSet = true ∧ (packets 13).PositionsOrdered ∧ (packets 13).OutputWritten ∧
      (packets 13).dict.position + 1 = (packets 13).dict.limit ∧ (∀ c, (packets 13).cell c = 0x400) ∧
      (packets 13).lz.state.val < 7 ∧ (packets 13).rc.range = 0xFFFFFFFF ∧ (packets 13).rc.code = 0 ∧
      (packets 13).rc.remaining ≠ 0 ∧ (packets 13).inp.offset < (packets 13).inp.size ∧
      (packets 13).inp.bytes.read (packets 13).inp.offset = some 0) ∧
    let s : State := fed [0, 0, 0, 0, 0, 0] 1
    (s.fault = none ∧ s.mode = .decode ∧ s.stage ≠ .ready ∧ s.limitSet = false ∧ s.PositionsOrdered ∧ s.OutputWritten ∧
      s.dict.position < s.dict.bufferSize ∧ s.inp.offset + 6 ≤ s.inp.size ∧
      (∀ k, k < 6 → s.inp.bytes.read (s.inp.offset + k) = some 0) ∧ (∀ c, s.cell c = 0x400) ∧ s.lz.state.val < 4) :=
  ⟨⟨rfl, rfl, rfl, packets_ordered.2, packets_written _, by decide, fun c => rfl, by decide, rfl, rfl, by decide, by decide,
    by decide⟩, rfl, rfl, by decide, rfl, by unfold State.PositionsOrdered; decide, bytesFrom_written [], by decide,
    by decide +kernel, by decide +kernel, fun c => rfl, by decide⟩
/-- How a chunk's coder ends. -/
theorem coder_ends {s : State} {b : Bool}
    (h : ((do lzDecode; look fun s => decide (s.rc.code = 0 ∧ s.rc.remaining = 0) : M Bool) s).toOption.map Prod.fst =
      some b) : ∃ w, lzDecode s = .ok ((), w) ∧ decide (w.rc.code = 0 ∧ w.rc.remaining = 0) = b := by
  obtain ⟨u, h⟩ := of_toOption h
  obtain ⟨⟨⟩, w, h₁, h₂⟩ := bind_ok.1 h
  exact ⟨w, h₁, (look_ok.1 h₂).1⟩
/-- LzmaChunkDecodes: P0's payload, whose coder ends at 0 with nothing left; the same with a payload one byte longer; a chunk
one byte longer than the buffer; a payload of 4; four bytes left of five; a first byte of 1; a budget that ends too early. -/
theorem witness_LzmaChunkDecodes :
    (p0Payload.fault = none ∧ p0Payload.mode = .decode ∧ p0Payload.stage ≠ .ready ∧ p0Payload.limitSet = false ∧
      p0Payload.PositionsOrdered ∧ 5 ≤ compressedSize 5 ∧
      p0Payload.dict.position + uncompressedSize 0 ≤ p0Payload.dict.bufferSize ∧
      p0Payload.inp.offset + 5 ≤ p0Payload.inp.size ∧
      p0Payload.inp.bytes.read p0Payload.inp.offset = some 0 ∧
      p0Payload.inp.bytes.read (p0Payload.inp.offset + 1) = some 0x00 ∧
      p0Payload.inp.bytes.read (p0Payload.inp.offset + 2) = some 0xFF ∧
      p0Payload.inp.bytes.read (p0Payload.inp.offset + 3) = some 0xFC ∧
      p0Payload.inp.bytes.read (p0Payload.inp.offset + 4) = some 0x00) ∧
    (∃ w, lzDecode (p0Chunk 1) = .ok ((), w) ∧ w.rc.code = 0 ∧ w.rc.remaining = 0) ∧
    (∃ w, lzDecode (p0Chunk 2) = .ok ((), w) ∧ ¬(w.rc.code = 0 ∧ w.rc.remaining = 0)) ∧
    (∃ f w, lzDecode (p0Chunk 0) = .error (.raised f w)) ∧
    p0Payload.dict.bufferSize < p0Payload.dict.position + uncompressedSize 8 ∧ compressedSize 3 < 5 ∧
    ((fed [0, 1, 2, 3] 8).InputPresent ∧ (fed [0, 1, 2, 3] 8).inp.size < (fed [0, 1, 2, 3] 8).inp.offset + 5) ∧
    ((fed [1, 1, 2, 3, 4] 8).InputPresent ∧
      (fed [1, 1, 2, 3, 4] 8).inp.offset + 5 ≤ (fed [1, 1, 2, 3, 4] 8).inp.size ∧
      (fed [1, 1, 2, 3, 4] 8).inp.bytes.read (fed [1, 1, 2, 3, 4] 8).inp.offset = some 1 ∧ (1 : Byte) ≠ 0) := by
  refine ⟨by unfold State.PositionsOrdered; decide, ?_, ?_, ?_, by decide, by decide, ⟨fed_present _ _, by decide⟩,
    fed_present _ _, by decide⟩
  · obtain ⟨w, h, hb⟩ := coder_ends (s := p0Chunk 1) (b := true) (by decide +kernel)
    exact ⟨w, h, by simpa using hb⟩
  · obtain ⟨w, h, hb⟩ := coder_ends (s := p0Chunk 2) (b := false) (by decide +kernel)
    exact ⟨w, h, by simpa using hb⟩
  · have h : (match lzDecode (p0Chunk 0) with | .error (.raised _ _) => true | _ => false) = true := by decide +kernel
    cases hr : lzDecode (p0Chunk 0) with
    | ok r => rw [hr] at h; cases h
    | error e =>
      cases e with
      | raised f v => exact ⟨f, v, rfl⟩
      | refuse r => rw [hr] at h; cases h
      | trap r => rw [hr] at h; cases h
/-- LzmaChunkSizeQuery: a payload that ends with the input, and one a byte longer. -/
theorem witness_LzmaChunkSizeQuery :
    let s : State := { fed [0, 0, 0, 0, 0, 0] 0 with mode := .sizeQuery }
    s.fault = none ∧ s.mode = .sizeQuery ∧ s.InputPresent ∧ s.inp.offset + compressedSize 5 ≤ s.inp.size ∧
      s.inp.size < s.inp.offset + compressedSize 6 :=
  ⟨rfl, rfl, fed_present [0, 0, 0, 0, 0, 0] 0, by decide, by decide⟩
/-- UncompressedMismatchUnreachable: a chunk decoded. -/
theorem witness_UncompressedMismatchUnreachable : p0.fault = none ∧ p0.PositionsOrdered ∧
    ∃ t, exec (.chunkLzmaFull 0 5 0x5D) (p0.advance 6) = .next t ∧ t.fault = none := by
  refine ⟨rfl, by unfold State.PositionsOrdered; decide, ?_⟩
  have h : nextIs (exec (.chunkLzmaFull 0 5 0x5D) (p0.advance 6)) (fun t => t.fault == none) = true := by decide +kernel
  generalize exec (.chunkLzmaFull 0 5 0x5D) (p0.advance 6) = o at h
  cases o with
  | next t => exact ⟨t, rfl, by simpa [nextIs] using h⟩
  | fault _ => simp [nextIs] at h
  | refused _ => simp [nextIs] at h
/-- OutputIsAppendOnly: a literal put. -/
theorem witness_OutputIsAppendOnly : (held [1, 2] 3 0).fault = none ∧ (held [1, 2] 3 0).PositionsOrdered ∧
    (∀ input params, Instr.dictPutLiteral 7 ≠ .construct input params) ∧
    (∀ size, Instr.dictPutLiteral 7 ≠ .dictInit size) ∧
    ∃ t, exec (.dictPutLiteral 7) (held [1, 2] 3 0) = .next t ∧ t.fault = none :=
  ⟨rfl, by unfold State.PositionsOrdered; decide, by simp, by simp, ⟨_, rfl, rfl⟩⟩
/-- A state that meets the invariant. -/
theorem zeros_inv : zeros.Inv :=
  State.Sound.inv ⟨⟨Mem.wf_nil, Mem.wf_place Mem.wf_nil _ _, ProbTable.wf_nil, by decide⟩,
    by unfold State.PositionsOrdered; decide, bytesFrom_written [], fun c => by rw [fresh_cells]; decide, zeros_present,
    fun _ => by decide, by unfold State.HistoryBelow; decide⟩
/-- StepNeverTraps: such a state. -/
theorem witness_StepNeverTraps : zeros.Inv := zeros_inv
/-- StepKeepsInvariant: such a state, and a step from it: CHUNK.END. -/
theorem witness_StepKeepsInvariant : zeros.Inv ∧ ∃ t, step zeros = .next t := ⟨zeros_inv, _, rfl⟩
/-- MatchByteStaysInside: a match byte at the start of the output, and a literal put. -/
theorem witness_MatchByteStaysInside :
    let s : State := { held [1, 2] 3 0 with lz := { Engine.initial with state := 7, rep0 := 1 } }
    s.MatchByteInside ∧ (∀ size, Instr.dictPutLiteral 7 ≠ .dictInit size) ∧ ∃ t, exec (.dictPutLiteral 7) s = .next t :=
  ⟨fun _ _ => by decide, by simp, ⟨_, rfl⟩⟩
/-- SizeQueryFollowsDecode: P0, decoded and asked. -/
theorem witness_SizeQueryFollowsDecode :
    let q : State := { p0 with mode := .sizeQuery }
    p0.fault = none ∧ q.fault = none ∧ p0.mode = .decode ∧ q.mode = .sizeQuery ∧ p0.inp = q.inp ∧ p0.InputPresent ∧
    p0.PositionsOrdered ∧ p0.issued = [] ∧ q.issued = [] ∧ p0.loop = q.loop ∧ q.tally = p0.dict.position ∧
    ∃ t, step p0 = .next t ∧ t.fault = none := by
  refine ⟨rfl, rfl, rfl, rfl, rfl, fed_present _ _, by unfold State.PositionsOrdered; decide, rfl, rfl, rfl,
    rfl, ?_⟩
  have h : nextIs (step p0) (fun t => t.fault == none) = true := by decide +kernel
  generalize step p0 = o at h
  cases o with
  | next t => exact ⟨t, rfl, by simpa [nextIs] using h⟩
  | fault _ => simp [nextIs] at h
  | refused _ => simp [nextIs] at h

end Sys2Proof.Tests
end

/-! # The invariant of the machine over one step (spec/00_scope.md R9, spec/10_state.md R39, R44, R45)

`Laws/Safe.lean` says what every shared operation does with soundness. Here: the states that start anew, every
instruction's outcome, the fetch, and the step made of the two. -/

namespace Sys2Proof.Machine

variable {α : Type} {s t : State}

/-- An outcome that keeps the invariant: its next state meets it, and it is no trap. -/
def SafeOutcome (o : Outcome) : Prop := (∀ t, o = .next t → t.Inv) ∧ NoTrap o

theorem SafeOutcome.next (h : t.Inv) : SafeOutcome (.next t) := ⟨fun _ e => by cases e; exact h, nofun⟩

theorem SafeOutcome.refused (r : Refusal) : SafeOutcome (.refused r) := ⟨nofun, nofun⟩

/-! ## States that start anew -/

/-- In the table that lists no cell every cell holds `PROB_INIT` (R27), which lies in range. -/
theorem cellsInRange_of_probs_nil (h : s.probs = []) : s.CellsInRange := fun c => by
  rw [State.cell, h, ProbTable.get_nil]
  decide

/-- `IN` placed from address 0 on holds a byte at every address below its length (R60). -/
theorem read_place_zero_isSome (input : List Byte) {a : Nat} (ha : a < input.length) :
    ((Mem.place [] 0 input).read a).isSome := by
  simp [Mem.read_place, ha]

/-- Construction gives a sound state, whatever the state before it (R330, R46). -/
theorem sound_construct (s : State) {wPos capacity : Nat} {input : List Byte} (hin : input.length < 2 ^ wPos)
    (hcap : capacity < 2 ^ wPos) : (s.construct wPos input capacity).Sound where
  canonical := ⟨Mem.wf_nil, Mem.wf_place Mem.wf_nil 0 input, ProbTable.wf_nil, hcap, hin⟩
  positions := ⟨le_rfl, Nat.zero_le _⟩
  output := fun a => by simp
  cells := cellsInRange_of_probs_nil rfl
  input := ⟨Nat.zero_le _, fun _ ha => read_place_zero_isSome input ha⟩
  coder := fun hst => absurd rfl hst
  history := le_rfl

/-- `dict.init` of a size the registers can hold keeps soundness: the output is empty again (R140). -/
theorem State.Sound.initDict (h : s.Sound) {size : Nat} (hsize : size < 2 ^ s.wPos) : (s.initDict size).Sound where
  canonical := ⟨Mem.wf_nil, h.canonical.bytes, h.canonical.probs, hsize, h.canonical.sizes.2⟩
  positions := ⟨le_rfl, Nat.zero_le _⟩
  output := fun a => by simp
  cells := h.cells
  input := h.input
  coder := h.coder
  history := le_rfl

/-! ## The outcome of every instruction -/

/-- `lz.decode` goes past its check only where the `rc` registers hold values (R333). -/
theorem safe_needChunk : Safe State.Sound needChunk fun _ => State.Started := fun s hs =>
  ⟨fun a t h => by
    obtain ⟨⟨hready, -⟩, rfl⟩ := needChunk_ok.1 h
    exact ⟨hs, by simp [hready]⟩, (Safe.needChunk s hs).2⟩

theorem commit_keeps {ret : α → Result} {m : M α} (hm : Keeps m) (h : s.Inv) : SafeOutcome (commit ret m s) :=
  commit_safe hm h.sound

theorem commit_needRc_keeps {ret : α → Result} {m : M α} (hm : Keeps m) (h : s.Inv) :
    SafeOutcome (commit ret (do needRc; m) s) :=
  commit_keeps (Safe.bind Safe.needRc fun _ => hm) h

theorem keeps_raise (f : CoreFault) : Keeps (raise f : M α) := Safe.raise fun _ h => h.canonical

theorem rejectControl_safe (control : Byte) (h : s.Inv) : SafeOutcome (rejectControl control s) :=
  commit_keeps (keeps_raise _) h

theorem keeps_chunkEnd : Keeps chunkEnd :=
  Safe.bind (Safe.update fun _ h => ⟨h.canonical.of_eq rfl rfl rfl ⟨rfl, rfl, rfl⟩, h.positions, h.output, h.cells,
    h.input, h.coder, h.history⟩) fun _ => keeps_look _

theorem execConstruct_safe (input : List Byte) (params : Params) (s : State) :
    SafeOutcome (execConstruct input params s) := by
  unfold execConstruct
  split
  · next hsize => exact .next (sound_construct s hsize.1 hsize.2).inv
  · exact .refused _

/-- `dict.init` compares its size with the width of the state it is issued in, which its check leaves as it is. -/
theorem execDictInit_safe (size : Nat) (h : s.Inv) : SafeOutcome (execDictInit size s) := by
  refine commit_safe (p := fun u => u.Sound ∧ u.wPos = s.wPos) ?_ fun hf => ⟨h.sound hf, rfl⟩
  refine Safe.bind Safe.require fun _ => Safe.update fun u hu => ?_
  obtain ⟨⟨hs, hw⟩, hsize⟩ := hu
  exact hs.initDict (by rw [hw]; exact of_decide_eq_true hsize)

/-- Every instruction keeps the invariant, and none traps from a state that meets it. -/
theorem exec_safe (h : s.Inv) (i : Instr) : SafeOutcome (exec i s) := by
  cases i with
  | chunkEnd => exact commit_keeps keeps_chunkEnd h
  | chunkRawReset | chunkRaw | chunkReserved03 | chunkReserved04 | chunkReserved08 | chunkReserved10
  | chunkReserved20 | chunkReserved40 => exact rejectControl_safe _ h
  | chunkLzmaProps => exact commit_keeps (ret := fun _ : Unit => .ok) (keeps_raise _) h
  | chunkLzmaNone u c | chunkLzmaState u c => exact commit_keeps (keeps_lzmaChunk _ u c) h
  | chunkLzmaFull u c props =>
    refine commit_keeps ?_ h
    split
    · exact keeps_lzmaChunk true u c
    · exact keeps_raise _
  | packetLit | packetMatch | packetLongRep0 | packetLongRep1 | packetLongRep2 | packetLongRep3 =>
    exact commit_needRc_keeps (keeps_packetBody _) h
  | packetShortRep => exact commit_keeps (keeps_packetBody _) h
  | distSlot0To3 slot =>
    exact commit_keeps (ret := fun d : Word => .value d.toNat) (keeps_run (distLowTree (slot.setWidth 6))) h
  | lenLow | lenMid | lenHigh | distSlot4To13 | distSlot14To63 | rcDecodeDirect | rcDecodeTree | rcDecodeReverseTree
  | rcDecodeMatchedLiteral | lzDecodeLength | lzDecodeDistance => exact commit_needRc_keeps (keeps_run _) h
  | construct input params => exact execConstruct_safe input params s
  | inReadByte => exact commit_keeps keeps_readByte h
  | inReserve n => exact commit_keeps (keeps_reserve n) h
  | inAlign4 => exact commit_keeps (keeps_padBytes 3) h
  | dictInit size => exact execDictInit_safe size h
  | dictSetLimit n => exact commit_keeps (Safe.bind Safe.needBeforeInit fun _ => keeps_setLimit n) h
  | dictPutLiteral b => exact commit_keeps (keeps_putLiteral b) h
  | dictCopyMatch d n => exact commit_keeps (keeps_copyMatch d n) h
  | dictByteAt d => exact commit_keeps (keeps_byteAt d) h
  | dictIsComplete => exact commit_keeps (ret := fun r : Bool × Nat => .query r.1 r.2) (keeps_look State.dictComplete) h
  | rcInit n => exact commit_keeps (Safe.bind Safe.needLimit fun _ => keeps_rcInit n.isLt) h
  | rcNormalize => exact commit_needRc_keeps keeps_normalize h
  | rcDecodeBit c => exact commit_needRc_keeps (keeps_decodeBit c) h
  | rcIsComplete => exact commit_needRc_keeps (keeps_look _) h
  | lzDecode => exact commit_safe (Safe.bind safe_needChunk fun _ => safe_lzDecode) h.sound
  | lzResetState => exact commit_keeps keeps_resetState h

/-! ## The fetch and the step -/

/-- The invariant does not depend on the operations issued. -/
theorem State.Inv.setIssued (h : s.Inv) (issued : List Instr) : { s with issued := issued }.Inv :=
  ⟨h.canonical.of_eq rfl rfl rfl ⟨rfl, rfl, rfl⟩, h.widths, h.positions, h.output, h.cells, h.input, h.coder,
    h.history⟩

/-- A header's bytes are bytes of the window, so the fetch moves `in.offset` at most to the end of the input. -/
theorem fetchHeader_inv {i : Instr} (h : s.Sound) (hf : fetchHeader s = .ok (i, t)) : t.Inv := by
  unfold fetchHeader at hf
  split at hf
  · cases hf
    have hlen := window_length h.input
    have hoff := h.input.1
    exact (h.advance (by omega)).inv
  · split at hf <;> cases hf

/-- A header is cut short only by the end of the input, which is a fault taken and no trap (R240). -/
theorem fetchHeader_error_safe {o : Outcome} (h : s.Sound) (hf : fetchHeader s = .error o) : SafeOutcome o := by
  unfold fetchHeader at hf
  split at hf
  · cases hf
  · next hdec =>
    have hshort := decodeBytes_error hdec
    have hlen := window_length h.input
    rw [if_neg (by omega)] at hf
    cases hf
    exact .next (h.canonical.takeFault _)

theorem fetch_inv {i : Instr} (h : s.Inv) (hf : fetch s = .ok (i, t)) : t.Inv := by
  unfold fetch at hf
  split at hf
  · cases hf
    exact h.setIssued _
  · split at hf
    · cases hf
    · cases hf
    · next hfault _ => exact fetchHeader_inv (h.sound hfault) hf

theorem fetch_error_safe {o : Outcome} (h : s.Inv) (hf : fetch s = .error o) : SafeOutcome o := by
  unfold fetch at hf
  split at hf
  · cases hf
  · split at hf
    · cases hf; exact .refused _
    · cases hf; exact .refused _
    · next hfault _ => exact fetchHeader_error_safe (h.sound hfault) hf

/-- A step from a state that meets the invariant answers a state that meets it, or a refusal. -/
theorem step_safe (h : s.Inv) : SafeOutcome (step s) := by
  unfold step
  split
  · next hf => exact exec_safe (fetch_inv h hf) _
  · next hf => exact fetch_error_safe h hf

/-- Settles O55: every operation keeps soundness (`Safe.lean`), so every instruction does (`exec_safe`), and the fetch
stays inside the input. -/
theorem stepKeepsInvariant : Obligations.StepKeepsInvariant := fun _ t h ht => (step_safe h).1 t ht

end Sys2Proof.Machine

/-! # Append-only output (spec/10_state.md R35, R42, R60, R61)

One relation, `AppendOnly`, that holds of no change, composes, and follows from `Decodes`; every operation but
construction and `dict.init` relates the states before and after it by it. -/

namespace Sys2Proof.Machine

variable {α β : Type} {s t u : State}

/-- The position and `in.offset` do not move back, the bytes of `OUT` below the position stay, and so do `IN`, the sizes
and `W_POS`. -/
structure AppendOnly (s t : State) : Prop where
  position : s.dict.position ≤ t.dict.position
  offset : s.inp.offset ≤ t.inp.offset
  bytes : t.inp.bytes = s.inp.bytes
  size : t.inp.size = s.inp.size
  bufferSize : t.dict.bufferSize = s.dict.bufferSize
  wPos : t.wPos = s.wPos
  out : ∀ a, a < s.dict.position → t.dict.out.read a = s.dict.out.read a

/-- An operation that only appends to the output and only moves the cursor forward. -/
abbrev Appends (m : M α) : Prop := Relates AppendOnly m

/-! ## The relation -/

/-- A change outside the dictionary, the cursor and `W_POS`. -/
theorem AppendOnly.of_eq (hd : t.dict = s.dict) (hi : t.inp = s.inp) (hw : t.wPos = s.wPos) : AppendOnly s t := by
  constructor <;> simp [hd, hi, hw]

theorem AppendOnly.refl (s : State) : AppendOnly s s := .of_eq rfl rfl rfl

theorem AppendOnly.trans (h₁ : AppendOnly s t) (h₂ : AppendOnly t u) : AppendOnly s u where
  position := h₁.position.trans h₂.position
  offset := h₁.offset.trans h₂.offset
  bytes := h₂.bytes.trans h₁.bytes
  size := h₂.size.trans h₁.size
  bufferSize := h₂.bufferSize.trans h₁.bufferSize
  wPos := h₂.wPos.trans h₁.wPos
  out := fun a ha => (h₂.out a (ha.trans_le h₁.position)).trans (h₁.out a ha)

theorem AppendOnly.advance (s : State) (n : Nat) : AppendOnly s (s.advance n) :=
  ⟨le_rfl, Nat.le_add_right _ n, rfl, rfl, rfl, rfl, fun _ _ => rfl⟩

theorem AppendOnly.setLimit (s : State) (n : Nat) : AppendOnly s (s.setLimit n) :=
  ⟨le_rfl, le_rfl, rfl, rfl, rfl, rfl, fun _ _ => rfl⟩

/-- Decoding spends payload bytes, so the cursor moves forward, and writes from the old position on. -/
theorem Decodes.appendOnly (h : Decodes s t) : AppendOnly s t where
  position := h.grown
  offset := by
    have hspent := h.spent
    have hfewer := h.fewer
    omega
  bytes := by rw [h.frame]
  size := by rw [h.frame]
  bufferSize := by rw [h.frame]
  wPos := by rw [h.frame]
  out := fun a ha => h.kept a (.inl ha)

/-! ## The operations -/

theorem Appends.bind {m : M α} {k : α → M β} (hm : Appends m) (hk : ∀ a, Appends (k a)) : Appends (m >>= k) :=
  Relates.bind (r := AppendOnly) AppendOnly.trans hm hk

/-- A check, a sample or a read that changes nothing. -/
theorem Appends.of_unchanged {m : M α} (h : ∀ {s a t}, m s = .ok (a, t) → s = t) : Appends m := fun s _ _ hm =>
  h hm ▸ AppendOnly.refl s

theorem Appends.of_decodes {m : M α} (h : Relates Decodes m) : Appends m := fun s a t hm => (h s a t hm).appendOnly

theorem Appends.pure (a : α) : Appends (Pure.pure a : M α) := .of_unchanged fun h => (pure_ok.1 h).2

theorem Appends.raise (f : CoreFault) : Appends (Machine.raise f : M α) := fun _ _ _ h => absurd h raise_ok

theorem Appends.look (f : State → α) : Appends (Machine.look f) := .of_unchanged fun h => (look_ok.1 h).2

theorem Appends.update {f : State → State} (h : ∀ s, AppendOnly s (f s)) : Appends (Machine.update f) := fun s _ _ hm =>
  update_ok.1 hm ▸ h s

theorem Appends.needRc_bind {m : M α} (h : Appends m) : Appends (do needRc; m) :=
  .bind (.of_unchanged fun h => (needRc_ok.1 h).2) fun _ => h

theorem appends_readByte : Appends readByte := fun s _ _ h => (readByte_ok.1 h).2.2 ▸ AppendOnly.advance s 1

theorem appends_reserve (n : Nat) : Appends (reserve n) := fun s _ _ h => (reserve_ok.1 h).2.2 ▸ AppendOnly.advance s n

theorem appends_padByte : Appends padByte := by
  refine .bind (.look _) fun at_ => .bind appends_readByte fun b => ?_
  split
  · exact .pure _
  · exact .raise _

theorem appends_padBytes (n : Nat) : Appends (padBytes n) := by
  induction n with
  | zero => exact .pure _
  | succ n ih =>
    refine .bind (.look _) fun aligned => ?_
    split
    · exact .pure _
    · exact .bind appends_padByte fun _ => ih

theorem appends_setLimit (n : Nat) : Appends (setLimit n) := fun s _ _ h =>
  (setLimit_ok.1 h).2 ▸ AppendOnly.setLimit s n

theorem appends_dictSetLimit (n : Nat) : Appends (do needBeforeInit; setLimit n) :=
  .bind (.of_unchanged fun h => (needBeforeInit_ok.1 h).2) fun _ => appends_setLimit n

theorem appends_copyMatch (d n : Nat) : Appends (copyMatch d n) :=
  .of_decodes fun s a t h => decodes_copyBytes d n s a t (copyMatch_ok.1 h).2

theorem appends_byteAt (d : Nat) : Appends (byteAt d) := .of_unchanged fun h => (byteAt_ok.1 h).2.1.symm

theorem appends_readPayloadHeader : Appends readPayloadHeader := by
  refine .bind appends_readByte fun b0 => .bind appends_readByte fun b1 => .bind appends_readByte fun b2 =>
    .bind appends_readByte fun b3 => .bind appends_readByte fun b4 => ?_
  split
  · exact .pure _
  · exact .raise _

theorem appends_rcInit (n : Nat) : Appends (rcInit n) := by
  unfold rcInit
  split
  · exact .raise _
  · exact .bind appends_readPayloadHeader fun _ => .update fun _ => .of_eq rfl rfl rfl

theorem appends_run (d : Dec α) : Appends d.run := .of_decodes (decodes_run d)

theorem appends_packetBody (k : PacketKind) : Appends (packetBody k) := .of_decodes (decodes_packetBody k)

theorem appends_lzDecode : Appends lzDecode :=
  .bind (.look _) fun _ => .bind (.of_decodes (decodes_packetLoop _)) fun _ => .bind (.of_decodes decodes_normalize)
    fun _ => .update fun _ => .of_eq rfl rfl rfl

theorem appends_resetState : Appends resetState :=
  .bind (.of_unchanged fun h => (needBetweenChunks_ok.1 h).2) fun _ => .update fun _ => .of_eq rfl rfl rfl

/-! ## Chunks -/

theorem appends_chunkEnd : Appends chunkEnd := .bind (.update fun _ => .of_eq rfl rfl rfl) fun _ => .look _

theorem appends_checkComplete (usize csize : Nat) : Appends (checkComplete usize csize) := by
  refine .bind (.look _) fun rc => .bind (.look _) fun code => .bind (.look _) fun dict => ?_
  split
  · exact .raise _
  · split
    · exact .raise _
    · exact .pure _

theorem appends_decodeChunk (usize csize : Nat) : Appends (decodeChunk usize csize) :=
  .bind (.of_unchanged fun h => (needBeforeInit_ok.1 h).2) fun _ => .bind (appends_setLimit usize) fun _ =>
    .bind (appends_rcInit csize) fun _ => .bind appends_lzDecode fun _ => appends_checkComplete usize csize

theorem appends_skipChunk (usize csize : Nat) : Appends (skipChunk usize csize) :=
  .bind (appends_reserve csize) fun _ => .update fun _ => .of_eq rfl rfl rfl

theorem appends_chunkReset (reset : Bool) : Appends (chunkReset reset) := by
  cases reset
  · exact .pure _
  · exact appends_resetState

theorem appends_lzmaChunk (reset : Bool) (u : BitVec 21) (c : BitVec 16) : Appends (lzmaChunk reset u c) := by
  refine .bind (.look _) fun mode => ?_
  cases mode
  · exact .bind (appends_chunkReset reset) fun _ => appends_decodeChunk _ _
  · exact appends_skipChunk _ _

/-! ## The instructions -/

/-- Only an operation that ends in a value leaves no fault (R304). -/
theorem commit_appendOnly {ret : α → Result} {m : M α} (hm : Appends m) (h : commit ret m s = .next t)
    (hf : t.fault = none) : AppendOnly s t := by
  rcases commit_cases ret m s with ⟨f, -, e⟩ | ⟨-, ⟨a, v, hv, e⟩ | ⟨f, v, -, e⟩ | ⟨r, -, e⟩ | ⟨f, -, e⟩⟩ <;>
    rw [e] at h <;> cases h
  · exact (hm s a v hv).trans (.of_eq rfl rfl rfl)
  · cases hf

theorem rejectControl_appendOnly {control : Byte} (h : rejectControl control s = .next t) (hf : t.fault = none) :
    AppendOnly s t :=
  commit_appendOnly (.raise _) h hf

/-- Every instruction but construction and `dict.init` that takes no fault is append-only. -/
theorem exec_appendOnly {i : Instr} (hc : ∀ input params, i ≠ .construct input params)
    (hd : ∀ size, i ≠ .dictInit size) (h : exec i s = .next t) (hf : t.fault = none) : AppendOnly s t := by
  cases i with
  | chunkEnd => exact commit_appendOnly appends_chunkEnd h hf
  | chunkRawReset | chunkRaw | chunkReserved03 | chunkReserved04 | chunkReserved08 | chunkReserved10
  | chunkReserved20 | chunkReserved40 => exact rejectControl_appendOnly h hf
  | chunkLzmaProps => exact commit_appendOnly (ret := fun _ : Unit => .ok) (.raise _) h hf
  | chunkLzmaNone u c | chunkLzmaState u c => exact commit_appendOnly (appends_lzmaChunk _ u c) h hf
  | chunkLzmaFull u c props =>
    refine commit_appendOnly ?_ h hf
    split
    · exact appends_lzmaChunk true u c
    · exact .raise _
  | packetLit | packetMatch | packetLongRep0 | packetLongRep1 | packetLongRep2 | packetLongRep3 =>
    exact commit_appendOnly (appends_packetBody _).needRc_bind h hf
  | packetShortRep => exact commit_appendOnly (appends_packetBody _) h hf
  | distSlot0To3 slot =>
    exact commit_appendOnly (ret := fun d : Word => .value d.toNat) (appends_run (distLowTree (slot.setWidth 6))) h hf
  | lenLow | lenMid | lenHigh | distSlot4To13 | distSlot14To63 | rcDecodeDirect | rcDecodeTree | rcDecodeReverseTree
  | rcDecodeMatchedLiteral | lzDecodeLength | lzDecodeDistance =>
    exact commit_appendOnly (appends_run _).needRc_bind h hf
  | construct input params => exact absurd rfl (hc input params)
  | inReadByte => exact commit_appendOnly appends_readByte h hf
  | inReserve n => exact commit_appendOnly (appends_reserve n) h hf
  | inAlign4 => exact commit_appendOnly (appends_padBytes 3) h hf
  | dictInit size => exact absurd rfl (hd size)
  | dictSetLimit n => exact commit_appendOnly (appends_dictSetLimit n) h hf
  | dictPutLiteral b => exact commit_appendOnly (.of_decodes (decodes_putLiteral b)) h hf
  | dictCopyMatch d n => exact commit_appendOnly (appends_copyMatch d n) h hf
  | dictByteAt d => exact commit_appendOnly (appends_byteAt d) h hf
  | dictIsComplete =>
    exact commit_appendOnly (ret := fun r : Bool × Nat => .query r.1 r.2) (.look State.dictComplete) h hf
  | rcInit n =>
    exact commit_appendOnly (.bind (.of_unchanged fun h => (needLimit_ok.1 h).2) fun _ => appends_rcInit _) h hf
  | rcNormalize => exact commit_appendOnly (Appends.of_decodes decodes_normalize).needRc_bind h hf
  | rcDecodeBit c => exact commit_appendOnly (Appends.of_decodes (decodes_decodeBit c)).needRc_bind h hf
  | rcIsComplete => exact commit_appendOnly (Appends.look _).needRc_bind h hf
  | lzDecode =>
    exact commit_appendOnly (.bind (.of_unchanged fun h => (needChunk_ok.1 h).2) fun _ => appends_lzDecode) h hf
  | lzResetState => exact commit_appendOnly appends_resetState h hf

/-- Settles O59: every instruction's operation is related to its end by `AppendOnly`, and no fault is taken. -/
theorem outputIsAppendOnly : Obligations.OutputIsAppendOnly := by
  intro i s t hc hd h hf
  obtain ⟨hpos, hoff, hbytes, hsize, hbuf, hw, hout⟩ := exec_appendOnly hc hd h hf
  exact ⟨hpos, hoff, hbytes, hsize, hbuf, hw, hout⟩

end Sys2Proof.Machine

/-! # No trap, and the state after reset (spec/10_state.md R45, R46, spec/20_memory.md R60, R61)

The step's safety stands above (`step_safe`). Reset is a construction with nothing given back yet, so it is sound because
construction is. -/

namespace Sys2Proof.Machine

/-- Settles O57: the half of `step_safe` that speaks of traps. -/
theorem stepNeverTraps : Obligations.StepNeverTraps := fun _ h => (step_safe h).2

/-- Reset is the construction with an empty input and the default sizes, before any result (R330, log entry 3). -/
theorem reset_eq_construct :
    State.reset = (State.reset.construct Config.defaultWPos [] Config.resetCapacity).giveBack .idle := rfl

/-- Settles O56: construction gives a sound state (`sound_construct`), and a result given back is no part of soundness. -/
theorem resetMeetsInvariant : Obligations.ResetMeetsInvariant := by
  have h := sound_construct State.reset (wPos := Config.defaultWPos) (capacity := Config.resetCapacity) (input := [])
    (by decide) (by decide)
  unfold Obligations.ResetMeetsInvariant
  rw [reset_eq_construct]
  exact State.Sound.inv ⟨h.canonical.of_eq rfl rfl rfl ⟨rfl, rfl, rfl⟩, h.positions, h.output, h.cells, h.input, h.coder,
    h.history⟩

/-- Settles O9: the registers by unfolding reset; no cell and no byte of `OUT` is listed. -/
theorem resetHoldsSpecValues : Obligations.ResetHoldsSpecValues :=
  ⟨rfl, fun c => ProbTable.get_nil c.index, rfl, rfl, rfl, Mem.read_nil, rfl, rfl⟩

end Sys2Proof.Machine

/-! # The match byte (spec/10_state.md R44 (f))

A literal leaves a state below 7 (R210), where R44 (f) asks nothing. A match or a rep copies at least one byte, and the
copy's own distance test puts the byte `rep0 + 1` back inside the output. Every other operation leaves the engine as it is,
or resets it, and moves the position forward or not at all. -/

namespace Sys2Proof.Machine

variable {α β : Type} {s t u : State}

/-- The match byte lies in the written output afterwards if it did before (R44 (f)). -/
def MatchByteKept (s t : State) : Prop := s.MatchByteInside → t.MatchByteInside

/-- An operation that keeps the match byte inside the written output. -/
abbrev KeepsMatchByte (m : M α) : Prop := Relates MatchByteKept m

/-! ## The relation -/

theorem MatchByteKept.refl (s : State) : MatchByteKept s s := id

theorem MatchByteKept.trans (h₁ : MatchByteKept s t) (h₂ : MatchByteKept t u) : MatchByteKept s u := h₂ ∘ h₁

/-- The engine stays and the position does not move back. -/
theorem MatchByteKept.of_lz_eq (hl : t.lz = s.lz) (hf : t.fault = s.fault) (hp : s.dict.position ≤ t.dict.position) :
    MatchByteKept s t := fun h hft hst => by
  rw [hl] at hst ⊢
  exact (h (hf ▸ hft) hst).trans hp

/-- Below state 7 nothing is asked. -/
theorem MatchByteKept.of_state_lt (h : t.lz.state.val < 7) : MatchByteKept s t := fun _ _ hst => absurd hst (by omega)

/-- The engine after construction and after `lz.reset_state` is in state 0 (R46, R215). -/
theorem Engine.initial_state_lt : Engine.initial.state.val < 7 := by decide

/-- After a fault nothing is asked (R305). -/
theorem MatchByteKept.of_fault {f : CoreFault} (h : t.fault = some f) : MatchByteKept s t := fun _ hft => by
  rw [h] at hft
  cases hft

theorem CoderOnly.matchByteKept (h : CoderOnly s t) : MatchByteKept s t := by
  unfold CoderOnly at h
  exact .of_lz_eq (by rw [h]) (by rw [h]) (by rw [h])

/-! ## The operations -/

theorem KeepsMatchByte.bind {m : M α} {k : α → M β} (hm : KeepsMatchByte m) (hk : ∀ a, KeepsMatchByte (k a)) :
    KeepsMatchByte (m >>= k) :=
  Relates.bind (r := MatchByteKept) MatchByteKept.trans hm hk

/-- A check, a sample or a read that changes nothing. -/
theorem KeepsMatchByte.of_unchanged {m : M α} (h : ∀ {s a t}, m s = .ok (a, t) → s = t) : KeepsMatchByte m :=
  fun s _ _ hm => h hm ▸ MatchByteKept.refl s

theorem KeepsMatchByte.pure (a : α) : KeepsMatchByte (Pure.pure a : M α) := .of_unchanged fun h => (pure_ok.1 h).2

theorem KeepsMatchByte.raise (f : CoreFault) : KeepsMatchByte (Machine.raise f : M α) := fun _ _ _ h => absurd h raise_ok

theorem KeepsMatchByte.look (f : State → α) : KeepsMatchByte (Machine.look f) := .of_unchanged fun h => (look_ok.1 h).2

theorem KeepsMatchByte.update {f : State → State} (h : ∀ s, MatchByteKept s (f s)) : KeepsMatchByte (Machine.update f) :=
  fun s _ _ hm => update_ok.1 hm ▸ h s

theorem KeepsMatchByte.needRc_bind {m : M α} (h : KeepsMatchByte m) : KeepsMatchByte (do needRc; m) :=
  .bind (.of_unchanged fun h => (needRc_ok.1 h).2) fun _ => h

theorem readByte_keepsMatchByte : KeepsMatchByte readByte := fun _ _ _ h =>
  (readByte_ok.1 h).2.2 ▸ .of_lz_eq rfl rfl le_rfl

theorem reserve_keepsMatchByte (n : Nat) : KeepsMatchByte (reserve n) := fun _ _ _ h =>
  (reserve_ok.1 h).2.2 ▸ .of_lz_eq rfl rfl le_rfl

theorem padByte_keepsMatchByte : KeepsMatchByte padByte := by
  refine .bind (.look _) fun at_ => .bind readByte_keepsMatchByte fun b => ?_
  split
  · exact .pure _
  · exact .raise _

theorem padBytes_keepsMatchByte (n : Nat) : KeepsMatchByte (padBytes n) := by
  induction n with
  | zero => exact .pure _
  | succ n ih =>
    refine .bind (.look _) fun aligned => ?_
    split
    · exact .pure _
    · exact .bind padByte_keepsMatchByte fun _ => ih

theorem needBeforeInit_keepsMatchByte : KeepsMatchByte needBeforeInit := .of_unchanged fun h => (needBeforeInit_ok.1 h).2

theorem setLimit_keepsMatchByte (n : Nat) : KeepsMatchByte (setLimit n) := fun _ _ _ h =>
  (setLimit_ok.1 h).2 ▸ .of_lz_eq rfl rfl le_rfl

theorem appendByte_keepsMatchByte (b : Byte) : KeepsMatchByte (appendByte b) := fun _ _ _ h =>
  (appendByte_ok.1 h).2 ▸ .of_lz_eq rfl rfl (Nat.le_succ _)

theorem putLiteral_keepsMatchByte (b : Byte) : KeepsMatchByte (putLiteral b) := fun s a t h =>
  appendByte_keepsMatchByte b s a t (putLiteral_ok.1 h).2

theorem copyByte_keepsMatchByte (d : Nat) : KeepsMatchByte (copyByte d) := fun s a t h => by
  obtain ⟨-, -, b, -, happend⟩ := copyByte_ok.1 h
  exact appendByte_keepsMatchByte b s a t happend

theorem copyBytes_keepsMatchByte (d n : Nat) : KeepsMatchByte (copyBytes d n) := by
  induction n with
  | zero => exact .pure _
  | succ n ih => exact .bind (copyByte_keepsMatchByte d) fun _ => ih

theorem copyMatch_keepsMatchByte (d n : Nat) : KeepsMatchByte (copyMatch d n) := fun s a t h =>
  copyBytes_keepsMatchByte d n s a t (copyMatch_ok.1 h).2

theorem byteAt_keepsMatchByte (d : Nat) : KeepsMatchByte (byteAt d) := .of_unchanged fun h => (byteAt_ok.1 h).2.1.symm

theorem readPayloadHeader_keepsMatchByte : KeepsMatchByte readPayloadHeader := fun s w t h => by
  obtain ⟨b1, b2, b3, b4, -, -, -, -, h4, -⟩ := readPayloadHeader_ok.1 h
  rw [(readByte_ok.1 h4).2.2]
  exact .of_lz_eq rfl rfl le_rfl

theorem rcInit_keepsMatchByte (n : Nat) : KeepsMatchByte (rcInit n) := fun s _ t h => by
  obtain ⟨-, w, u, hread, rfl⟩ := rcInit_ok.1 h
  exact (readPayloadHeader_keepsMatchByte s w u hread).trans (.of_lz_eq rfl rfl le_rfl)

theorem normalize_keepsMatchByte : KeepsMatchByte normalize := fun _ _ _ h => (normalize_frame h).matchByteKept

theorem decodeBit_keepsMatchByte (c : Cell) : KeepsMatchByte (decodeBit c) := fun _ _ _ h =>
  (decodeBit_frame h).matchByteKept

theorem run_keepsMatchByte (d : Dec α) : KeepsMatchByte d.run := fun _ _ _ h => (run_frame h).matchByteKept

theorem resetState_keepsMatchByte : KeepsMatchByte resetState :=
  .bind (.of_unchanged fun h => (needBetweenChunks_ok.1 h).2) fun _ =>
    .update fun _ => .of_state_lt Engine.initial_state_lt

/-! ## Packets -/

/-- After a literal the state is below 7 (R210). -/
theorem nextState_lit_lt (s : Fin 12) : (nextState s .lit).val < 7 := by
  revert s
  decide

/-- A copy of at least one byte from `rep0 + 1` back has passed its distance test, which is R44 (f). -/
theorem copyFrom_matchByteKept {lz : Engine} {n : Nat} {a : Unit} (hn : 1 ≤ n) (h : copyFrom lz n s = .ok (a, t)) :
    MatchByteKept s t := by
  have hcopy := copyFrom_ok.1 h
  have hstart : (s.setEngine lz).MatchByteInside := fun _ _ => copyBytes_distance (Nat.one_le_iff_ne_zero.1 hn) hcopy
  exact fun _ => copyBytes_keepsMatchByte _ n _ a t hcopy hstart

/-- A packet that writes at least one byte keeps the match byte inside. -/
theorem applyPacket_matchByteKept {p : Packet} {a : Unit} (hp : 1 ≤ p.bytes) (h : applyPacket p s = .ok (a, t)) :
    MatchByteKept s t := by
  unfold applyPacket at h
  obtain ⟨_, _, hroom, h⟩ := bind_ok.1 h
  obtain ⟨-, rfl⟩ := needRoom_ok.1 hroom
  obtain ⟨lz, _, hlz, h⟩ := bind_ok.1 h
  obtain ⟨-, rfl⟩ := look_ok.1 hlz
  cases p with
  | lit b =>
    obtain ⟨_, v, -, h⟩ := bind_ok.1 h
    obtain rfl := update_ok.1 h
    exact .of_state_lt (nextState_lit_lt _)
  | matchNew len dist =>
    obtain ⟨_, _, hoff, h⟩ := bind_ok.1 h
    obtain ⟨-, rfl⟩ := look_ok.1 hoff
    split at h
    · exact absurd h raise_ok
    · exact copyFrom_matchByteKept hp h
  | shortRep | longRep0 | longRep1 | longRep2 | longRep3 => exact copyFrom_matchByteKept hp h

theorem packetBody_keepsMatchByte (k : PacketKind) : KeepsMatchByte (packetBody k) := fun s _ t h => by
  obtain ⟨x, _, hsample, hrest⟩ := bind_ok.1 h
  obtain rfl := sampleContext_ok hsample
  obtain ⟨p, v, hrun, happly⟩ := bind_ok.1 hrest
  exact (run_keepsMatchByte _ _ p v hrun).trans (applyPacket_matchByteKept ((yields_operand x k).run hrun) happly)

theorem packetLoop_keepsMatchByte (n : Nat) : KeepsMatchByte (packetLoop n) := by
  induction n with
  | zero => exact .pure _
  | succ n ih =>
    have hpacket : KeepsMatchByte onePacket :=
      .bind (.look _) fun _ => .bind (run_keepsMatchByte _) packetBody_keepsMatchByte
    refine .bind hpacket fun _ => .bind (.look _) fun full => ?_
    split
    · exact .pure _
    · exact ih

theorem lzDecode_keepsMatchByte : KeepsMatchByte lzDecode :=
  .bind (.look _) fun _ => .bind (packetLoop_keepsMatchByte _) fun _ => .bind normalize_keepsMatchByte fun _ =>
    .update fun _ => .of_lz_eq rfl rfl le_rfl

/-! ## Chunks -/

theorem chunkEnd_keepsMatchByte : KeepsMatchByte chunkEnd :=
  .bind (.update fun _ => .of_lz_eq rfl rfl le_rfl) fun _ => .look _

theorem checkComplete_keepsMatchByte (usize csize : Nat) : KeepsMatchByte (checkComplete usize csize) := by
  refine .bind (.look _) fun rc => .bind (.look _) fun code => .bind (.look _) fun dict => ?_
  split
  · exact .raise _
  · split
    · exact .raise _
    · exact .pure _

theorem decodeChunk_keepsMatchByte (usize csize : Nat) : KeepsMatchByte (decodeChunk usize csize) :=
  .bind needBeforeInit_keepsMatchByte fun _ => .bind (setLimit_keepsMatchByte usize) fun _ =>
    .bind (rcInit_keepsMatchByte csize) fun _ => .bind lzDecode_keepsMatchByte fun _ =>
      checkComplete_keepsMatchByte usize csize

theorem lzmaChunk_keepsMatchByte (reset : Bool) (u : BitVec 21) (c : BitVec 16) :
    KeepsMatchByte (lzmaChunk reset u c) := by
  have hreset : KeepsMatchByte (chunkReset reset) := by
    cases reset
    · exact .pure _
    · exact resetState_keepsMatchByte
  refine .bind (.look _) fun mode => ?_
  cases mode with
  | decode => exact .bind hreset fun _ => decodeChunk_keepsMatchByte _ _
  | sizeQuery => exact .bind (reserve_keepsMatchByte _) fun _ => .update fun _ => .of_lz_eq rfl rfl le_rfl

/-! ## The instructions -/

/-- An instruction whose operation keeps the match byte inside does, whether it ends in a value or in a fault. -/
theorem commit_matchByteKept {ret : α → Result} {m : M α} (hm : KeepsMatchByte m) (h : commit ret m s = .next t) :
    MatchByteKept s t := by
  rcases commit_cases ret m s with ⟨f, -, e⟩ | ⟨-, ⟨a, v, hv, e⟩ | ⟨f, v, -, e⟩ | ⟨r, -, e⟩ | ⟨f, -, e⟩⟩ <;>
    rw [e] at h <;> cases h
  · exact (hm s a v hv).trans (.of_lz_eq rfl rfl le_rfl)
  · exact .of_fault rfl

theorem execConstruct_matchByteKept {input : List Byte} {params : Params} (h : execConstruct input params s = .next t) :
    MatchByteKept s t := by
  unfold execConstruct at h
  split at h <;> cases h
  exact .of_state_lt Engine.initial_state_lt

/-- Every instruction but `dict.init` keeps the match byte inside the written output. -/
theorem exec_matchByteKept {i : Instr} (hd : ∀ size, i ≠ .dictInit size) (h : exec i s = .next t) :
    MatchByteKept s t := by
  cases i with
  | chunkEnd => exact commit_matchByteKept chunkEnd_keepsMatchByte h
  | chunkRawReset | chunkRaw | chunkReserved03 | chunkReserved04 | chunkReserved08 | chunkReserved10
  | chunkReserved20 | chunkReserved40 | chunkLzmaProps =>
    exact commit_matchByteKept (ret := fun _ : Unit => .ok) (.raise _) h
  | chunkLzmaNone u c | chunkLzmaState u c => exact commit_matchByteKept (lzmaChunk_keepsMatchByte _ u c) h
  | chunkLzmaFull u c props =>
    refine commit_matchByteKept ?_ h
    split
    · exact lzmaChunk_keepsMatchByte true u c
    · exact .raise _
  | packetLit | packetMatch | packetLongRep0 | packetLongRep1 | packetLongRep2 | packetLongRep3 =>
    exact commit_matchByteKept (packetBody_keepsMatchByte _).needRc_bind h
  | packetShortRep => exact commit_matchByteKept (packetBody_keepsMatchByte _) h
  | distSlot0To3 slot =>
    exact commit_matchByteKept (ret := fun d : Word => .value d.toNat)
      (run_keepsMatchByte (distLowTree (slot.setWidth 6))) h
  | lenLow | lenMid | lenHigh | distSlot4To13 | distSlot14To63 | rcDecodeDirect | rcDecodeTree | rcDecodeReverseTree
  | rcDecodeMatchedLiteral | lzDecodeLength | lzDecodeDistance =>
    exact commit_matchByteKept (run_keepsMatchByte _).needRc_bind h
  | construct => exact execConstruct_matchByteKept h
  | inReadByte => exact commit_matchByteKept readByte_keepsMatchByte h
  | inReserve n => exact commit_matchByteKept (reserve_keepsMatchByte n) h
  | inAlign4 => exact commit_matchByteKept (padBytes_keepsMatchByte 3) h
  | dictInit size => exact absurd rfl (hd size)
  | dictSetLimit n =>
    exact commit_matchByteKept (.bind needBeforeInit_keepsMatchByte fun _ => setLimit_keepsMatchByte n) h
  | dictPutLiteral b => exact commit_matchByteKept (putLiteral_keepsMatchByte b) h
  | dictCopyMatch d n => exact commit_matchByteKept (copyMatch_keepsMatchByte d n) h
  | dictByteAt d => exact commit_matchByteKept (byteAt_keepsMatchByte d) h
  | dictIsComplete =>
    exact commit_matchByteKept (ret := fun r : Bool × Nat => .query r.1 r.2) (.look State.dictComplete) h
  | rcInit n =>
    exact commit_matchByteKept (.bind (.of_unchanged fun h => (needLimit_ok.1 h).2) fun _ => rcInit_keepsMatchByte _) h
  | rcNormalize => exact commit_matchByteKept normalize_keepsMatchByte.needRc_bind h
  | rcDecodeBit c => exact commit_matchByteKept (decodeBit_keepsMatchByte c).needRc_bind h
  | rcIsComplete => exact commit_matchByteKept (KeepsMatchByte.look _).needRc_bind h
  | lzDecode =>
    exact commit_matchByteKept (.bind (.of_unchanged fun h => (needChunk_ok.1 h).2) fun _ => lzDecode_keepsMatchByte) h
  | lzResetState => exact commit_matchByteKept resetState_keepsMatchByte h

/-- Settles O58: every instruction's operation relates the states before and after it by `MatchByteKept`. -/
theorem matchByteStaysInside : Obligations.MatchByteStaysInside := fun _ _ _ hs hd h => exec_matchByteKept hd h hs

end Sys2Proof.Machine

/-! # The copy of `dict.copy_match` (spec/20_memory.md R68, R146)

What one copied byte does to the dictionary is `Copied` for length 1, and `Copied` composes, so a copy of any length is
`Copied` whether it overlaps itself or not: a byte once written stays, and the later reads of the same copy see it. With
the limit kept, every distance within the written output lets the whole copy come out. -/

namespace Sys2Proof.Machine

variable {s t : State}

/-! ## The relation of copying -/

theorem Copied.refl (x : Dictionary) (d : Nat) : Copied x x d 0 :=
  ⟨rfl, fun _ _ => rfl, fun _ hk => absurd hk (Nat.not_lt_zero _)⟩

theorem Copied.position {x y : Dictionary} {d n : Nat} (h : Copied x y d n) : y.position = x.position + n := by
  rw [h.1]

/-- A copy of `m` bytes and then of `n` more is one copy: the second leaves the first one's bytes and sources as they
are, because they lie below its start. -/
theorem Copied.trans {x y z : Dictionary} {d m n : Nat} (h₁ : Copied x y d m) (h₂ : Copied y z d n) :
    Copied x z d (m + n) := by
  have hp := h₁.position
  obtain ⟨frame₁, kept₁, bytes₁⟩ := h₁
  obtain ⟨frame₂, kept₂, bytes₂⟩ := h₂
  refine ⟨?_, fun a ha => ?_, fun k hk => ?_⟩
  · rw [frame₁] at frame₂
    rw [frame₂, Nat.add_assoc]
  · rw [kept₂ a (by omega), kept₁ a (by omega)]
  · by_cases hkm : k < m
    · rw [kept₂ _ (by omega), kept₂ _ (by omega), bytes₁ k hkm]
    · obtain ⟨j, rfl⟩ := Nat.exists_eq_add_of_le (Nat.not_lt.1 hkm)
      rw [← Nat.add_assoc, ← hp]
      exact bytes₂ j (by omega)

/-- Appending the byte `d` back is a copy of one byte. -/
theorem copied_append {d : Nat} {b : Byte} (hd : 1 ≤ d) (hle : d ≤ s.dict.position)
    (hb : s.dict.out.read (s.dict.position - d) = some b) : Copied s.dict (s.append b).dict d 1 := by
  refine ⟨rfl, fun a ha => ?_, fun k hk => ?_⟩
  · exact Mem.read_write_other _ _ (by omega)
  · obtain rfl : k = 0 := by omega
    show (s.dict.out.write s.dict.position b).read s.dict.position =
      (s.dict.out.write s.dict.position b).read (s.dict.position - d)
    rw [Mem.read_write_same, Mem.read_write_other _ _ (by omega), hb]

/-! ## What a copy that comes out has done -/

theorem copyByte_copied {d : Nat} {a : Unit} (hd : 1 ≤ d) (h : copyByte d s = .ok (a, t)) :
    Copied s.dict t.dict d 1 := by
  obtain ⟨hle, -, b, hread, happend⟩ := copyByte_ok.1 h
  obtain ⟨-, rfl⟩ := appendByte_ok.1 happend
  exact copied_append hd hle (readOut_ok.1 hread).2.1

theorem copyBytes_copied {d n : Nat} {a : Unit} (hd : 1 ≤ d) (h : copyBytes d n s = .ok (a, t)) :
    Copied s.dict t.dict d n := by
  induction n generalizing s with
  | zero =>
    obtain ⟨-, rfl⟩ := pure_ok.1 h
    exact .refl _ d
  | succ n ih =>
    obtain ⟨u, hbyte, hrest⟩ := copyBytes_succ_ok.1 h
    rw [Nat.add_comm]
    exact (copyByte_copied hd hbyte).trans (ih hrest)

/-- A copy changes nothing but the dictionary. -/
theorem copyBytes_changes_dict {d n : Nat} {a : Unit} (h : copyBytes d n s = .ok (a, t)) :
    t = { s with dict := t.dict } := by
  induction n generalizing s with
  | zero =>
    obtain ⟨-, rfl⟩ := pure_ok.1 h
    rfl
  | succ n ih =>
    obtain ⟨u, hbyte, hrest⟩ := copyBytes_succ_ok.1 h
    obtain ⟨-, -, b, -, happend⟩ := copyByte_ok.1 hbyte
    obtain ⟨-, rfl⟩ := appendByte_ok.1 happend
    exact (ih hrest :)

/-! ## A copy with room comes out -/

theorem State.PositionsOrdered.append (h : s.PositionsOrdered) (hl : s.dict.position < s.dict.limit) (b : Byte) :
    (s.append b).PositionsOrdered := ⟨hl, h.2⟩

theorem State.OutputWritten.append (h : s.OutputWritten) (b : Byte) : (s.append b).OutputWritten := by
  intro a
  show ((s.dict.out.write s.dict.position b).read a).isSome ↔ a < s.dict.position + 1
  rw [Mem.read_write]
  by_cases ha : a = s.dict.position
  · simp [ha]
  · rw [if_neg ha, h a]
    omega

/-- Below the limit, the byte `d` back is there to be read, and the position to be written to. -/
theorem copyByte_appends {d : Nat} (hp : s.PositionsOrdered) (hw : s.OutputWritten) (hd : 1 ≤ d)
    (hle : d ≤ s.dict.position) (hl : s.dict.position < s.dict.limit) :
    ∃ b, copyByte d s = .ok ((), s.append b) := by
  have hin : s.dict.position < s.dict.bufferSize := lt_of_lt_of_le hl hp.2
  obtain ⟨b, hb⟩ := Option.isSome_iff_exists.1 ((hw (s.dict.position - d)).2 (by omega))
  have hread : readOut (s.dict.position - d) s = .ok (b, s) := readOut_ok.2 ⟨by omega, hb, rfl⟩
  exact ⟨b, copyByte_ok.2 ⟨hle, hl.ne, b, hread, appendByte_ok.2 ⟨hin, rfl⟩⟩⟩

theorem copyBytes_completes {d n : Nat} (hp : s.PositionsOrdered) (hw : s.OutputWritten) (hd : 1 ≤ d)
    (hle : d ≤ s.dict.position) (hl : s.dict.position + n ≤ s.dict.limit) :
    ∃ t, copyBytes d n s = .ok ((), t) := by
  induction n generalizing s with
  | zero => exact ⟨s, rfl⟩
  | succ n ih =>
    have hroom : s.dict.position < s.dict.limit := by omega
    obtain ⟨b, hb⟩ := copyByte_appends hp hw hd hle hroom
    obtain ⟨t, ht⟩ := ih (hp.append hroom b) (hw.append b) (Nat.le_succ_of_le hle) (by simp; omega)
    exact ⟨t, copyBytes_succ_ok.2 ⟨_, hb, ht⟩⟩

/-! ## The instruction -/

/-- Settles O20: the copy comes out (`copyBytes_completes`), and one that comes out is `Copied`, by induction on the
length. -/
theorem dictCopyMatchCopies : Obligations.DictCopyMatchCopies := by
  intro s d n hf hp hw hd hle hl
  obtain ⟨t, ht⟩ := copyBytes_completes hp hw hd hle hl
  have hmatch : copyMatch d n s = .ok ((), t) := copyMatch_ok.2 ⟨by omega, ht⟩
  refine ⟨t.giveBack .ok, commit_ok (ret := fun _ => .ok) hf hmatch, copyBytes_copied (t := t) hd ht, ?_⟩
  exact congrArg (·.giveBack .ok) (copyBytes_changes_dict ht)

end Sys2Proof.Machine

/-! # Paths of decisions (spec/30_encoding.md R90, spec/42_range_coder.md R62)

A decoder is a tree; `Path` is one way through it from the root to a result. The range coder ends in a value exactly when
its decisions follow a path to that value (`run_ok_iff_path`), and a written string that spells the path's decisions
decodes to the same value (`Path.bits`). -/

namespace Sys2Proof.Machine

variable {α : Type} {s t u : State} {d : Dec α} {a : α} {qs : List (Option Cell × Bool)}

/-- A way through a decoder: the decisions asked for and their outcomes, and the result they lead to. -/
inductive Path : Dec α → List (Option Cell × Bool) → α → Prop where
  | ret (a : α) : Path (.ret a) [] a
  | decide (c : Cell) (b : Bool) {k : Bool → Dec α} {qs : List (Option Cell × Bool)} {a : α} :
      Path (k b) qs a → Path (.decide c k) ((some c, b) :: qs) a
  | direct (b : Bool) {k : Bool → Dec α} {qs : List (Option Cell × Bool)} {a : α} :
      Path (k b) qs a → Path (.direct k) ((none, b) :: qs) a

/-! ## Paths and the range coder -/

/-- A decoder ends in a value exactly when its decisions follow one another along a path to it. -/
theorem run_ok_iff_path : d.run s = .ok (a, t) ↔ ∃ qs, Path d qs a ∧ Follows s qs t := by
  constructor
  · intro h
    induction d generalizing s with
    | ret a' =>
      obtain ⟨rfl, rfl⟩ := pure_ok.1 h
      exact ⟨[], .ret a', rfl⟩
    | decide c k ih =>
      obtain ⟨b, u, hbit, hrest⟩ := run_decide_ok.1 h
      obtain ⟨qs, hpath, hfollows⟩ := ih b hrest
      exact ⟨_, .decide c b hpath, u, hbit, hfollows⟩
    | direct k ih =>
      obtain ⟨b, u, hbit, hrest⟩ := run_direct_ok.1 h
      obtain ⟨qs, hpath, hfollows⟩ := ih b hrest
      exact ⟨_, .direct b hpath, u, hbit, hfollows⟩
  · rintro ⟨qs, hpath, hfollows⟩
    induction hpath generalizing s with
    | ret a =>
      obtain rfl := hfollows
      rfl
    | decide c b _ ih =>
      obtain ⟨u, hbit, hrest⟩ := hfollows
      exact run_decide_ok.2 ⟨b, u, hbit, ih hrest⟩
    | direct b _ ih =>
      obtain ⟨u, hbit, hrest⟩ := hfollows
      exact run_direct_ok.2 ⟨b, u, hbit, ih hrest⟩

/-- Where the decisions before one on a path follow one another, the error of that decision is the decoder's. -/
theorem run_error_of_path {before after : List (Option Cell × Bool)} {c : Cell} {b : Bool} {e : Stop}
    (hpath : Path d (before ++ (some c, b) :: after) a) (hfollows : Follows s before u)
    (herror : decodeBit c u = .error e) : d.run s = .error e := by
  induction before generalizing d s with
  | nil =>
    obtain rfl := hfollows
    cases hpath
    exact bind_error.2 (.inl herror)
  | cons q before ih =>
    cases hpath with
    | decide c' b' hpath =>
      obtain ⟨v, hbit, hrest⟩ := hfollows
      exact bind_error.2 (.inr ⟨b', v, hbit, ih hpath hrest⟩)
    | direct b' hpath =>
      obtain ⟨v, hbit, hrest⟩ := hfollows
      exact bind_error.2 (.inr ⟨b', v, hbit, ih hpath hrest⟩)

/-! ## Paths and written strings -/

/-- A string that begins with a path's decisions decodes to the path's result and leaves the rest. -/
theorem Path.bits (h : Path d qs a) (rest : List Bool) : d.bits (qs.map Prod.snd ++ rest) = some (a, rest) := by
  induction h with
  | ret a => rfl
  | decide c b _ ih => exact ih
  | direct b _ ih => exact ih

/-- The cells of a path are the ones its string makes the decoder name. -/
theorem Path.cells (h : Path d qs a) : qs.filterMap Prod.fst = d.cells (qs.map Prod.snd) := by
  induction h with
  | ret a => rfl
  | decide c b _ ih => exact congrArg (c :: ·) ih
  | direct b _ ih => exact ih

/-! ## The cells that decisions leave alone -/

/-- Normalisation writes no cell (R62). -/
theorem normalize_cell {x : Unit} (h : normalize s = .ok (x, t)) (c : Cell) : t.cell c = s.cell c := by
  rcases normalize_ok.1 h with ⟨-, rfl⟩ | ⟨-, -, b, -, rfl⟩ <;> rfl

/-- A decision writes no cell but its own (R62, R163). -/
theorem decodeBit_cell {c d : Cell} {b : Bool} (h : decodeBit c s = .ok (b, t)) (hd : d ≠ c) : t.cell d = s.cell d := by
  obtain ⟨u, hu, -, rfl⟩ := decodeBit_ok.1 h
  rw [decided_cell hd, normalize_cell hu]

/-- A direct bit writes no cell (R167). -/
theorem decodeDirectBit_cell {b : Bool} (h : decodeDirectBit s = .ok (b, t)) (c : Cell) : t.cell c = s.cell c := by
  obtain ⟨u, hu, -, rfl⟩ := decodeDirectBit_ok.1 h
  exact normalize_cell hu c

/-- Decisions that follow one another write no cell but theirs. -/
theorem Follows.cell (h : Follows s qs t) {c : Cell} (hc : c ∉ qs.filterMap Prod.fst) : t.cell c = s.cell c := by
  induction qs generalizing s with
  | nil => rw [show s = t from h]
  | cons q qs ih =>
    obtain ⟨_ | c', b⟩ := q
    · obtain ⟨u, hbit, hrest⟩ := h
      rw [ih hrest hc, decodeDirectBit_cell hbit]
    · obtain ⟨u, hbit, hrest⟩ := h
      obtain ⟨hne, hrest'⟩ := not_or.1 (mt List.mem_cons.2 hc)
      rw [ih hrest hrest', decodeBit_cell hbit hne]

/-- Decisions that follow one another change only the range coder, the cells and `in.offset`. -/
theorem Follows.frame (h : Follows s qs t) : CoderOnly s t := by
  induction qs generalizing s with
  | nil => exact (show s = t from h) ▸ CoderOnly.refl s
  | cons q qs ih =>
    obtain ⟨_ | c', b⟩ := q
    · obtain ⟨u, hbit, hrest⟩ := h
      exact (decodeDirectBit_frame hbit).trans (ih hrest)
    · obtain ⟨u, hbit, hrest⟩ := h
      exact (decodeBit_frame hbit).trans (ih hrest)

/-- Settles O39: the decisions are those of the path that the run followed. -/
theorem rangeCoderSpellsDecisions : Obligations.RangeCoderSpellsDecisions := by
  intro α d s t a h
  obtain ⟨qs, hpath, hfollows⟩ := run_ok_iff_path.1 h
  exact ⟨qs, hfollows, hpath.bits, hpath.cells, fun _ hc => hfollows.cell hc⟩

end Sys2Proof.Machine

/-! # Written strings of decisions (spec/30_encoding.md R90, R97 to R102)

Each tree of decisions is answered by exactly the strings that begin with the code of its result: one `…_bits`
equivalence per tree, from the walks of R167 to R172 up to the whole packet. Read from right to left it is the round
trip; read from left to right, with a string long enough for every packet, it is completeness. -/

namespace Sys2Proof.Machine

variable {α β : Type} {ds rest : List Bool}

/-! ## How decoders compose -/

theorem ret_bits {a b : α} : (Dec.ret a).bits ds = some (b, rest) ↔ a = b ∧ ds = rest := by
  simp [Dec.bits]

theorem decide_bits {c : Cell} {k : Bool → Dec α} {a : α} :
    (Dec.decide c k).bits ds = some (a, rest) ↔ ∃ b tail, ds = b :: tail ∧ (k b).bits tail = some (a, rest) := by
  cases ds <;> simp [Dec.bits]

theorem direct_bits {k : Bool → Dec α} {a : α} :
    (Dec.direct k).bits ds = some (a, rest) ↔ ∃ b tail, ds = b :: tail ∧ (k b).bits tail = some (a, rest) := by
  cases ds <;> simp [Dec.bits]

theorem bind_bits {d : Dec α} {f : α → Dec β} {b : β} :
    (d.bind f).bits ds = some (b, rest) ↔
      ∃ a tail, d.bits ds = some (a, tail) ∧ (f a).bits tail = some (b, rest) := by
  rw [bits_bind, Option.bind_eq_some_iff]
  simp

theorem map_bits {d : Dec α} {f : α → β} {b : β} :
    (d.map f).bits ds = some (b, rest) ↔ ∃ a, d.bits ds = some (a, rest) ∧ f a = b := by
  rw [bits_map, Option.map_eq_some_iff]
  simp

/-- A string of at least `n` decisions is long enough for a decoder of at most `n`. -/
theorem bits_completes {d : Dec α} {n : Nat} (hd : Within d n) (hn : n ≤ ds.length) :
    ∃ a rest, d.bits ds = some (a, rest) := by
  induction d generalizing ds n with
  | ret a => exact ⟨a, ds, rfl⟩
  | decide c k ih =>
    obtain ⟨m, rfl, hk⟩ := hd
    cases ds with
    | nil => exact absurd hn (Nat.not_succ_le_zero m)
    | cons b ds => exact ih b (hk b) (Nat.le_of_succ_le_succ hn)
  | direct k ih =>
    obtain ⟨m, rfl, hk⟩ := hd
    cases ds with
    | nil => exact absurd hn (Nat.not_succ_le_zero m)
    | cons b ds => exact ih b (hk b) (Nat.le_of_succ_le_succ hn)

/-! ## Numbers as strings -/

/-- A number read down to bit `n` is one read down to bit `n + 1`, and bit `n`. -/
theorem div_two_pow_eq_iff {n m v : Nat} {b : Bool} :
    v / 2 ^ n = 2 * m + b.toNat ↔ v / 2 ^ (n + 1) = m ∧ v.testBit n = b := by
  rw [Nat.testBit_eq_decide_div_mod_eq, pow_succ, ← Nat.div_div_eq_div_mul]
  cases b <;> simp <;> omega

/-- The most significant bits first depend on the low `n` bits only. -/
theorem msbBits_congr {n v w : Nat} (h : v ≡ w [MOD 2 ^ n]) : msbBits n v = msbBits n w := by
  induction n with
  | zero => rfl
  | succ n ih =>
    have hbit : v.testBit n = w.testBit n := by
      simpa [Nat.testBit_mod_two_pow] using congrArg (Nat.testBit · n) h
    rw [msbBits, msbBits, hbit, ih (.of_mul_right 2 h)]

/-- The least significant bits first depend on the low `n` bits only. -/
theorem lsbBits_congr {n v w : Nat} (h : v ≡ w [MOD 2 ^ n]) : lsbBits n v = lsbBits n w := by
  induction n generalizing v w with
  | zero => rfl
  | succ n ih =>
    rw [pow_succ'] at h
    have hbit : v % 2 = w % 2 := Nat.ModEq.of_mul_right _ h
    have hhigh : v / 2 ≡ w / 2 [MOD 2 ^ n] := by
      rw [Nat.ModEq, ← Nat.mod_mul_right_div_self, h, Nat.mod_mul_right_div_self]
    rw [lsbBits, lsbBits, Nat.testBit_zero, Nat.testBit_zero, hbit, ih hhigh]

theorem msbBits_mod (n v : Nat) : msbBits n (v % 2 ^ n) = msbBits n v := msbBits_congr (Nat.mod_modEq v _)

theorem lsbBits_mod (n v : Nat) : lsbBits n (v % 2 ^ n) = lsbBits n v := lsbBits_congr (Nat.mod_modEq v _)

/-! ## The walks of R167, R170, R171, R172 -/

theorem walk_bits {p : Probs} {n m v : Nat} :
    (Dec.walk p n m).bits ds = some (v, rest) ↔ v / 2 ^ n = m ∧ ds = msbBits n v ++ rest := by
  induction n generalizing ds m with
  | zero => rw [Dec.walk, ret_bits, msbBits, pow_zero, Nat.div_one, List.nil_append, eq_comm]
  | succ n ih =>
    simp only [Dec.walk, decide_bits, ih, div_two_pow_eq_iff]
    constructor
    · rintro ⟨b, tail, rfl, ⟨hm, rfl⟩, rfl⟩
      exact ⟨hm, rfl⟩
    · rintro ⟨hm, rfl⟩
      exact ⟨_, _, rfl, ⟨hm, rfl⟩, rfl⟩

theorem directWalk_bits {n m v : Nat} :
    (Dec.directWalk n m).bits ds = some (v, rest) ↔ v / 2 ^ n = m ∧ ds = msbBits n v ++ rest := by
  induction n generalizing ds m with
  | zero => rw [Dec.directWalk, ret_bits, msbBits, pow_zero, Nat.div_one, List.nil_append, eq_comm]
  | succ n ih =>
    simp only [Dec.directWalk, direct_bits, ih, div_two_pow_eq_iff]
    constructor
    · rintro ⟨b, tail, rfl, ⟨hm, rfl⟩, rfl⟩
      exact ⟨hm, rfl⟩
    · rintro ⟨hm, rfl⟩
      exact ⟨_, _, rfl, ⟨hm, rfl⟩, rfl⟩

/-- The direct bits of `v` are its bits, most significant first (R167). -/
theorem directBits_bits {n v : Nat} :
    (Dec.directBits n).bits ds = some (v, rest) ↔ v < 2 ^ n ∧ ds = msbBits n v ++ rest := by
  rw [Dec.directBits, directWalk_bits, Nat.div_eq_zero_iff_lt (Nat.two_pow_pos n)]

/-- The decisions of a tree that yields `v` are the bits of `v`, most significant first (R170). -/
theorem tree_bits {p : Probs} {n v : Nat} :
    (Dec.tree p n).bits ds = some (v, rest) ↔ v < 2 ^ n ∧ ds = msbBits n v ++ rest := by
  have hpos := Nat.two_pow_pos n
  simp only [Dec.tree, map_bits, walk_bits]
  constructor
  · rintro ⟨w, ⟨hw, rfl⟩, rfl⟩
    have hw' := (Nat.div_eq_iff hpos).1 hw
    refine ⟨by omega, ?_⟩
    rw [msbBits_congr (Nat.mod_eq_sub_mod (by omega))]
  · rintro ⟨hv, rfl⟩
    refine ⟨v + 2 ^ n, ⟨?_, ?_⟩, Nat.add_sub_cancel ..⟩
    · rw [Nat.add_div_right _ hpos, Nat.div_eq_of_lt hv]
    · rw [msbBits_congr (Nat.add_mod_right v (2 ^ n))]

theorem reverseWalk_bits {p : Probs} {n i m v w : Nat} :
    (Dec.reverseWalk p n i m v).bits ds = some (w, rest) ↔
      ∃ r, r < 2 ^ n ∧ w = v + r * 2 ^ i ∧ ds = lsbBits n r ++ rest := by
  induction n generalizing ds i m v with
  | zero =>
    rw [Dec.reverseWalk, ret_bits]
    constructor
    · rintro ⟨rfl, rfl⟩
      exact ⟨0, Nat.one_pos, by simp, rfl⟩
    · rintro ⟨r, hr, rfl, rfl⟩
      obtain rfl := Nat.lt_one_iff.1 hr
      simp
  | succ n ih =>
    simp only [Dec.reverseWalk, decide_bits, ih, pow_succ]
    constructor
    · rintro ⟨b, tail, rfl, r, hr, rfl, rfl⟩
      have hb := Bool.toNat_le b
      have hdiv : (2 * r + b.toNat) / 2 = r := by omega
      have hbit : (2 * r + b.toNat).testBit 0 = b := by cases b <;> simp
      exact ⟨2 * r + b.toNat, by omega, by ring, by simp only [lsbBits, hdiv, hbit, List.cons_append]⟩
    · rintro ⟨r, hr, rfl, rfl⟩
      refine ⟨r.testBit 0, _, rfl, r / 2, by omega, ?_, rfl⟩
      have hr : r = 2 * (r / 2) + (r.testBit 0).toNat := by
        rw [Nat.toNat_testBit, pow_zero, Nat.div_one, Nat.div_add_mod]
      rw [show r * 2 ^ i = (2 * (r / 2) + (r.testBit 0).toNat) * 2 ^ i by rw [← hr]]
      ring

/-- The decisions of a reverse tree that yields `v` are the bits of `v`, least significant first (R171). -/
theorem reverseTree_bits {p : Probs} {n v : Nat} :
    (Dec.reverseTree p n).bits ds = some (v, rest) ↔ v < 2 ^ n ∧ ds = lsbBits n v ++ rest := by
  simp only [Dec.reverseTree, reverseWalk_bits, pow_zero, mul_one, Nat.zero_add]
  constructor
  · rintro ⟨r, hr, rfl, rfl⟩
    exact ⟨hr, rfl⟩
  · rintro ⟨hr, rfl⟩
    exact ⟨v, hr, rfl, rfl⟩

/-- A tree of `n` decisions read as an `n`-bit word. -/
theorem tree_ofNat_bits {p : Probs} {n : Nat} {b : BitVec n} :
    ((Dec.tree p n).map (BitVec.ofNat n)).bits ds = some (b, rest) ↔ ds = msbBits n b.toNat ++ rest := by
  simp only [map_bits, tree_bits]
  constructor
  · rintro ⟨v, ⟨hv, rfl⟩, rfl⟩
    rw [BitVec.toNat_ofNat, Nat.mod_eq_of_lt hv]
  · rintro rfl
    exact ⟨b.toNat, ⟨b.isLt, rfl⟩, BitVec.ofNat_toNat n b ▸ BitVec.setWidth_eq b⟩

/-- The symbol of R172 after one more decision. -/
theorem symbol_toNat {symbol : BitVec 16} (h : symbol.toNat < 2 ^ 15) (b : Bool) :
    (symbol <<< 1 ||| if b then 1 else 0).toNat = 2 * symbol.toNat + b.toNat := by
  have hshift : (symbol <<< 1).toNat = 2 * symbol.toNat := by
    rw [BitVec.toNat_shiftLeft, Nat.shiftLeft_eq]
    omega
  cases b
  · simp [hshift]
  · rw [if_pos rfl, BitVec.toNat_or, hshift]
    exact (Nat.two_pow_add_eq_or_of_lt (i := 1) (b := 1) (by decide) symbol.toNat).symm ▸ by simp

/-- A matched literal takes its decisions on other cells than the plain tree, and reads them alike (R172). -/
theorem matchedWalk_bits (c : Fin 8) {n : Nat} {symbol offset mb : BitVec 16}
    (h : (symbol.toNat + 1) * 2 ^ n ≤ 2 ^ 16) :
    (Dec.matchedWalk c n symbol offset mb).bits ds =
      ((Dec.walk (.literal c) n symbol.toNat).map (BitVec.ofNat 8)).bits ds := by
  induction n generalizing ds symbol offset mb with
  | zero => simp [Dec.matchedWalk, Dec.walk, Dec.map, Dec.bind, Dec.bits]
  | succ n ih =>
    cases ds with
    | nil => rfl
    | cons b ds =>
      have hpos := Nat.two_pow_pos n
      have hb := Bool.toNat_le b
      rw [pow_succ] at h
      have hsymbol := symbol_toNat (symbol := symbol) (by nlinarith) b
      exact (ih (by rw [hsymbol]; nlinarith)).trans (by rw [hsymbol]; rfl)

end Sys2Proof.Machine

/-! # The codes of lengths, distances and packets (spec/30_encoding.md R97 to R102)

What each code's tree is answered by, up to the packet: `packetTree_bits`. The arithmetic of a distance is in
`slotOf_eq_iff`, which says when a stored distance lies in a slot, and `highBits_add_eq_iff`, which says what R101 adds
below the two high bits. -/

namespace Sys2Proof

/-- The decisions of a type code (R97). -/
def PacketKind.code : PacketKind → List Bool
  | .lit => [false]
  | .matchNew => [true, false]
  | .shortRep => [true, true, false, false]
  | .longRep0 => [true, true, false, true]
  | .longRep1 => [true, true, true, false]
  | .longRep2 => [true, true, true, true, false]
  | .longRep3 => [true, true, true, true, true]

/-- The decisions of a length's selector (R99). -/
def LenClass.code : LenClass → List Bool
  | .low => [false]
  | .mid => [true, false]
  | .high => [true, true]

/-- The least length of a class (R99). -/
def LenClass.base : LenClass → Nat
  | .low => 2
  | .mid => 10
  | .high => 18

/-- The number of decisions after a length's selector (R99). -/
def LenClass.width : LenClass → Nat
  | .low => 3
  | .mid => 3
  | .high => 8

/-- What follows the slot in the code of a stored distance (R101). -/
def distExtra (slot dist : Nat) : List Bool :=
  if slot < Config.distModelStart then []
  else if slot < Config.distModelEnd then lsbBits (slot / 2 - 1) dist
  else msbBits (slot / 2 - 1 - 4) (dist / 16) ++ lsbBits 4 dist

/-- A packet's type (R97). -/
def Packet.kind : Packet → PacketKind
  | .lit _ => .lit
  | .matchNew _ _ => .matchNew
  | .shortRep => .shortRep
  | .longRep0 _ => .longRep0
  | .longRep1 _ => .longRep1
  | .longRep2 _ => .longRep2
  | .longRep3 _ => .longRep3

/-- The decisions of a packet after its type code (R98 to R101). -/
def Packet.operands : Packet → List Bool
  | .lit b => msbBits 8 b.toNat
  | .matchNew len dist => lenDecisions len ++ distDecisions dist.toNat
  | .shortRep => []
  | .longRep0 len => lenDecisions len
  | .longRep1 len => lenDecisions len
  | .longRep2 len => lenDecisions len
  | .longRep3 len => lenDecisions len

theorem distDecisions_eq (dist : Nat) :
    distDecisions dist = msbBits 6 (slotOf dist) ++ distExtra (slotOf dist) dist := rfl

theorem Packet.decisions_eq (p : Packet) : p.decisions = p.kind.code ++ p.operands := by cases p <;> rfl

end Sys2Proof

namespace Sys2Proof.Machine

variable {ds rest : List Bool}

/-! ## Type codes and selectors -/

theorem typeTree_bits {s : Fin 12} {ps : BitVec 2} {k : PacketKind} :
    (typeTree s ps).bits ds = some (k, rest) ↔ ds = k.code ++ rest := by
  cases k <;> simp [typeTree, decide_bits, ret_bits, Bool.exists_bool, PacketKind.code]

theorem lenClassTree_bits {l : LenCoder} {k : LenClass} :
    (lenClassTree l).bits ds = some (k, rest) ↔ ds = k.code ++ rest := by
  cases k <;> simp [lenClassTree, decide_bits, ret_bits, Bool.exists_bool, LenClass.code]

/-- The slot of a distance code is six decisions, most significant first (R100). -/
theorem slotTree_bits {len : Nat} {slot : BitVec 6} :
    (slotTree len).bits ds = some (slot, rest) ↔ ds = msbBits 6 slot.toNat ++ rest :=
  tree_ofNat_bits

/-! ## Lengths (R99, R204) -/

/-- A tree of `n` decisions whose value a length adds to its class's base. -/
theorem tree_add_bits {p : Probs} {n base len : Nat} :
    ((Dec.tree p n).map fun v => base + v).bits ds = some (len, rest) ↔
      base ≤ len ∧ len < base + 2 ^ n ∧ ds = msbBits n (len - base) ++ rest := by
  simp only [map_bits, tree_bits]
  constructor
  · rintro ⟨v, ⟨hv, rfl⟩, rfl⟩
    exact ⟨by omega, by omega, by rw [Nat.add_sub_cancel_left]⟩
  · rintro ⟨hbase, hlt, rfl⟩
    exact ⟨len - base, ⟨by omega, rfl⟩, by omega⟩

theorem lenBodyTree_bits {l : LenCoder} {ps : BitVec 2} {k : LenClass} {len : Nat} :
    (lenBodyTree l ps k).bits ds = some (len, rest) ↔
      k.base ≤ len ∧ len < k.base + 2 ^ k.width ∧ ds = msbBits k.width (len - k.base) ++ rest := by
  cases k <;> exact tree_add_bits

/-- The code of a length of a class is the class's selector and the length less the class's base. -/
theorem lenDecisions_of_class {k : LenClass} {len : Nat} (hbase : k.base ≤ len) (hlt : len < k.base + 2 ^ k.width) :
    lenDecisions len = k.code ++ msbBits k.width (len - k.base) := by
  cases k <;> simp only [LenClass.base, LenClass.width] at hbase hlt
  case low => exact if_pos hlt
  case mid => rw [lenDecisions, if_neg (by omega), if_pos (by omega)]; rfl
  case high => rw [lenDecisions, if_neg (by omega), if_neg (by omega)]; rfl

/-- The classes share out the lengths 2..273. -/
theorem exists_lenClass_iff {len : Nat} :
    (∃ k : LenClass, k.base ≤ len ∧ len < k.base + 2 ^ k.width) ↔ Config.lenMin ≤ len ∧ len ≤ Config.lenMax := by
  unfold Config.lenMin Config.lenMax
  constructor
  · rintro ⟨k, hbase, hlt⟩
    cases k <;> simp only [LenClass.base, LenClass.width] at hbase hlt <;> omega
  · rintro ⟨hmin, hmax⟩
    by_cases hlow : len < 10
    · exact ⟨.low, hmin, hlow⟩
    · by_cases hmid : len < 18
      · exact ⟨.mid, Nat.not_lt.1 hlow, hmid⟩
      · exact ⟨.high, Nat.not_lt.1 hmid, Nat.lt_succ_of_le hmax⟩

theorem lengthTree_bits {l : LenCoder} {ps : BitVec 2} {len : Nat} :
    (lengthTree l ps).bits ds = some (len, rest) ↔
      (Config.lenMin ≤ len ∧ len ≤ Config.lenMax) ∧ ds = lenDecisions len ++ rest := by
  simp only [lengthTree, bind_bits, lenClassTree_bits, lenBodyTree_bits, ← exists_lenClass_iff]
  constructor
  · rintro ⟨k, tail, rfl, hbase, hlt, rfl⟩
    exact ⟨⟨k, hbase, hlt⟩, by rw [lenDecisions_of_class hbase hlt, List.append_assoc]⟩
  · rintro ⟨⟨k, hbase, hlt⟩, rfl⟩
    exact ⟨k, _, by rw [lenDecisions_of_class hbase hlt, List.append_assoc], hbase, hlt, rfl⟩

/-! ## Distances (R100, R101, R205) -/

theorem slotOf_of_lt {n : Nat} (h : n < 4) : slotOf n = n := if_pos h

theorem slotOf_of_ge {n : Nat} (h : 4 ≤ n) : slotOf n = 2 * n.log2 + n / 2 ^ (n.log2 - 1) % 2 :=
  if_neg (Nat.not_lt.2 h)

/-- Below slot 4, a slot holds its own number only (R100). -/
theorem slotOf_eq_iff_of_lt {n slot : Nat} (hslot : slot < 4) : slotOf n = slot ↔ n = slot := by
  by_cases hn : n < 4
  · rw [slotOf_of_lt hn]
  · have hlog : 2 ≤ n.log2 := (Nat.le_log2 (by omega)).2 (Nat.not_lt.1 hn)
    rw [slotOf_of_ge (Nat.not_lt.1 hn)]
    omega

/-- A number's two top bits are the ones at `m + 1` and `m`. -/
theorem log2_eq_succ_iff {n m : Nat} (hn : n ≠ 0) : n.log2 = m + 1 ↔ 2 ≤ n / 2 ^ m ∧ n / 2 ^ m < 4 := by
  have hpos := Nat.two_pow_pos m
  rw [Nat.log2_eq_iff hn, Nat.le_div_iff_mul_le hpos, Nat.div_lt_iff_lt_mul hpos, pow_succ, pow_succ]
  constructor <;> rintro ⟨hge, hlt⟩ <;> constructor <;> omega

/-- From slot 4 on, a slot holds the numbers that begin with its two high bits (R100). -/
theorem slotOf_eq_iff {n slot : Nat} (hslot : 4 ≤ slot) :
    slotOf n = slot ↔ n / 2 ^ (slot / 2 - 1) = 2 + slot % 2 := by
  constructor
  · rintro rfl
    have hn : 4 ≤ n := Nat.not_lt.1 fun h => absurd hslot (by rw [slotOf_of_lt h]; omega)
    have hlog : 2 ≤ n.log2 := (Nat.le_log2 (by omega)).2 hn
    obtain ⟨m, hm⟩ := Nat.exists_eq_add_of_le' (Nat.le_of_succ_le hlog)
    obtain ⟨hge, hlt⟩ := (log2_eq_succ_iff (by omega)).1 hm
    rw [slotOf_of_ge hn, hm, Nat.add_sub_cancel, show (2 * (m + 1) + n / 2 ^ m % 2) / 2 - 1 = m by omega]
    omega
  · intro h
    have hpow : 2 ^ 1 ≤ 2 ^ (slot / 2 - 1) := Nat.pow_le_pow_right (by decide) (by omega)
    have hn : 4 ≤ n := calc
      2 * 2 ≤ n / 2 ^ (slot / 2 - 1) * 2 ^ (slot / 2 - 1) := Nat.mul_le_mul (by omega) hpow
      _ ≤ n := Nat.div_mul_le_self ..
    have hlog : n.log2 = slot / 2 - 1 + 1 := (log2_eq_succ_iff (by omega)).2 (by omega)
    rw [slotOf_of_ge hn, hlog, Nat.add_sub_cancel, h]
    omega

/-- A 32-bit distance has one of the 64 slots. -/
theorem slotOf_lt {n : Nat} (h : n < 2 ^ 32) : slotOf n < 64 := by
  by_cases hn : n < 4
  · rw [slotOf_of_lt hn]
    omega
  · have hlog : n.log2 < 32 := (Nat.log2_lt (by omega)).2 h
    rw [slotOf_of_ge (Nat.not_lt.1 hn)]
    omega

/-- `hi2` (R101). -/
theorem highBits_toNat (slot : BitVec 6) : (highBits slot).toNat = 2 + slot.toNat % 2 := by
  revert slot
  decide

/-- The two high bits of a distance and `x` below them (R101). -/
theorem highBits_add_toNat {slot : BitVec 6} {x : Nat} (hx : x < 2 ^ midBits slot) :
    ((highBits slot <<< midBits slot) + BitVec.ofNat 32 x).toNat =
      (2 + slot.toNat % 2) * 2 ^ midBits slot + x := by
  have hm : 2 ^ midBits slot ≤ 2 ^ 30 := Nat.pow_le_pow_right (by decide) (by unfold midBits; omega)
  have hhigh : (2 + slot.toNat % 2) * 2 ^ midBits slot ≤ 3 * 2 ^ midBits slot := Nat.mul_le_mul_right _ (by omega)
  rw [BitVec.toNat_add, BitVec.toNat_shiftLeft, BitVec.toNat_ofNat, highBits_toNat, Nat.shiftLeft_eq]
  omega

/-- What R101 adds up is a given distance exactly when the distance lies in the slot and ends in `x`. -/
theorem highBits_add_eq_iff {slot : BitVec 6} {x : Nat} {dist : Word} (hslot : 4 ≤ slot.toNat)
    (hx : x < 2 ^ midBits slot) :
    (highBits slot <<< midBits slot) + BitVec.ofNat 32 x = dist ↔
      slotOf dist.toNat = slot.toNat ∧ dist.toNat % 2 ^ midBits slot = x := by
  rw [← BitVec.toNat_inj, highBits_add_toNat hx, slotOf_eq_iff hslot, ← midBits,
    Nat.div_mod_unique (Nat.two_pow_pos _), and_iff_left hx, Nat.add_comm, Nat.mul_comm]

theorem distLowTree_bits {slot : BitVec 6} {dist : Word} (hslot : slot.toNat < 4) :
    (distLowTree slot).bits ds = some (dist, rest) ↔ slotOf dist.toNat = slot.toNat ∧ ds = rest := by
  rw [distLowTree, ret_bits, slotOf_eq_iff_of_lt hslot, ← BitVec.toNat_setWidth_of_le (by decide : 6 ≤ 32),
    BitVec.toNat_inj, eq_comm (a := dist)]

theorem distMidTree_bits {slot : BitVec 6} {dist : Word} (hslot : 4 ≤ slot.toNat) :
    (distMidTree slot).bits ds = some (dist, rest) ↔
      slotOf dist.toNat = slot.toNat ∧ ds = lsbBits (midBits slot) dist.toNat ++ rest := by
  simp only [distMidTree, map_bits, reverseTree_bits]
  constructor
  · rintro ⟨r, ⟨hr, rfl⟩, hdist⟩
    obtain ⟨hslotOf, rfl⟩ := (highBits_add_eq_iff hslot hr).1 hdist
    exact ⟨hslotOf, by rw [lsbBits_mod]⟩
  · rintro ⟨hslotOf, rfl⟩
    have hr := Nat.mod_lt dist.toNat (Nat.two_pow_pos (midBits slot))
    exact ⟨_, ⟨hr, by rw [lsbBits_mod]⟩, (highBits_add_eq_iff hslot hr).2 ⟨hslotOf, rfl⟩⟩

/-- The direct bits and the align value of R101 together stand below the two high bits. -/
theorem direct_add_align (high : Word) (d a : Nat) :
    high + (BitVec.ofNat 32 d <<< 4) + BitVec.ofNat 32 a = high + BitVec.ofNat 32 (d * 16 + a) := by
  have hshift : BitVec.ofNat 32 d <<< 4 = BitVec.ofNat 32 (d * 16) := by
    apply BitVec.eq_of_toNat_eq
    simp [Nat.shiftLeft_eq]
  rw [BitVec.add_assoc, hshift, ← BitVec.ofNat_add]

theorem distHighTree_bits {slot : BitVec 6} {dist : Word} (hslot : 14 ≤ slot.toNat) :
    (distHighTree slot).bits ds = some (dist, rest) ↔
      slotOf dist.toNat = slot.toNat ∧
        ds = msbBits (midBits slot - 4) (dist.toNat / 16) ++ lsbBits 4 dist.toNat ++ rest := by
  obtain ⟨m, hm⟩ : ∃ m, midBits slot = m + 4 := ⟨midBits slot - 4, by unfold midBits; omega⟩
  have hiff := fun x => highBits_add_eq_iff (x := x) (dist := dist) (Nat.le_trans (by decide) hslot)
  have hpow : 2 ^ (m + 4) = 16 * 2 ^ m := Nat.pow_add' 2 m 4
  rw [hm, hpow, Nat.mod_mul] at hiff
  have hd := Nat.mod_lt (dist.toNat / 16) (Nat.two_pow_pos m)
  have ha := Nat.mod_lt dist.toNat (Nat.two_pow_pos 4)
  have hbits : msbBits m (dist.toNat / 16 % 2 ^ m) ++ (lsbBits 4 (dist.toNat % 16) ++ rest) =
      msbBits m (dist.toNat / 16) ++ lsbBits 4 dist.toNat ++ rest := by
    rw [List.append_assoc, msbBits_mod, show lsbBits 4 (dist.toNat % 16) = _ from lsbBits_mod ..]
  simp only [distHighTree, bind_bits, map_bits, reverseTree_bits, directBits_bits, direct_add_align, hm,
    Nat.add_sub_cancel]
  constructor
  · rintro ⟨d, tail, ⟨hd, rfl⟩, a, ⟨ha, rfl⟩, hdist⟩
    obtain ⟨hslotOf, hlow⟩ := (hiff _ (by omega)).1 hdist
    obtain ⟨rfl, rfl⟩ : d = dist.toNat / 16 % 2 ^ m ∧ a = dist.toNat % 16 := by omega
    exact ⟨hslotOf, hbits⟩
  · rintro ⟨hslotOf, rfl⟩
    exact ⟨_, _, ⟨hd, hbits.symm⟩, _, ⟨ha, rfl⟩, (hiff _ (by omega)).2 ⟨hslotOf, by omega⟩⟩

theorem distBodyTree_bits {slot : BitVec 6} {dist : Word} :
    (distBodyTree slot).bits ds = some (dist, rest) ↔
      slotOf dist.toNat = slot.toNat ∧ ds = distExtra slot.toNat dist.toNat ++ rest := by
  unfold distBodyTree distExtra
  by_cases hlow : slot.toNat < Config.distModelStart
  · rw [if_pos hlow, if_pos hlow]
    exact distLowTree_bits hlow
  · rw [if_neg hlow, if_neg hlow]
    by_cases hmid : slot.toNat < Config.distModelEnd
    · rw [if_pos hmid, if_pos hmid]
      exact distMidTree_bits (Nat.not_lt.1 hlow)
    · rw [if_neg hmid, if_neg hmid]
      exact distHighTree_bits (Nat.not_lt.1 hmid)

/-- Every stored distance has one code, whatever the length's cells (R205). -/
theorem distanceTree_bits {len : Nat} {dist : Word} :
    (distanceTree len).bits ds = some (dist, rest) ↔ ds = distDecisions dist.toNat ++ rest := by
  simp only [distanceTree, bind_bits, slotTree_bits, distBodyTree_bits, distDecisions_eq, List.append_assoc]
  constructor
  · rintro ⟨slot, tail, rfl, hslot, rfl⟩
    rw [hslot]
  · rintro rfl
    have hslot : (BitVec.ofNat 6 (slotOf dist.toNat)).toNat = slotOf dist.toNat := by
      rw [BitVec.toNat_ofNat, Nat.mod_eq_of_lt (slotOf_lt dist.isLt)]
    exact ⟨BitVec.ofNat 6 (slotOf dist.toNat), _, by rw [hslot], hslot.symm, by rw [hslot]⟩

/-! ## Packets (R98, R102) -/

/-- The matched literal's decisions are its byte's bits too (R172). -/
theorem matchedLiteral_bits {c : Fin 8} {matchByte b : Byte} :
    (Dec.matchedLiteral c matchByte).bits ds = some (b, rest) ↔ ds = msbBits 8 b.toNat ++ rest := by
  rw [Dec.matchedLiteral, matchedWalk_bits c (by decide), map_bits]
  simp only [walk_bits]
  have hb := b.isLt
  constructor
  · rintro ⟨v, ⟨hv, rfl⟩, rfl⟩
    rw [BitVec.toNat_ofNat, msbBits_mod]
  · rintro rfl
    refine ⟨2 ^ 8 + b.toNat, ⟨?_, ?_⟩, ?_⟩
    · rw [Nat.add_div_left _ (by decide), Nat.div_eq_of_lt hb]
      rfl
    · rw [msbBits_congr (Nat.add_mod_left _ _)]
    · rw [BitVec.ofNat_add, BitVec.ofNat_toNat]
      simp

theorem litTree_bits {x : PacketCtx} {b : Byte} :
    (litTree x).bits ds = some (b, rest) ↔ ds = msbBits 8 b.toNat ++ rest := by
  simp only [litTree]
  split
  · exact tree_ofNat_bits
  · exact matchedLiteral_bits

theorem yields_any {α : Type} (d : Dec α) : Yields (fun _ => True) d := by
  induction d with
  | ret a => trivial
  | decide c k ih => exact ih
  | direct k ih => exact ih

/-- The operands that follow a type code make a packet of that type. -/
theorem yields_operand_kind (x : PacketCtx) (k : PacketKind) : Yields (fun p => p.kind = k) (operandTree x k) := by
  cases k
  case shortRep => rfl
  case matchNew => exact (yields_any _).bind fun _ _ => (yields_any _).map fun _ _ => rfl
  all_goals exact (yields_any _).map fun _ _ => rfl

/-- The operands of a packet, after the type code (R97). -/
theorem operandTree_bits {x : PacketCtx} {p : Packet} :
    (operandTree x p.kind).bits ds = some (p, rest) ↔ p.wellFormed = true ∧ ds = p.operands ++ rest := by
  cases p
  case lit b => simp [Packet.kind, operandTree, map_bits, litTree_bits, Packet.wellFormed, Packet.operands]
  case matchNew len dist =>
    simp [Packet.kind, operandTree, bind_bits, map_bits, lengthTree_bits, distanceTree_bits, Packet.wellFormed,
      Packet.operands]
  case shortRep => simp [Packet.kind, operandTree, ret_bits, Packet.wellFormed, Packet.operands]
  all_goals
    simp [Packet.kind, operandTree, map_bits, lengthTree_bits, Packet.wellFormed, Packet.operands]

/-- A packet's code, and no other string, decodes to the packet (R102). -/
theorem packetTree_bits {x : PacketCtx} {p : Packet} :
    (packetTree x).bits ds = some (p, rest) ↔ p.wellFormed = true ∧ ds = p.decisions ++ rest := by
  simp only [packetTree, bind_bits, typeTree_bits, Packet.decisions_eq, List.append_assoc]
  constructor
  · rintro ⟨k, tail, rfl, hoperands⟩
    obtain rfl := (yields_operand_kind x k).bits hoperands
    obtain ⟨hwf, rfl⟩ := operandTree_bits.1 hoperands
    exact ⟨hwf, rfl⟩
  · rintro ⟨hwf, rfl⟩
    exact ⟨_, _, rfl, operandTree_bits.2 ⟨hwf, rfl⟩⟩

/-! ## How many decisions a packet takes -/

theorem within_lengthTree (l : LenCoder) (ps : BitVec 2) : Within (lengthTree l ps) 10 := by
  refine Within.bind (n := 2) (m := 8) ⟨1, rfl, ?_⟩ fun k => ?_
  · rintro (_ | _)
    · trivial
    · exact ⟨0, rfl, fun _ => trivial⟩
  · cases k
    · exact (within_tree _ 3).map.mono (by decide)
    · exact (within_tree _ 3).map.mono (by decide)
    · exact (within_tree _ 8).map

theorem within_distMidTree {slot : BitVec 6} (hslot : slot.toNat < 14) : Within (distMidTree slot) 5 :=
  (within_reverseWalk _ (midBits slot) 0 1 0).map.mono (by unfold midBits; omega)

theorem within_distHighTree (slot : BitVec 6) : Within (distHighTree slot) 30 :=
  ((within_directWalk (midBits slot - 4) 0).bind fun _ => (within_reverseWalk .posAlign 4 0 1 0).map).mono
    (by unfold midBits; omega)

theorem within_distanceTree (len : Nat) : Within (distanceTree len) 36 := by
  refine Within.bind (n := 6) (m := 30) (within_tree _ 6).map fun slot => ?_
  unfold distBodyTree
  split_ifs with hlow hmid
  · trivial
  · exact (within_distMidTree hmid).mono (by decide)
  · exact within_distHighTree slot

theorem within_litTree (x : PacketCtx) : Within (litTree x) 8 := by
  unfold litTree
  dsimp only
  split
  · exact (within_tree _ 8).map
  · exact within_matchedWalk _ 8 _ _ _

/-- A decision takes one more than what follows either outcome. -/
theorem within_decide {α : Type} {c : Cell} {k : Bool → Dec α} {n : Nat} (hfalse : Within (k false) n)
    (htrue : Within (k true) n) : Within (.decide c k) (n + 1) :=
  ⟨n, rfl, Bool.rec hfalse htrue⟩

theorem within_typeTree (s : Fin 12) (ps : BitVec 2) : Within (typeTree s ps) 5 :=
  within_decide trivial <| within_decide trivial <| within_decide (within_decide trivial trivial) <|
    within_decide trivial <| within_decide trivial trivial

/-- A packet takes at most 48 decisions: two of MATCH's type code, ten of its length and 36 of its distance (R102). -/
theorem within_packetTree (x : PacketCtx) : Within (packetTree x) 48 := by
  have hlit : Within ((litTree x).map Packet.lit) 8 := (within_litTree x).map
  have hmatch : Within (operandTree x .matchNew) 46 :=
    (within_lengthTree _ _).bind fun len => (within_distanceTree len).map
  have hrep {f : Nat → Packet} {n : Nat} (hn : 10 ≤ n) : Within ((lengthTree .repLen x.posState).map f) n :=
    ((within_lengthTree _ _).map).mono hn
  refine within_decide (hlit.mono (by decide)) (within_decide hmatch ?_)
  refine within_decide (within_decide trivial (hrep (by decide))) ?_
  exact within_decide (hrep (by decide)) (within_decide (hrep (by decide)) (hrep (by decide)))

/-! ## The statements -/

/-- Settles O5: `packetTree_bits`, from right to left. -/
theorem packetCodeRoundTrip : Obligations.PacketCodeRoundTrip := fun _ _ _ hwf => packetTree_bits.2 ⟨hwf, rfl⟩

/-- Settles O6: 48 decisions are long enough for the packet's tree, and what it yields is the packet whose code the string
begins with (`packetTree_bits`). -/
theorem packetCodeComplete : Obligations.PacketCodeComplete := by
  intro x ds hlen
  obtain ⟨p, rest, hp⟩ := bits_completes (within_packetTree x) hlen
  obtain ⟨hwf, hds⟩ := packetTree_bits.1 hp
  refine ⟨p, rest, hwf, hds, hp, fun q rest' hq hds' => ?_⟩
  have hq' := packetTree_bits (x := x).2 ⟨hq, hds'⟩
  rw [hp, Option.some.injEq, Prod.mk.injEq] at hq'
  exact hq'.1.symm

theorem encode_slotInstr (slot : BitVec 6) : encode (slotInstr slot) = .decisions (msbBits 6 slot.toNat) := by
  have hlt := slot.isLt
  unfold slotInstr
  split_ifs with hlow hmid
  · have : (slot.setWidth 2).toNat = slot.toNat :=
      (BitVec.toNat_setWidth ..).trans (Nat.mod_eq_of_lt hlow)
    rw [encode, this]
  · have : (midSlot (Fin.ofNat 10 (slot.toNat - 4))).toNat = slot.toNat := by
      simp only [midSlot, Fin.val_ofNat, BitVec.toNat_ofNat, Config.distModelStart, Config.distModelEnd] at *
      omega
    rw [encode, this]
  · have : (highSlot (Fin.ofNat 50 (slot.toNat - 14))).toNat = slot.toNat := by
      simp only [highSlot, Fin.val_ofNat, BitVec.toNat_ofNat, Config.distModelEnd] at *
      omega
    rw [encode, this]

/-- Settles O4: the trees of the type code, the selector and the slot, each answered by its own code. -/
theorem opcodeDecisionsRoundTrip : Obligations.OpcodeDecisionsRoundTrip := by
  refine ⟨fun k rest => ⟨k.code, by cases k <;> rfl, ?_⟩, fun l ps k rest => ⟨k.code, by cases k <;> rfl, ?_⟩,
    fun slot rest => ⟨_, encode_slotInstr slot, ?_⟩⟩
  · exact map_bits.2 ⟨k, typeTree_bits.2 rfl, rfl⟩
  · exact map_bits.2 ⟨k, lenClassTree_bits.2 rfl, rfl⟩
  · exact map_bits.2 ⟨slot, slotTree_bits.2 rfl, rfl⟩

end Sys2Proof.Machine

/-! # Codes run by the range coder (spec/30_encoding.md R97, R101, spec/43_lzma_engine.md R190, R205)

A distance code that ends in a value, with the value as a number; and the loop's packet as its type code, a path of the
type tree that is a row of R97, and then the packet's instruction. -/

namespace Sys2Proof

/-- The decisions of a type code, each on its cell (R97). -/
def PacketKind.path (s : Fin 12) (ps : Fin 16) : PacketKind → List (Option Cell × Bool)
  | .lit => [(some (.isMatch s ps), false)]
  | .matchNew => [(some (.isMatch s ps), true), (some (.isRep s), false)]
  | .shortRep => [(some (.isMatch s ps), true), (some (.isRep s), true), (some (.isRepG0 s), false),
      (some (.isRep0Long s ps), false)]
  | .longRep0 => [(some (.isMatch s ps), true), (some (.isRep s), true), (some (.isRepG0 s), false),
      (some (.isRep0Long s ps), true)]
  | .longRep1 => [(some (.isMatch s ps), true), (some (.isRep s), true), (some (.isRepG0 s), true),
      (some (.isRepG1 s), false)]
  | .longRep2 => [(some (.isMatch s ps), true), (some (.isRep s), true), (some (.isRepG0 s), true),
      (some (.isRepG1 s), true), (some (.isRepG2 s), false)]
  | .longRep3 => [(some (.isMatch s ps), true), (some (.isRep s), true), (some (.isRepG0 s), true),
      (some (.isRepG1 s), true), (some (.isRepG2 s), true)]

end Sys2Proof

namespace Sys2Proof.Machine

variable {α : Type} {s t u : State}

/-! ## Instructions that read the range coder -/

/-- A next state of an operation issued to the CORE is its value given back, or its fault taken. -/
theorem commit_next {ret : α → Result} {m : M α} :
    commit ret m s = .next t ↔ s.fault = none ∧
      ((∃ a u, m s = .ok (a, u) ∧ t = u.giveBack (ret a)) ∨ ∃ f u, m s = .error (.raised f u) ∧ t = u.takeFault f) := by
  constructor
  · intro h
    rcases commit_cases ret m s with ⟨f, -, hc⟩ | ⟨hf, ⟨a, u, hm, hc⟩ | ⟨f, u, hm, hc⟩ | ⟨r, -, hc⟩ | ⟨f, -, hc⟩⟩ <;>
      rw [hc] at h <;> cases h
    · exact ⟨hf, .inl ⟨a, u, hm, rfl⟩⟩
    · exact ⟨hf, .inr ⟨f, u, hm, rfl⟩⟩
  · rintro ⟨hf, ⟨a, u, hm, rfl⟩ | ⟨f, u, hm, rfl⟩⟩
    · exact commit_ok hf hm
    · exact commit_raised hf hm

/-- In a state that is ready, an operation that needs an `rc.init` is the operation alone. -/
theorem commit_needRc {ret : α → Result} {m : M α} (hs : s.stage ≠ .uninit) :
    commit ret (do needRc; m) s = commit ret m s := by
  unfold commit
  rw [needRc_bind hs]

theorem State.Ready.of_coderOnly (h : s.Ready) (hc : CoderOnly s t) : t.Ready := by
  rw [hc]
  exact h

/-! ## Distances (R101, R205) -/

theorem midSlot_toNat (k : Fin 10) : (midSlot k).toNat = k.val + 4 := by
  rw [midSlot, BitVec.toNat_ofNat, Nat.mod_eq_of_lt (by omega)]

theorem highSlot_toNat (k : Fin 50) : (highSlot k).toNat = k.val + 14 := by
  rw [highSlot, BitVec.toNat_ofNat, Nat.mod_eq_of_lt (by omega)]

/-- The number of a distance of a slot 4..13: its two high bits and the value of the slot's reverse tree. -/
theorem distMidTree_ok {k : Fin 10} {slot v : Nat} (hslot : slot = k.val + 4) :
    ((distMidTree (midSlot k)).map BitVec.toNat).run s = .ok (v, t) ↔
      ∃ bs, bs.length = slot / 2 - 1 ∧ Follows s (treePath (.distSpecial k) 1 bs) t ∧
        v = (2 + slot % 2) * 2 ^ (slot / 2 - 1) + lsbValue bs := by
  have htoNat : (midSlot k).toNat = slot := (midSlot_toNat k).trans hslot.symm
  have hbits : midBits (midSlot k) = slot / 2 - 1 := by rw [midBits, htoNat]
  have hk : Fin.ofNat 10 ((midSlot k).toNat - 4) = k := by rw [htoNat, hslot]; simp
  have hvalue {bs : List Bool} (hl : bs.length = slot / 2 - 1) :=
    highBits_add_toNat (slot := midSlot k) (x := lsbValue bs) (by rw [hbits, ← hl]; exact lsbValue_lt bs)
  rw [htoNat, hbits] at hvalue
  simp only [distMidTree, run_map_ok, reverseTree_ok, hk, hbits]
  constructor
  · rintro ⟨_, ⟨r, ⟨bs, hl, hf, rfl⟩, rfl⟩, rfl⟩
    exact ⟨bs, hl, hf, hvalue hl⟩
  · rintro ⟨bs, hl, hf, rfl⟩
    exact ⟨_, ⟨_, ⟨bs, hl, hf, rfl⟩, rfl⟩, hvalue hl⟩

/-- The direct bits above the four of the align value (R101). -/
theorem direct_align_lt {ds as : List Bool} {slot : Nat} (hslot : 14 ≤ slot) (hds : ds.length = slot / 2 - 5)
    (has : as.length = 4) : msbValue ds * 16 + lsbValue as < 2 ^ (slot / 2 - 1) := by
  have hd : msbValue ds < 2 ^ (slot / 2 - 5) := hds ▸ msbValue_lt ds
  have ha : lsbValue as < 2 ^ 4 := has ▸ lsbValue_lt as
  have hpow : 2 ^ (slot / 2 - 1) = 2 ^ (slot / 2 - 5) * 16 := by
    rw [show slot / 2 - 1 = slot / 2 - 5 + 4 by omega, pow_add]
    rfl
  omega

/-- The number of a distance of a slot 14..63: its two high bits, the direct bits and the align value. -/
theorem distHighTree_ok {k : Fin 50} {slot v : Nat} (hslot : slot = k.val + 14) :
    ((distHighTree (highSlot k)).map BitVec.toNat).run s = .ok (v, t) ↔
      ∃ ds as : List Bool, ds.length = slot / 2 - 5 ∧ as.length = 4 ∧
        Follows s ((ds.map fun b => (none, b)) ++ treePath .posAlign 1 as) t ∧
        v = (2 + slot % 2) * 2 ^ (slot / 2 - 1) + msbValue ds * 16 + lsbValue as := by
  have htoNat : (highSlot k).toNat = slot := (highSlot_toNat k).trans hslot.symm
  have hbits : midBits (highSlot k) = slot / 2 - 1 := by rw [midBits, htoNat]
  have hvalue {ds as : List Bool} (hds : ds.length = slot / 2 - 5) (has : as.length = 4) :=
    highBits_add_toNat (slot := highSlot k) (x := msbValue ds * 16 + lsbValue as)
      (by rw [hbits]; exact direct_align_lt (by omega) hds has)
  rw [htoNat, hbits] at hvalue
  simp only [← Nat.add_assoc] at hvalue
  simp only [distHighTree, run_bind_ok, run_map_ok, reverseTree_ok, directBits_ok, follows_append, hbits,
    direct_add_align, Nat.sub_sub]
  constructor
  · rintro ⟨_, ⟨d, u, ⟨ds, hds, hf, rfl⟩, a, ⟨as, has, hg, rfl⟩, rfl⟩, rfl⟩
    exact ⟨ds, as, hds, has, ⟨u, hf, hg⟩, hvalue hds has⟩
  · rintro ⟨ds, as, hds, has, ⟨u, hf, hg⟩, rfl⟩
    exact ⟨_, ⟨_, u, ⟨ds, hds, hf, rfl⟩, _, ⟨as, has, hg, rfl⟩, rfl⟩, hvalue hds has⟩

/-- A distance code of a ready state, its result given back as a number. -/
theorem commit_distance {d : Dec Word} {v : Nat} (hready : s.Ready) (h : (d.map BitVec.toNat).run s = .ok (v, u)) :
    commit (fun dist : Word => .value dist.toNat) (do needRc; d.run) s = .next { u with result := .value v } ∧
      CoderOnly s u := by
  obtain ⟨dist, hrun, rfl⟩ := run_map_ok.1 h
  exact ⟨(commit_needRc hready.2).trans (commit_ok hready.1 hrun), run_frame hrun⟩

/-- The interval of a slot (R100). -/
theorem slot_interval {slot m r : Nat} (h : r < 2 ^ m) :
    (2 + slot % 2) * 2 ^ m ≤ (2 + slot % 2) * 2 ^ m + r ∧ (2 + slot % 2) * 2 ^ m + r < (3 + slot % 2) * 2 ^ m := by
  constructor
  · omega
  · calc
      (2 + slot % 2) * 2 ^ m + r < (2 + slot % 2) * 2 ^ m + 2 ^ m := Nat.add_lt_add_left h _
      _ = (3 + slot % 2) * 2 ^ m := by ring

/-- Settles O37: the values of `distMidTree_ok` and `distHighTree_ok`, and the numbers of decisions of the two trees. -/
theorem distanceCodesAssembleDistance : Obligations.DistanceCodesAssembleDistance := by
  refine ⟨fun s slot hfault => ?_, fun s k slot hready hslot => ⟨fun bs u hl hf => ?_, fun hfetch => ?_⟩,
    fun s k slot hready hslot => ⟨fun ds as u hds has hf => ?_, fun hfetch => ?_⟩⟩
  · have hrun : (distLowTree (slot.setWidth 6)).run s = .ok ((slot.setWidth 6).setWidth 32, s) := rfl
    have hvalue : ((slot.setWidth 6).setWidth 32).toNat = slot.toNat := by
      rw [BitVec.toNat_setWidth_of_le (by decide), BitVec.toNat_setWidth_of_le (by decide)]
    rw [← hvalue]
    exact commit_ok (ret := fun dist : Word => .value dist.toNat) hfault hrun
  · exact commit_distance hready ((distMidTree_ok hslot).2 ⟨bs, hl, hf, rfl⟩)
  · have hmid : (midSlot k).toNat < 14 := by rw [midSlot_toNat]; omega
    obtain ⟨v, u, h⟩ := run_completes ((within_distMidTree hmid).map (f := BitVec.toNat)) hfetch
    obtain ⟨bs, hl, -, rfl⟩ := (distMidTree_ok hslot).1 h
    exact ⟨_, _, (commit_distance hready h).1, rfl, slot_interval (hl ▸ lsbValue_lt bs)⟩
  · exact commit_distance hready ((distHighTree_ok hslot).2 ⟨ds, as, hds, has, hf, rfl⟩)
  · obtain ⟨v, u, h⟩ := run_completes ((within_distHighTree (highSlot k)).map (f := BitVec.toNat)) hfetch
    obtain ⟨ds, as, hds, has, -, rfl⟩ := (distHighTree_ok hslot).1 h
    refine ⟨_, _, (commit_distance hready h).1, rfl, ?_⟩
    rw [Nat.add_assoc]
    exact slot_interval (direct_align_lt (by omega) hds has)

/-! ## The loop's packet (R97, R190) -/

theorem ret_path {a b : α} {qs : List (Option Cell × Bool)} : Path (.ret a) qs b ↔ qs = [] ∧ a = b := by
  constructor
  · rintro ⟨⟩
    exact ⟨rfl, rfl⟩
  · rintro ⟨rfl, rfl⟩
    exact .ret a

theorem decide_path {c : Cell} {k : Bool → Dec α} {qs : List (Option Cell × Bool)} {a : α} :
    Path (.decide c k) qs a ↔ ∃ b tail, qs = (some c, b) :: tail ∧ Path (k b) tail a := by
  constructor
  · rintro (_ | ⟨_, b, h⟩)
    exact ⟨b, _, rfl, h⟩
  · rintro ⟨b, tail, rfl, h⟩
    exact .decide c b h

theorem typeTree_path {c : Fin 12} {ps : BitVec 2} {k : PacketKind} {qs : List (Option Cell × Bool)} :
    Path (typeTree c ps) qs k ↔ qs = k.path c (posColumn ps) := by
  cases k <;> simp [typeTree, decide_path, ret_path, Bool.exists_bool, PacketKind.path]

/-- Each row of R97 is a packet type's instruction and its type code. -/
theorem mem_typeCodes {c : Fin 12} {ps : Fin 16} {i : Instr} {code : List (Option Cell × Bool)} :
    (i, code) ∈ typeCodes c ps ↔ ∃ k : PacketKind, i = k.instr ∧ code = k.path c ps := by
  constructor
  · intro h
    simp only [typeCodes, List.mem_cons, List.not_mem_nil, or_false, Prod.mk.injEq] at h
    rcases h with h | h | h | h | h | h | h
    · exact ⟨.lit, h⟩
    · exact ⟨.matchNew, h⟩
    · exact ⟨.shortRep, h⟩
    · exact ⟨.longRep0, h⟩
    · exact ⟨.longRep1, h⟩
    · exact ⟨.longRep2, h⟩
    · exact ⟨.longRep3, h⟩
  · rintro ⟨k, rfl, rfl⟩
    cases k <;> simp [typeCodes, PacketKind.instr, PacketKind.path]

theorem posColumn_posState {ps : Fin 16} (h : ps.val = s.dict.position % 4) : posColumn s.posState = ps := by
  apply Fin.ext
  rw [posColumn, State.posState, Fin.val_ofNat, BitVec.toNat_ofNat]
  omega

/-- A packet's instruction is its body, where `rc.init` has been issued. -/
theorem exec_packet (hs : s.stage ≠ .uninit) (k : PacketKind) :
    exec k.instr s = commit (fun _ => .ok) (packetBody k) s := by
  cases k
  case shortRep => rfl
  all_goals exact commit_needRc hs

/-- Settles O47: a row of R97 is a path of the type tree (`typeTree_path`), so the packet is the row's instruction on the
state the code leaves. -/
theorem packetLoopRunsDecodedPacket : Obligations.PacketLoopRunsDecodedPacket := by
  intro s ps hready hps
  have hrow {i : Instr} {code : List (Option Cell × Bool)} : (i, code) ∈ typeCodes s.lz.state ps ↔
      ∃ k : PacketKind, i = k.instr ∧ Path (typeTree s.lz.state s.posState) code k := by
    simp only [mem_typeCodes, typeTree_path, posColumn_posState hps]
  refine ⟨fun i code u hmem hfollows => ?_, fun i before after c b u v f hmem hfollows herror => ?_, fun hfetch => ?_⟩
  · obtain ⟨k, rfl, hpath⟩ := hrow.1 hmem
    have hone : onePacket s = packetBody k u := onePacket_of_type (run_ok_iff_path.2 ⟨code, hpath, hfollows⟩)
    have hu := hready.of_coderOnly hfollows.frame
    simp only [hone, exec_packet hu.2 k, commit_next]
    refine ⟨fun v hv => ⟨hu.1, .inl ⟨(), v, hv, rfl⟩⟩, ?_, ?_⟩
    · rintro t ⟨-, ⟨⟨⟩, v, hv, -⟩ | ⟨f, v, -, rfl⟩⟩ hfault
      · exact ⟨v, hv⟩
      · cases hfault
    · rintro t f ⟨-, ⟨⟨⟩, v, hv, rfl⟩ | ⟨f', v, hv, rfl⟩⟩ hfault
      · have hnone : v.fault = none := (decodes_packetBody k u () v hv).fault.trans hu.1
        cases hnone.symm.trans hfault
      · cases hfault
        exact ⟨v, hv⟩
  · obtain ⟨k, -, hpath⟩ := hrow.1 hmem
    exact onePacket_of_type_error (run_error_of_path hpath hfollows herror)
  · obtain ⟨k, u, hrun⟩ := run_completes (within_typeTree s.lz.state s.posState) hfetch
    obtain ⟨code, hpath, hfollows⟩ := run_ok_iff_path.1 hrun
    exact ⟨k.instr, code, u, hrow.2 ⟨k, rfl, hpath⟩, hfollows⟩

end Sys2Proof.Machine

/-! # Chunk headers (spec/30_encoding.md R91 to R94, R105, R108)

Decoding a header looks at no byte after it (`decodeBytes_append`), so a header of one byte round-trips for every rest when
it does alone; an LZMA header is put together again from its fields. The row of a control byte is the one its header
decodes to, and no control byte is in two rows because no two rows agree on the bits both of them look at. -/

namespace Sys2Proof.Machine

/-! ## Headers as bytes -/

/-- What one decoding answers, the other answers with `tail` left after it. -/
def Extends (tail : List Byte) (x y : Except DecodeReject (Instr × List Byte)) : Prop :=
  ∀ i rest, x = .ok (i, rest) → y = .ok (i, rest ++ tail)

theorem Extends.ok {tail : List Byte} (i : Instr) (rest : List Byte) :
    Extends tail (.ok (i, rest)) (.ok (i, rest ++ tail)) := by
  rintro _ _ ⟨⟩
  rfl

theorem Extends.error {tail : List Byte} (e : DecodeReject) (y : Except DecodeReject (Instr × List Byte)) :
    Extends tail (.error e) y := nofun

theorem Extends.ite {tail : List Byte} {p : Prop} [Decidable p] {x x' y y' : Except DecodeReject (Instr × List Byte)}
    (h : Extends tail x y) (h' : Extends tail x' y') : Extends tail (if p then x else x') (if p then y else y') := by
  split
  · exact h
  · exact h'

theorem decodeLzmaHeader_append (control : Byte) (bs tail : List Byte) :
    Extends tail (decodeLzmaHeader control bs) (decodeLzmaHeader control (bs ++ tail)) := by
  match bs with
  | i0 :: i1 :: i2 :: i3 :: rest =>
    refine .ite (.ok _ _) (.ite (.ok _ _) (.ite (.ok _ _) ?_))
    cases rest with
    | nil => exact .error _ _
    | cons p rest => exact .ok _ _
  | [] | [_] | [_, _] | [_, _, _] => exact .error _ _

/-- Decoding a header looks at no byte after it. -/
theorem decodeBytes_append (bs tail : List Byte) : Extends tail (decodeBytes bs) (decodeBytes (bs ++ tail)) := by
  cases bs with
  | nil => exact .error _ _
  | cons control bs =>
    exact .ite (.ok _ _) (.ite (.ok _ _) (.ite (.ok _ _) (.ite (.ok _ _) (.ite (.ok _ _) (.ite (.ok _ _)
      (.ite (.ok _ _) (.ite (.ok _ _) (.ite (.ok _ _) (decodeLzmaHeader_append control bs tail)))))))))

/-- A header that decodes alone decodes with any bytes after it. -/
theorem decodeBytes_append_of_alone {bs rest : List Byte} {i : Instr} (h : decodeBytes bs = .ok (i, [])) :
    decodeBytes (bs ++ rest) = .ok (i, rest) := decodeBytes_append bs rest i [] h

/-- A control byte with its top bit set is in no row that looks at the top bit and wants it 0. -/
theorem and_ne_of_msb {c mask pattern : Byte} (hc : c.msb = true) (hm : mask.msb = true) (hp : pattern.msb = false) :
    ¬c &&& mask = pattern := by
  rintro rfl
  simp [BitVec.msb_and, hc, hm] at hp

/-- A control byte with its top bit set begins an LZMA header (R91). -/
theorem decodeBytes_of_msb {control : Byte} (h : control.msb = true) (rest : List Byte) :
    decodeBytes (control :: rest) = decodeLzmaHeader control rest := by
  rw [decodeBytes]
  iterate 9 rw [if_neg (and_ne_of_msb h rfl rfl)]

/-- The control byte of an LZMA chunk: the top bit, the reset field, five bits of the size (R91). -/
theorem lzmaControl_and (r : BitVec 2) (x : BitVec 5) :
    ((1 : BitVec 1) ++ r ++ x) &&& 0xE0 = (1 : BitVec 1) ++ r ++ (0 : BitVec 5) := by
  revert r x
  decide

theorem lzmaControl_msb (r : BitVec 2) (x : BitVec 5) : ((1 : BitVec 1) ++ r ++ x).msb = true := by
  revert r x
  decide

/-- The size's 21 bits, five of them in the control byte (R91, R93). -/
theorem sizeField_lzmaHeader (r : BitVec 2) (u : BitVec 21) :
    sizeField ((1 : BitVec 1) ++ r ++ u.extractLsb' 16 5) (u.extractLsb' 8 8) (u.extractLsb' 0 8) = u := by
  rw [sizeField, BitVec.extractLsb'_append_eq_right,
    BitVec.extractLsb'_append_extractLsb'_eq_extractLsb' (rfl : 16 = 8 + 8),
    BitVec.extractLsb'_append_extractLsb'_eq_extractLsb' (rfl : 8 = 0 + 8)]
  exact BitVec.extractLsb'_eq_self

theorem extract_append_extract (c : BitVec 16) : c.extractLsb' 8 8 ++ c.extractLsb' 0 8 = c := by
  rw [BitVec.extractLsb'_append_extractLsb'_eq_extractLsb' (rfl : 8 = 0 + 8)]
  exact BitVec.extractLsb'_eq_self

/-- An LZMA header's bytes up to the property byte are its control byte and four info bytes (R91). -/
theorem decodeBytes_lzmaHeader (r : BitVec 2) (u : BitVec 21) (c : BitVec 16) (tail : List Byte) :
    decodeBytes (lzmaHeader r u c ++ tail) =
      decodeLzmaHeader ((1 : BitVec 1) ++ r ++ u.extractLsb' 16 5)
        (u.extractLsb' 8 8 :: u.extractLsb' 0 8 :: c.extractLsb' 8 8 :: c.extractLsb' 0 8 :: tail) :=
  decodeBytes_of_msb (lzmaControl_msb r _) _

/-- Settles O3: a header of one byte alone decodes to its command, whatever the open bits of its row; an LZMA header by its
reset field. -/
theorem chunkHeaderRoundTrip : Obligations.ChunkHeaderRoundTrip := by
  intro i bs rest h
  cases i <;> cases h
  case chunkReserved04 x => exact decodeBytes_append_of_alone (by revert x; decide)
  case chunkReserved08 x => exact decodeBytes_append_of_alone (by revert x; decide)
  case chunkReserved10 x => exact decodeBytes_append_of_alone (by revert x; decide)
  case chunkReserved20 x => exact decodeBytes_append_of_alone (by revert x; decide)
  case chunkReserved40 x => exact decodeBytes_append_of_alone (by revert x; decide)
  case chunkLzmaNone | chunkLzmaState | chunkLzmaProps | chunkLzmaFull =>
    simp only [List.append_assoc, decodeBytes_lzmaHeader, decodeLzmaHeader, lzmaControl_and, sizeField_lzmaHeader,
      extract_append_extract]
    rfl
  all_goals rfl

/-! ## Rows of the opcode table -/

/-- The rows of the opcode table do not overlap (R92): where both masks look, two rows' patterns differ. -/
theorem chunkRows_disjoint : ∀ m n : Fin chunkRows.length,
    chunkRows[m].pattern &&& chunkRows[n].mask = chunkRows[n].pattern &&& chunkRows[m].mask → m = n := by
  decide

theorem admits_iff {row : ChunkRow} {control : Byte} : row.admits control = true ↔ control &&& row.mask = row.pattern :=
  beq_iff_eq

theorem admits_unique {m n : Nat} {row row' : ChunkRow} {control : Byte} (hm : chunkRows[m]? = some row)
    (hn : chunkRows[n]? = some row') (h : row.admits control = true) (h' : row'.admits control = true) : m = n := by
  obtain ⟨hlt, rfl⟩ := List.getElem?_eq_some_iff.1 hm
  obtain ⟨hlt', rfl⟩ := List.getElem?_eq_some_iff.1 hn
  refine Fin.val_eq_of_eq (chunkRows_disjoint ⟨m, hlt⟩ ⟨n, hlt'⟩ ?_)
  show chunkRows[m].pattern &&& chunkRows[n].mask = chunkRows[n].pattern &&& chunkRows[m].mask
  rw [← admits_iff.1 h, ← admits_iff.1 h', BitVec.and_assoc, BitVec.and_assoc,
    BitVec.and_comm chunkRows[m].mask]

/-- A control byte from `0x80` on that is in none of the other LZMA rows is in CHUNK.LZMA.FULL's (R92). -/
theorem lzmaFull_row : ∀ c : Byte, c.msb = true → ¬c &&& 0xE0 = 0x80 → ¬c &&& 0xE0 = 0xA0 → ¬c &&& 0xE0 = 0xC0 →
    c &&& 0xE0 = 0xE0 := by decide

/-- The control bytes below `0x08` are in the first five rows (R92). -/
theorem ge_of_no_low_row : ∀ c : Byte, ¬c &&& 0xFF = 0x00 → ¬c &&& 0xFF = 0x01 → ¬c &&& 0xFF = 0x02 →
    ¬c &&& 0xFF = 0x03 → ¬c &&& 0xFC = 0x04 → ¬c &&& 0xF8 = 0x00 := by decide

/-- The control bytes from `0x08` on and without the top bit are in the next four (R92). -/
theorem msb_of_no_reserved_row : ∀ c : Byte, ¬c &&& 0xF8 = 0x00 → ¬c &&& 0xF8 = 0x08 → ¬c &&& 0xF0 = 0x10 →
    ¬c &&& 0xE0 = 0x20 → ¬c &&& 0xC0 = 0x40 → c.msb = true := by decide

/-- Whatever instruction a decoding answers, its row admits the control byte. -/
def RowAdmits (control : Byte) (x : Except DecodeReject (Instr × List Byte)) : Prop :=
  ∀ i rest, x = .ok (i, rest) → ∃ n row, chunkRowOf i = some n ∧ chunkRows[n]? = some row ∧ row.admits control = true

theorem RowAdmits.ok {control : Byte} {i : Instr} {rest : List Byte} (n : Fin 13) (hi : chunkRowOf i = some n.val)
    (h : control &&& (chunkRows.get n).mask = (chunkRows.get n).pattern) : RowAdmits control (.ok (i, rest)) := by
  rintro _ _ ⟨⟩
  exact ⟨n, chunkRows.get n, hi, List.getElem?_eq_getElem n.isLt, admits_iff.2 h⟩

theorem RowAdmits.ite {control : Byte} {p : Prop} [Decidable p] {x y : Except DecodeReject (Instr × List Byte)}
    (h : p → RowAdmits control x) (h' : ¬p → RowAdmits control y) : RowAdmits control (if p then x else y) := by
  split
  · exact h ‹_›
  · exact h' ‹_›

theorem decodeLzmaHeader_row {control : Byte} (hmsb : control.msb = true) (bs : List Byte) :
    RowAdmits control (decodeLzmaHeader control bs) := by
  match bs with
  | i0 :: i1 :: i2 :: i3 :: rest =>
    refine .ite (.ok 9 rfl) fun h80 => .ite (.ok 10 rfl) fun hA0 => .ite (.ok 11 rfl) fun hC0 => ?_
    cases rest with
    | nil => exact nofun
    | cons p rest => exact .ok 12 rfl (lzmaFull_row control hmsb h80 hA0 hC0)
  | [] | [_] | [_, _] | [_, _, _] => exact nofun

/-- A header decodes to an instruction of a row that admits its control byte. -/
theorem decodeBytes_row (control : Byte) (bs : List Byte) : RowAdmits control (decodeBytes (control :: bs)) :=
  .ite (.ok 0 rfl) fun h00 => .ite (.ok 1 rfl) fun h01 => .ite (.ok 2 rfl) fun h02 => .ite (.ok 3 rfl) fun h03 =>
    .ite (.ok 4 rfl) fun h04 => .ite (.ok 5 rfl) fun h08 => .ite (.ok 6 rfl) fun h10 => .ite (.ok 7 rfl) fun h20 =>
      .ite (.ok 8 rfl) fun h40 =>
        decodeLzmaHeader_row
          (msb_of_no_reserved_row control (ge_of_no_low_row control h00 h01 h02 h03 h04) h08 h10 h20 h40) bs

/-- Settles O2: six bytes hold a header (`decodeBytes_error`), its instruction's row admits the control byte, and no other
row does (`admits_unique`). -/
theorem controlByteMatchesExactlyOneRow : Obligations.ControlByteMatchesExactlyOneRow := by
  intro control i0 i1 i2 i3 p
  cases h : decodeBytes [control, i0, i1, i2, i3, p] with
  | error e => exact absurd (decodeBytes_error h) (by simp [maxHeader])
  | ok r =>
    obtain ⟨i, rest⟩ := r
    obtain ⟨n, row, hi, hrow, hadmits⟩ := decodeBytes_row control _ i rest h
    exact ⟨n, row, i, rest, hrow, hadmits, fun m row' hrow' hadmits' => admits_unique hrow' hrow hadmits' hadmits, rfl, hi⟩

/-- Settles O1: each header evaluated. -/
theorem chunkHeaderWordsDecode : Obligations.ChunkHeaderWordsDecode :=
  ⟨rfl, rfl, rfl, rfl, rfl, rfl, rfl, rfl, rfl, rfl, rfl, rfl⟩

end Sys2Proof.Machine

/-! # The input cursor (spec/40_input_cursor.md R130 to R132)

For `in.read_byte` and `in.reserve` the laws of `Laws/Coder.lean` and `Laws/Dict.lean` give the outcome at once. `in.align4`
turns on one lemma: past `j` zero pad bytes it is the same loop, `j` bytes on and with `j` rounds fewer
(`align4_past_zeros`). What it does next depends on what stands there: the boundary, a byte that is not zero, or the end
of the input. -/

namespace Sys2Proof.Machine

variable {s t : State}

/-! ## Single operations (R130, R131) -/

/-- Settles O14: `readByte_ok` and `readByte_error` at the two outcomes. -/
theorem inReadByteReadsAndAdvances : Obligations.InReadByteReadsAndAdvances := by
  refine ⟨fun s b hf hlt hb => ?_, fun s hf hle => ?_⟩
  · exact commit_ok (ret := .byte) hf (readByte_ok.2 ⟨hlt, hb, rfl⟩)
  · exact ⟨_, commit_raised hf (readByte_error.2 (.inl ⟨Nat.not_lt.2 hle, rfl⟩)), rfl⟩

/-- Settles O15: the bytes given are the view (`viewBytes_eq_some`), then `reserve_ok` and `reserve_error`. -/
theorem inReserveReturnsView : Obligations.InReserveReturnsView := by
  refine ⟨fun s n bs hf hlen hle hread => ?_, fun s n hf hlt => ?_⟩
  · have hview : viewBytes s.inp.bytes s.inp.offset n = some bs := viewBytes_eq_some.2 ⟨hlen, hread⟩
    exact commit_ok (ret := .view) hf (reserve_ok.2 ⟨hle, hview, rfl⟩)
  · exact ⟨_, commit_raised hf (reserve_error.2 (.inl ⟨hlt, rfl⟩)), rfl⟩

/-! ## Pad bytes (R132) -/

/-- A pad byte passes exactly when it is there and zero. -/
theorem padByte_ok {a : Unit} :
    padByte s = .ok (a, t) ↔
      s.inp.offset < s.inp.size ∧ s.inp.bytes.read s.inp.offset = some 0 ∧ t = s.advance 1 := by
  simp only [padByte, bind_ok, look_ok, readByte_ok]
  constructor
  · rintro ⟨_, _, ⟨rfl, rfl⟩, b, _, ⟨hlt, hb, rfl⟩, h⟩
    split at h
    · next hz => exact ⟨hlt, hz ▸ hb, (pure_ok.1 h).2.symm⟩
    · exact absurd h raise_ok
  · rintro ⟨hlt, hb, rfl⟩
    exact ⟨_, _, ⟨rfl, rfl⟩, 0, _, ⟨hlt, hb, rfl⟩, rfl⟩

/-- A pad byte that is not zero is `CorruptPadding` at its address. -/
theorem padByte_corrupt {b : Byte} (hlt : s.inp.offset < s.inp.size) (hb : s.inp.bytes.read s.inp.offset = some b)
    (hne : b ≠ 0) : padByte s = .error (.raised (.corruptPadding s.inp.offset) (s.advance 1)) := by
  have hrest : (if b = 0 then pure () else raise (.corruptPadding s.inp.offset) : M Unit) (s.advance 1) =
      .error (.raised (.corruptPadding s.inp.offset) (s.advance 1)) := by rw [if_neg hne]; rfl
  exact bind_error.2 (.inr ⟨_, _, look_ok.2 ⟨rfl, rfl⟩, bind_error.2 (.inr ⟨b, _, readByte_ok.2 ⟨hlt, hb, rfl⟩, hrest⟩)⟩)

/-- A pad byte at the end of the input is `EndOfInput`. -/
theorem padByte_atEnd (hle : s.inp.size ≤ s.inp.offset) :
    padByte s = .error (.raised (.endOfInput s.inp.offset) s) :=
  bind_error.2 (.inr ⟨_, _, look_ok.2 ⟨rfl, rfl⟩,
    bind_error.2 (.inl (readByte_error.2 (.inl ⟨Nat.not_lt.2 hle, rfl⟩)))⟩)

/-! ## The loop of `in.align4` (R132) -/

/-- At a multiple of 4 no pad byte is looked at. -/
theorem padBytes_aligned (n : Nat) (h : s.inp.offset % 4 = 0) : padBytes n s = .ok ((), s) := by
  cases n with
  | zero => rfl
  | succ n => exact bind_ok.2 ⟨_, _, look_ok.2 ⟨rfl, rfl⟩, by simp [h]⟩

/-- Off a multiple of 4 one pad byte is looked at, and the loop goes on after it. -/
theorem padBytes_unaligned (n : Nat) (h : s.inp.offset % 4 ≠ 0) :
    padBytes (n + 1) s = (padByte >>= fun _ => padBytes n) s := by
  simp [padBytes, bind_run, look, h]

/-- Past `k` zero pad bytes the loop is `k` bytes on, with `k` rounds fewer. -/
theorem padBytes_past_zeros (k n : Nat)
    (hpad : ∀ j, j < k → (s.inp.offset + j) % 4 ≠ 0 ∧ s.inp.offset + j < s.inp.size ∧
      s.inp.bytes.read (s.inp.offset + j) = some 0) :
    padBytes (n + k) s = padBytes n (s.advance k) := by
  induction k generalizing n with
  | zero => rfl
  | succ k ih =>
    obtain ⟨hoff, hlt, hzero⟩ := hpad k (Nat.lt_succ_self k)
    have hbyte : padByte (s.advance k) = .ok ((), s.advance (k + 1)) := padByte_ok.2 ⟨hlt, hzero, rfl⟩
    calc padBytes (n + (k + 1)) s
      _ = padBytes (n + 1 + k) s := by rw [Nat.add_right_comm, Nat.add_assoc]
      _ = padBytes (n + 1) (s.advance k) := ih (n + 1) fun j hj => hpad j (Nat.lt_succ_of_lt hj)
      _ = (padByte >>= fun _ => padBytes n) (s.advance k) := padBytes_unaligned n hoff
      _ = padBytes n (s.advance (k + 1)) := by rw [bind_run, hbyte]

/-- `in.align4` past the first `j` of its pad bytes, all zero: `k` is how far the next multiple of 4 is, and no address
before it is one. -/
theorem align4_past_zeros {k j : Nat} (hk : k < 4) (hal : (s.inp.offset + k) % 4 = 0) (hj : j ≤ k)
    (hle : s.inp.offset + j ≤ s.inp.size) (hzero : ∀ i, i < j → s.inp.bytes.read (s.inp.offset + i) = some 0) :
    align4 s = padBytes (3 - j) (s.advance j) := by
  have hsplit : 3 - j + j = 3 := Nat.sub_add_cancel (by omega)
  have hskip := padBytes_past_zeros j (3 - j) fun i hi => ⟨by omega, by omega, hzero i hi⟩
  rwa [hsplit] at hskip

/-- `in.align4` stops where a pad byte does: at the first byte that does not pass, before the boundary. -/
theorem align4_stops {k j : Nat} {e : Stop} (hk : k < 4) (hal : (s.inp.offset + k) % 4 = 0) (hj : j < k)
    (hle : s.inp.offset + j ≤ s.inp.size) (hzero : ∀ i, i < j → s.inp.bytes.read (s.inp.offset + i) = some 0)
    (hstop : padByte (s.advance j) = .error e) : align4 s = .error e := by
  have hoff : (s.advance j).inp.offset % 4 ≠ 0 := by
    show (s.inp.offset + j) % 4 ≠ 0
    omega
  have hround : 3 - j = 2 - j + 1 := by omega
  rw [align4_past_zeros hk hal hj.le hle hzero, hround, padBytes_unaligned _ hoff]
  exact bind_error.2 (.inl hstop)

/-- Settles O16: past the zero pad bytes (`align4_past_zeros`) stands the boundary, or `in.align4` stops (`align4_stops`)
on a pad byte that is not zero or at the end of the input. -/
theorem inAlign4SkipsZeroPadding : Obligations.InAlign4SkipsZeroPadding := by
  refine ⟨fun s k hf hk hal hle hzero => ?_, fun s k j b hf hk hal hj hlt hzero hb hne => ?_,
    fun s k j hf hk hal hj hend hzero => ?_⟩
  · have hrun : align4 s = .ok ((), s.advance k) :=
      (align4_past_zeros hk hal le_rfl hle hzero).trans (padBytes_aligned _ hal)
    exact commit_ok (ret := fun _ => .ok) hf hrun
  · have hrun := align4_stops hk hal hj hlt.le hzero (padByte_corrupt hlt hb hne)
    exact ⟨_, commit_raised hf hrun, rfl⟩
  · have hrun := align4_stops hk hal hj hend.le hzero (padByte_atEnd hend.ge)
    exact ⟨_, commit_raised hf hrun, by rw [← hend]; rfl⟩

end Sys2Proof.Machine

/-! # The dictionary (spec/41_dictionary.md R140 to R150)

The laws of `Laws/Dict.lean` give the outcome of each single operation. A copy that is too long for the room below the
limit turns on one induction: each byte below the limit is appended, and the byte asked for at the limit raises `Full`
(`copyBytes_full`). -/

namespace Sys2Proof.Machine

variable {s : State}

/-! ## Construction of the dictionary and the chunk's limit (R140, R142) -/

theorem require_error {ok : Bool} {r : Refusal} {e : Stop} :
    require ok r s = .error e ↔ ok = false ∧ e = .refuse r := by
  cases ok with
  | false =>
    show (refuse r : M Unit) s = .error e ↔ _
    rw [refuse_error]
    simpa using eq_comm
  | true => exact iff_of_false pure_error (by simp)

/-- Settles O17: the size is accepted or refused by `require_ok` and `require_error`, and `State.initDict` lists no byte
of `OUT`. -/
theorem dictInitClears : Obligations.DictInitClears := by
  refine ⟨fun s size hf hlt => ?_, fun s size hf hle => ?_⟩
  · have hfits : require (size < 2 ^ s.wPos) .sizeTooLarge s = .ok ((), s) :=
      require_ok.2 ⟨decide_eq_true hlt, rfl⟩
    exact ⟨_, commit_ok (a := ()) hf (bind_ok.2 ⟨(), s, hfits, update_ok.2 rfl⟩), Mem.read_nil, rfl⟩
  · have hlarge : require (size < 2 ^ s.wPos) .sizeTooLarge s = .error (.refuse .sizeTooLarge) :=
      require_error.2 ⟨decide_eq_false (Nat.not_lt.2 hle), rfl⟩
    exact commit_refused hf (bind_error.2 (.inl hlarge))

/-- Settles O18: outside a chunk's `rc.init` to `lz.decode` the instruction is `setLimit` (`needBeforeInit_bind`), whose
two outcomes are `setLimit_ok` and `setLimit_error`. -/
theorem dictSetLimitBoundsChunk : Obligations.DictSetLimitBoundsChunk := by
  refine ⟨fun s n hf hstage hfits => ?_, fun s n hf hstage hlarge => ?_⟩
  · have hset : setLimit n s = .ok ((), s.setLimit n) := setLimit_ok.2 ⟨hfits, rfl⟩
    exact commit_ok (ret := fun _ => .ok) hf ((needBeforeInit_bind hstage).trans hset)
  · exact ⟨_, commit_raised hf ((needBeforeInit_bind hstage).trans (setLimit_error.2 ⟨hlarge, rfl⟩)), rfl⟩

/-! ## One byte (R144) -/

/-- Settles O19: below the limit the byte is appended, and a read after that write is `Mem.read_write_same` or
`Mem.read_write_other`; at the limit `putLiteral_error`. -/
theorem dictPutLiteralAppends : Obligations.DictPutLiteralAppends := by
  refine ⟨fun s b hf hp hne => ?_, fun s b hf heq => ?_⟩
  · obtain ⟨hlimit, hbuffer⟩ := hp
    have hin : s.dict.position < s.dict.bufferSize := by omega
    have hput : putLiteral b s = .ok ((), s.append b) := putLiteral_ok.2 ⟨hne, appendByte_ok.2 ⟨hin, rfl⟩⟩
    exact ⟨(s.append b).giveBack .ok, commit_ok (ret := fun _ => .ok) hf hput, rfl, Mem.read_write_same _ _ _,
      fun a ha => Mem.read_write_other _ _ ha⟩
  · exact ⟨_, commit_raised hf (putLiteral_error.2 (.inl ⟨heq, rfl⟩)), rfl⟩

/-! ## The faults of a copy (R146, R302) -/

theorem copyMatch_eq_copyBytes {d : Nat} (hd : d ≠ 0) (n : Nat) : copyMatch d n = copyBytes d n := if_neg hd

/-- The first byte of a copy from before the buffer raises `InvalidDistance`. -/
theorem copyBytes_invalidDistance {d n : Nat} (hn : 1 ≤ n) (hlt : s.dict.position < d) :
    copyBytes d n s = .error (.raised (.invalidDistance d s.dict.position) s) := by
  obtain ⟨m, rfl⟩ := Nat.exists_eq_add_of_le' hn
  exact copyBytes_succ_error.2 (.inl (copyByte_error.2 (.inl ⟨hlt, rfl⟩)))

/-- A copy longer than the room below the limit fills that room and raises `Full` at the limit. -/
theorem copyBytes_full {d n : Nat} (hp : s.PositionsOrdered) (hw : s.OutputWritten) (hd : 1 ≤ d)
    (hle : d ≤ s.dict.position) (hl : s.dict.limit < s.dict.position + n) :
    ∃ t, copyBytes d n s = .error (.raised (.full s.dict.limit) t) := by
  induction n generalizing s with
  | zero => exact absurd hp.1 (Nat.not_le.2 hl)
  | succ n ih =>
    rcases hp.1.eq_or_lt with heq | hroom
    · have hfull : copyByte d s = .error (.raised (.full s.dict.limit) s) :=
        copyByte_error.2 (.inr (.inl ⟨hle, heq, by rw [heq]⟩))
      exact ⟨s, copyBytes_succ_error.2 (.inl hfull)⟩
    · obtain ⟨b, hb⟩ := copyByte_appends hp hw hd hle hroom
      obtain ⟨t, ht⟩ := ih (hp.append hroom b) (hw.append b) (Nat.le_succ_of_le hle) (by simp; omega)
      exact ⟨t, copyBytes_succ_error.2 (.inr ⟨_, hb, ht⟩)⟩

/-- Settles O21: the faults are `copyBytes_invalidDistance` and `copyBytes_full`; a copy of no byte is `pure ()`. -/
theorem dictCopyMatchFaults : Obligations.DictCopyMatchFaults := by
  refine ⟨fun s d n hf hn hlt => ?_, fun s d n hf hp hw hd hle hl => ?_, fun s d hf hd => ?_⟩
  · have hcopy : copyMatch d n s = .error (.raised (.invalidDistance d s.dict.position) s) := by
      rw [copyMatch_eq_copyBytes (by omega), copyBytes_invalidDistance hn hlt]
    exact ⟨_, commit_raised hf hcopy, rfl⟩
  · obtain ⟨t, ht⟩ := copyBytes_full hp hw hd hle hl
    have hcopy : copyMatch d n s = .error (.raised (.full s.dict.limit) t) := by
      rw [copyMatch_eq_copyBytes (by omega), ht]
    exact ⟨_, commit_raised hf hcopy, rfl⟩
  · exact commit_ok (ret := fun _ => .ok) hf (copyMatch_ok.2 ⟨by omega, pure_run () s⟩)

/-! ## The queries (R148, R150) -/

/-- Settles O22: both addresses by `byteAt_ok`; a distance within the output lies below the buffer's end. -/
theorem dictByteAtLooksBack : Obligations.DictByteAtLooksBack := by
  refine ⟨fun s d b hf hp hd hle hb => ?_, fun s d hf hlt => ?_⟩
  · obtain ⟨hlimit, hbuffer⟩ := hp
    have hread : readOut (s.dict.position - d) s = .ok (b, s) := readOut_ok.2 ⟨by omega, hb, rfl⟩
    exact commit_ok (ret := .byte) hf (byteAt_ok.2 ⟨by omega, rfl, .inr ⟨hle, hread⟩⟩)
  · exact commit_ok (ret := .byte) hf (byteAt_ok.2 ⟨by omega, rfl, .inl ⟨hlt, rfl⟩⟩)

/-- Settles O23: the query reads `State.dictComplete` and leaves the state as it is (`look_ok`). -/
theorem dictIsCompleteReports : Obligations.DictIsCompleteReports := by
  intro s hf _
  have hlook : look State.dictComplete s = .ok (s.dictComplete, s) := look_ok.2 ⟨rfl, rfl⟩
  exact commit_ok (ret := fun r => .query r.1 r.2) hf hlook

end Sys2Proof.Machine

/-! # The range coder (spec/42_range_coder.md R160 to R175)

The laws of `Laws/Coder.lean` and `Laws/Decoders.lean` say what one decision, one direct bit and a whole decoder can do.
Three things are added here: the five reads of `rc.init` in a row, with and without the bytes; one decision's writes,
branch by branch; and the cells of R172's loop, which keeps them in a 16-bit `offset` (`matchOffset`). An instruction that
reads a string of decisions is then `commit_reads`, whatever its cells. -/

namespace Sys2Proof.Machine

variable {α : Type} {s t u : State}

/-! ## `rc.init` (R160, R302) -/

/-- A sequence that begins with the byte that is there goes on after it. -/
theorem readByte_bind_of_read {k : Byte → M α} {b : Byte} (hlt : s.inp.offset < s.inp.size)
    (hb : s.inp.bytes.read s.inp.offset = some b) : (readByte >>= k) s = k b (s.advance 1) := by
  rw [bind_run, readByte_ok.2 ⟨hlt, hb, rfl⟩]

/-- Four bytes put together big-endian, as R160 writes them. -/
theorem bigEndian_eq_append (b1 b2 b3 b4 : Byte) :
    (b1.setWidth 32 <<< 24) ||| (b2.setWidth 32 <<< 16) ||| (b3.setWidth 32 <<< 8) ||| b4.setWidth 32 =
      b1 ++ b2 ++ b3 ++ b4 := by
  have hshift (b : Byte) {k : Nat} (hk : k ≤ 24) : (b.setWidth 32 <<< k).toNat = b.toNat <<< k := by
    have hfits : b.toNat <<< k < 2 ^ 32 :=
      (Nat.shiftLeft_lt b.isLt).trans_le (Nat.pow_le_pow_right (by decide) (by omega))
    rw [BitVec.toNat_shiftLeft, BitVec.toNat_setWidth_of_le (by decide), Nat.mod_eq_of_lt hfits]
  apply BitVec.eq_of_toNat_eq
  calc
    _ = b1.toNat <<< 24 ||| b2.toNat <<< 16 ||| b3.toNat <<< 8 ||| b4.toNat := by
      simp only [BitVec.toNat_or, hshift, BitVec.toNat_setWidth_of_le, Nat.reduceLeDiff, Nat.le_refl]
    _ = ((b1.toNat <<< 8 ||| b2.toNat) <<< 8 ||| b3.toNat) <<< 8 ||| b4.toNat := by
      simp only [Nat.shiftLeft_or_distrib, ← Nat.shiftLeft_add]
    _ = (b1 ++ b2 ++ b3 ++ b4).toNat := by simp only [BitVec.toNat_append]

/-- The header's five bytes are there: the first is tested, the others are the code. -/
theorem readPayloadHeader_of_bytes {b0 b1 b2 b3 b4 : Byte} (hsize : s.inp.offset + 5 ≤ s.inp.size)
    (h0 : s.inp.bytes.read s.inp.offset = some b0) (h1 : s.inp.bytes.read (s.inp.offset + 1) = some b1)
    (h2 : s.inp.bytes.read (s.inp.offset + 2) = some b2) (h3 : s.inp.bytes.read (s.inp.offset + 3) = some b3)
    (h4 : s.inp.bytes.read (s.inp.offset + 4) = some b4) :
    readPayloadHeader s =
      (if b0 = 0 then pure (b1 ++ b2 ++ b3 ++ b4) else raise (.nonZeroHeader b0) : M Word) (s.advance 5) := by
  have hbyte {k : Nat} {b : Byte} {f : Byte → M Word} (hk : k < 5) (hb : s.inp.bytes.read (s.inp.offset + k) = some b) :
      (readByte >>= f) (s.advance k) = f b (s.advance (k + 1)) :=
    readByte_bind_of_read (s := s.advance k) (show s.inp.offset + k < s.inp.size by omega) hb
  rw [← bigEndian_eq_append]
  exact (hbyte (k := 0) (by decide) h0).trans <| (hbyte (by decide) h1).trans <| (hbyte (by decide) h2).trans <|
    (hbyte (by decide) h3).trans (hbyte (by decide) h4)

/-- An operation that stops by `EndOfInput` at the end of the input, if fewer than `n` bytes are left. -/
def EndsWithin (n : Nat) (m : M α) : Prop :=
  ∀ s : State, s.InputPresent → s.inp.size < s.inp.offset + n →
    ∃ t, m s = .error (.raised (.endOfInput s.inp.size) t)

theorem endsWithin_zero (m : M α) : EndsWithin 0 m := fun _ hpresent hlt => absurd hpresent.1 (Nat.not_le.2 hlt)

/-- A byte read before an operation is one more byte that has to be there. -/
theorem EndsWithin.readByte_bind {n : Nat} {k : Byte → M α} (hk : ∀ b, EndsWithin n (k b)) :
    EndsWithin (n + 1) (readByte >>= k) := by
  intro s hpresent hlt
  obtain ⟨hle, hread⟩ := hpresent
  rcases hle.eq_or_lt with heq | hroom
  · have hend : readByte s = .error (.raised (.endOfInput s.inp.size) s) := by
      rw [readByte_error, ← heq]
      exact .inl ⟨lt_irrefl _, rfl⟩
    exact ⟨s, bind_error.2 (.inl hend)⟩
  · obtain ⟨b, hb⟩ := Option.isSome_iff_exists.1 (hread _ hroom)
    rw [readByte_bind_of_read hroom hb]
    exact hk b (s.advance 1) ⟨hroom, hread⟩ (by simp; omega)

theorem endsWithin_readPayloadHeader : EndsWithin 5 readPayloadHeader :=
  .readByte_bind fun _ => .readByte_bind fun _ => .readByte_bind fun _ => .readByte_bind fun _ =>
    .readByte_bind fun _ => endsWithin_zero _

/-- With a payload of at least five bytes `rc.init` reads the header and loads the coder. -/
theorem rcInit_of_le {n : Nat} (h : 5 ≤ n) :
    rcInit n = readPayloadHeader >>= fun code => update fun s => s.loadCoder code n := if_neg (Nat.not_lt.2 h)

/-- `rc.init` issued after the chunk's `dict.set_limit` is `rcInit`. -/
theorem exec_rcInit (hlimit : s.limitSet = true) (c : Count) :
    exec (.rcInit c) s = commit (fun _ => .ok) (rcInit c.toNat) s := by
  show commit _ (do needLimit; rcInit c.toNat) s = _
  unfold commit
  rw [needLimit_bind hlimit]

/-- Settles O24: the header is read (`readPayloadHeader_of_bytes`), then the coder loaded. -/
theorem rcInitLoadsCoder : Obligations.RcInitLoadsCoder := by
  intro s c b1 b2 b3 b4 hf hlimit hc hsize h0 h1 h2 h3 h4
  have hheader : readPayloadHeader s = .ok (b1 ++ b2 ++ b3 ++ b4, s.advance 5) :=
    readPayloadHeader_of_bytes hsize h0 h1 h2 h3 h4
  have hinit : rcInit c.toNat s = .ok ((), (s.advance 5).loadCoder (b1 ++ b2 ++ b3 ++ b4) c.toNat) :=
    rcInit_ok.2 ⟨hc, _, _, hheader, rfl⟩
  have hbudget : BitVec.ofNat 17 c.toNat = c := BitVec.ofNat_toNat 17 c ▸ BitVec.setWidth_eq c
  have hremaining : BitVec.ofNat 17 (c.toNat - 5) = c - 5 := by
    rw [← BitVec.ofNat_sub_ofNat_of_le _ _ (by decide) hc, hbudget]
    rfl
  rw [exec_rcInit hlimit, commit_ok hf hinit, State.loadCoder, Config.rcInitBytes, hbudget, hremaining]
  rfl

/-- Settles O25: a size below 5 raises at once; the end of the input is `endsWithin_readPayloadHeader`; and with all five
bytes there the first is tested (`readPayloadHeader_of_bytes`). -/
theorem rcInitFaultsInOrder : Obligations.RcInitFaultsInOrder := by
  refine ⟨fun s c hf hlimit hc => ?_, fun s c hf hlimit hc hpresent hlt => ?_,
    fun s c b hf hlimit hc hpresent hsize hb hne => ?_⟩ <;> rw [exec_rcInit hlimit]
  · have hinit : rcInit c.toNat s = .error (.raised (.budgetExhausted c.toNat) s) := by
      rw [rcInit, if_pos (show c.toNat < Config.rcInitBytes from hc)]
      rfl
    exact ⟨_, commit_raised hf hinit, rfl⟩
  · obtain ⟨t, hheader⟩ := endsWithin_readPayloadHeader s hpresent hlt
    rw [rcInit_of_le hc]
    exact ⟨_, commit_raised hf (bind_error.2 (.inl hheader)), rfl⟩
  · have hbyte (k : Nat) (hk : k < 5) : ∃ b, s.inp.bytes.read (s.inp.offset + k) = some b :=
      Option.isSome_iff_exists.1 (hpresent.2 _ (by omega))
    obtain ⟨b1, h1⟩ := hbyte 1 (by decide)
    obtain ⟨b2, h2⟩ := hbyte 2 (by decide)
    obtain ⟨b3, h3⟩ := hbyte 3 (by decide)
    obtain ⟨b4, h4⟩ := hbyte 4 (by decide)
    have hheader : readPayloadHeader s = .error (.raised (.nonZeroHeader b) (s.advance 5)) := by
      rw [readPayloadHeader_of_bytes hsize hb h1 h2 h3 h4, if_neg hne]
      rfl
    rw [rcInit_of_le hc]
    exact ⟨_, commit_raised hf (bind_error.2 (.inl hheader)), rfl⟩

/-! ## Normalisation (R162) -/

theorem lt_rcTop_iff {w : Word} : w < Config.rcTop ↔ w.toNat < 2 ^ 24 := BitVec.lt_def

/-- A ready state's `rc.normalize` is `normalize`. -/
theorem exec_rcNormalize (hs : s.stage ≠ .uninit) : exec .rcNormalize s = commit (fun _ => .ok) normalize s :=
  commit_needRc hs

/-- Settles O26: the outcomes of `normalize_ok` and `normalize_error`, and the bound of `normalize_range`. -/
theorem rcNormalizeShiftsOneByte : Obligations.RcNormalizeShiftsOneByte := by
  refine ⟨fun s ⟨hf, hs⟩ hrange => ?_, fun s b ⟨hf, hs⟩ hrange hrem hlt hb => ?_,
    fun s t ⟨hf, hs⟩ hrange hnext hnone => ?_, fun s ⟨hf, hs⟩ hrange hrem => ?_,
    fun s ⟨hf, hs⟩ hrange hrem hle => ?_⟩
  · have hrun : normalize s = .ok ((), s) := normalize_ok.2 (.inl ⟨by rw [lt_rcTop_iff]; omega, rfl⟩)
    exact (exec_rcNormalize hs).trans (commit_ok hf hrun)
  · have hrun : normalize s = .ok ((), (s.advance 1).shiftIn b) :=
      normalize_ok.2 (.inr ⟨lt_rcTop_iff.2 hrange, hrem, b, readByte_ok.2 ⟨hlt, hb, rfl⟩, rfl⟩)
    exact (exec_rcNormalize hs).trans (commit_ok hf hrun)
  · rw [exec_rcNormalize hs] at hnext
    obtain ⟨-, ⟨⟨⟩, u, hrun, rfl⟩ | ⟨f, u, -, rfl⟩⟩ := commit_next.1 hnext
    · exact normalize_range (t := u) hrun hrange
    · cases hnone
  · have herror := normalize_error.2 ⟨lt_rcTop_iff.2 hrange, .inl ⟨hrem, rfl⟩⟩
    exact ⟨_, (exec_rcNormalize hs).trans (commit_raised hf herror), rfl⟩
  · have hend := readByte_error.2 (.inl ⟨Nat.not_lt.2 hle, rfl⟩)
    have herror := normalize_error.2 ⟨lt_rcTop_iff.2 hrange, .inr ⟨hrem, hend⟩⟩
    exact ⟨_, (exec_rcNormalize hs).trans (commit_raised hf herror), rfl⟩

/-- Normalisation keeps `code < range`: both move up 8 bits (R165 (f)). -/
theorem normalize_code_lt {a : Unit} (h : normalize s = .ok (a, t)) (hlt : s.rc.code < s.rc.range) :
    t.rc.code < t.rc.range := by
  rcases normalize_ok.1 h with ⟨-, rfl⟩ | ⟨hrange, -, b, -, rfl⟩
  · exact hlt
  · rw [lt_rcTop_iff] at hrange
    rw [BitVec.lt_def] at hlt ⊢
    have hb : b.toNat < 2 ^ 8 := b.isLt
    have hshift {w : Word} (hw : w.toNat < 2 ^ 24) : (w <<< 8).toNat = w.toNat * 2 ^ 8 := by
      rw [BitVec.toNat_shiftLeft, Nat.shiftLeft_eq, Nat.mod_eq_of_lt (by omega)]
    have hcode : (s.rc.code <<< 8 ||| b.setWidth 32).toNat = s.rc.code.toNat * 2 ^ 8 + b.toNat := by
      rw [BitVec.toNat_or, hshift (by omega), BitVec.toNat_setWidth_of_le (by decide), mul_comm,
        Nat.two_pow_add_eq_or_of_lt hb]
    simp only [State.shiftIn_rc, State.advance_rc, hshift hrange, hcode]
    omega

/-! ## One decision (R163, R165) -/

theorem decision_eq_false_iff {c : Cell} :
    s.decision c = false ↔ s.rc.code.toNat < (bound s.rc.range (s.cell c)).toNat := by
  simp [State.decision, BitVec.lt_def]

/-- A decision writes `rc` and its cell only (R163). -/
theorem decided_eq (c : Cell) : s.decided c = { s with rc := (s.decided c).rc, probs := (s.decided c).probs } := by
  unfold State.decided
  dsimp only
  split <;> rfl

/-- A decision of 0 keeps `code` and makes the bound the range. -/
theorem decided_rc_of_false {c : Cell} (h : s.decision c = false) :
    (s.decided c).rc = { s.rc with range := bound s.rc.range (s.cell c) } := by
  simp [State.decided, h]

/-- A decision of 1 takes the bound off `range` and `code`. -/
theorem decided_rc_of_true {c : Cell} (h : s.decision c = true) :
    (s.decided c).rc = { s.rc with
      range := s.rc.range - bound s.rc.range (s.cell c)
      code := s.rc.code - bound s.rc.range (s.cell c) } := by
  simp [State.decided, h]

/-- A 0 moves a cell up toward 2048 by 1/32 (R163). -/
theorem adapt_false_toNat {p : Prob} (hp : p.toNat ≤ 2047) :
    (adapt p false).toNat = p.toNat + (2048 - p.toNat) / 32 := by
  have hsub : (2048 - p).toNat = 2048 - p.toNat := BitVec.toNat_sub_of_le (BitVec.le_def.2 (by simp; omega))
  simp only [adapt, Config.moveBits, Bool.false_eq_true, if_false, BitVec.toNat_add, BitVec.toNat_ushiftRight,
    Nat.shiftRight_eq_div_pow, hsub]
  exact Nat.mod_eq_of_lt (by omega)

/-- A 1 moves a cell down toward 0 by 1/32 (R163). -/
theorem adapt_true_toNat (p : Prob) : (adapt p true).toNat = p.toNat - p.toNat / 32 := by
  have hshift : (p >>> 5).toNat = p.toNat / 32 := by rw [BitVec.toNat_ushiftRight, Nat.shiftRight_eq_div_pow]
  rw [← hshift]
  exact BitVec.toNat_sub_of_le (BitVec.le_def.2 (by simp only [Config.moveBits]; omega))

/-- A ready state's `rc.decode_bit` is `decodeBit`. -/
theorem exec_rcDecodeBit (hs : s.stage ≠ .uninit) (c : Cell) :
    exec (.rcDecodeBit c) s = commit .decision (decodeBit c) s := commit_needRc hs

/-- Settles O27: `decodeBit` is normalisation and then `State.decided`, whose writes are those of R163 as numbers. -/
theorem rcDecodeBitDecides : Obligations.RcDecodeBitDecides := by
  refine ⟨fun s u c f ⟨hf, hs⟩ herror => ?_, fun s u c ⟨hf, hs⟩ hnormal hp => ?_⟩
  · exact ⟨_, (exec_rcDecodeBit hs c).trans (commit_raised hf (decodeBit_error.2 herror)), rfl⟩
  · have hbit : decodeBit c s = .ok (u.decision c, u.decided c) := decodeBit_ok.2 ⟨u, hnormal, rfl, rfl⟩
    rw [← bound_toNat hp, BitVec.ofNat_toNat, BitVec.setWidth_eq]
    refine ⟨_, u.decision c, (exec_rcDecodeBit hs c).trans (commit_ok hf hbit), rfl, decision_eq_false_iff,
      fun h => ⟨decided_rc_of_false h, ?_⟩, fun h => ⟨decided_rc_of_true h, ?_⟩, fun d hd => decided_cell hd, ?_⟩
    · exact (congrArg _ (decided_cell_same c)).trans (h ▸ adapt_false_toNat hp)
    · exact (congrArg _ (decided_cell_same c)).trans (h ▸ adapt_true_toNat _)
    · exact congrArg (·.giveBack (.decision (u.decision c))) (decided_eq c)

/-- A decision on a normalised range coder leaves `range` at or above `2^16` (R165 (e)). -/
theorem decided_range {c : Cell} (hrange : 2 ^ 24 ≤ s.rc.range.toNat) (hcells : s.CellsInRange) :
    2 ^ 16 ≤ (s.decided c).rc.range.toNat := by
  obtain ⟨hlow, hhigh⟩ := bound_range hrange (hcells c).1 (hcells c).2
  cases h : s.decision c
  · rw [decided_rc_of_false h]
    exact hlow
  · rw [decided_rc_of_true h, BitVec.toNat_sub_of_le (BitVec.le_def.2 (by omega))]
    omega

/-- A decision keeps every cell in 31..2017 (R165 (d)). -/
theorem decided_cellsInRange {c : Cell} (hcells : s.CellsInRange) : (s.decided c).CellsInRange := by
  intro d
  by_cases hd : d = c
  · rw [hd, decided_cell_same]
    exact adapt_range (hcells c).1 (hcells c).2 _
  · rw [decided_cell hd]
    exact hcells d

/-- A decision keeps `code < range` (R165 (f)): on a 0 `code` is below the bound, on a 1 the bound comes off both. -/
theorem decided_code_lt {c : Cell} (hrange : 2 ^ 24 ≤ s.rc.range.toNat) (hcells : s.CellsInRange)
    (hlt : s.rc.code < s.rc.range) : (s.decided c).rc.code < (s.decided c).rc.range := by
  obtain ⟨-, hhigh⟩ := bound_range hrange (hcells c).1 (hcells c).2
  rw [BitVec.lt_def] at hlt ⊢
  cases h : s.decision c
  · rw [decided_rc_of_false h]
    exact decision_eq_false_iff.1 h
  · have hge : (bound s.rc.range (s.cell c)).toNat ≤ s.rc.code.toNat := by
      rw [← Nat.not_lt, ← decision_eq_false_iff, h]
      decide
    rw [decided_rc_of_true h, BitVec.toNat_sub_of_le (BitVec.le_def.2 hge),
      BitVec.toNat_sub_of_le (BitVec.le_def.2 (by omega))]
    omega

/-- Settles O28: normalisation brings `range` to `2^24`, from where a decision keeps the three bounds. -/
theorem decisionKeepsArithmeticBounds : Obligations.DecisionKeepsArithmeticBounds := by
  intro s t c hf hrange hcells hnext hnone
  obtain ⟨-, ⟨b, v, hrun, rfl⟩ | ⟨f, v, -, rfl⟩⟩ := commit_next.1 hnext
  · obtain ⟨⟨⟩, w, hrc, hbit⟩ := bind_ok.1 hrun
    obtain ⟨-, rfl⟩ := needRc_ok.1 hrc
    obtain ⟨u, hnormal, -, rfl⟩ := decodeBit_ok.1 hbit
    have hrange' := normalize_range hnormal hrange
    have hcells' : u.CellsInRange := fun d => normalize_cell hnormal d ▸ hcells d
    exact ⟨decided_range hrange' hcells', decided_cellsInRange hcells',
      fun hlt => decided_code_lt hrange' hcells' (normalize_code_lt hnormal hlt)⟩
  · cases hnone

/-! ## Strings of decisions (R167, R170 to R172) -/

/-- An instruction whose decoder ends exactly where a string of `n` decisions follow one another gives back their value,
and completes where `n` payload bytes are there. -/
theorem commit_reads {ret : α → Result} {d : Dec α} {n : Nat} {path : List Bool → List (Option Cell × Bool)}
    {value : List Bool → α} (hready : s.Ready) (hwithin : Within d n)
    (hrun : ∀ {v t}, d.run s = .ok (v, t) ↔ ∃ bs, bs.length = n ∧ Follows s (path bs) t ∧ v = value bs) :
    (∀ (bs : List Bool) (u : State), bs.length = n → Follows s (path bs) u →
      commit ret (do needRc; d.run) s = .next { u with result := ret (value bs) } ∧ CoderOnly s u) ∧
    (s.CanFetch n → ∃ (bs : List Bool) (u : State), bs.length = n ∧ Follows s (path bs) u ∧
      commit ret (do needRc; d.run) s = .next { u with result := ret (value bs) }) := by
  have hgive (bs : List Bool) (u : State) (hl : bs.length = n) (hfollows : Follows s (path bs) u) :
      commit ret (do needRc; d.run) s = .next { u with result := ret (value bs) } :=
    (commit_needRc hready.2).trans (commit_ok hready.1 (hrun.2 ⟨bs, hl, hfollows, rfl⟩))
  refine ⟨fun bs u hl hfollows => ⟨hgive bs u hl hfollows, hfollows.frame⟩, fun hfetch => ?_⟩
  obtain ⟨v, u, h⟩ := run_completes hwithin hfetch
  obtain ⟨bs, hl, hfollows, -⟩ := hrun.1 h
  exact ⟨bs, u, hl, hfollows, hgive bs u hl hfollows⟩

/-- Normalisation leaves the table of cells as it is (R62). -/
theorem normalize_probs {a : Unit} (h : normalize s = .ok (a, t)) : t.probs = s.probs := by
  rcases normalize_ok.1 h with ⟨-, rfl⟩ | ⟨-, -, b, -, rfl⟩ <;> rfl

/-- Direct bits leave the table of cells as it is (R167). -/
theorem Follows.direct_probs {bs : List Bool} (h : Follows s (bs.map fun b => (none, b)) t) : t.probs = s.probs := by
  induction bs generalizing s with
  | nil => rw [show s = t from h]
  | cons b bs ih =>
    obtain ⟨v, hbit, hrest⟩ := h
    obtain ⟨u, hnormal, -, rfl⟩ := decodeDirectBit_ok.1 hbit
    rw [ih hrest, State.directed_probs, normalize_probs hnormal]

/-- Direct bits change only the range coder and `in.offset` (R167). -/
theorem Follows.direct_frame {bs : List Bool} (h : Follows s (bs.map fun b => (none, b)) t) :
    t = { s with rc := t.rc, inp := { s.inp with offset := t.inp.offset } } := by
  have hframe := h.frame
  rw [CoderOnly, h.direct_probs] at hframe
  exact hframe

/-- A direct bit is 0 exactly when `code` is below the halved range (R167). -/
theorem directBit_eq_false_iff : s.directBit = false ↔ s.rc.code.toNat < s.rc.range.toNat / 2 := by
  simp [State.directBit, BitVec.lt_def, Nat.shiftRight_eq_div_pow]

/-- Settles O29: `directBits_ok` names the bits and `Follows.direct_frame` what they leave; one bit is the string of the
bit that `State.directed` writes. -/
theorem rcDecodeDirectReadsBits : Obligations.RcDecodeDirectReadsBits := by
  have hreads (s : State) (n : Nat) (hready : s.Ready) := commit_reads (ret := .value) hready (within_directWalk n 0)
    directBits_ok
  refine ⟨fun s n hready => ⟨fun bs u hl hfollows => ?_, (hreads s n hready).2⟩, fun s u hready hnormal => ?_⟩
  · exact ⟨((hreads s n hready).1 bs u hl hfollows).1, hfollows.direct_frame⟩
  · have hfollows : Follows s [(none, u.directBit)] u.directed :=
      ⟨u.directed, decodeDirectBit_ok.2 ⟨u, hnormal, rfl, rfl⟩, rfl⟩
    refine ((hreads s 1 hready).1 [u.directBit] u.directed rfl hfollows).1.trans ?_
    cases h : u.directBit
    · rw [if_pos (directBit_eq_false_iff.1 h)]
      simp only [State.directed, h]
      rfl
    · rw [if_neg (by rw [← directBit_eq_false_iff, h]; decide)]
      simp only [State.directed, h]
      rfl

/-- Settles O30: `tree_ok` names the decisions. -/
theorem rcDecodeTreeWalksMsbFirst : Obligations.RcDecodeTreeWalksMsbFirst :=
  fun _ p n hready => commit_reads (ret := .value) hready (within_tree p n) tree_ok

/-- Settles O31: `reverseTree_ok` names the decisions. -/
theorem rcDecodeReverseTreeWalksLsbFirst : Obligations.RcDecodeReverseTreeWalksLsbFirst :=
  fun _ p n hready => commit_reads (ret := .value) hready (within_reverseWalk p n 0 1 0) reverseTree_ok

/-! ## The matched literal (R172) -/

/-- `offset` of R172's loop: `0x100` while every decision so far has equalled the match byte's bit, 0 afterwards. -/
def matchOffset (same : Bool) : BitVec 16 := if same then 0x100 else 0

/-- The match byte moved up by `j` bits has bit `7 - j` of the byte where `offset` looks one bit on. -/
theorem shifted_and_matchOffset {j : Nat} (hj : j < 8) (mb : Byte) (same : Bool) :
    (mb.setWidth 16 <<< (j + 1)) &&& matchOffset same = matchOffset (same && mb.getLsbD (7 - j)) := by
  cases same
  · exact BitVec.and_zero
  · have hbit : (mb.setWidth 16 <<< (j + 1)).getLsbD 8 = mb.getLsbD (7 - j) := by
      have hindex : 8 - (j + 1) = 7 - j := by omega
      simp [hindex]
      omega
    show _ &&& BitVec.twoPow 16 8 = _
    rw [BitVec.and_twoPow, hbit]
    rfl

/-- `offset` after a decision: still set exactly if the decision equals the match byte's bit `m`. -/
theorem matchOffset_next (same m b : Bool) :
    (if b then matchOffset same &&& matchOffset (same && m) else matchOffset same &&& ~~~matchOffset (same && m)) =
      matchOffset (same && b == m) := by
  revert same m b
  decide

/-- The index of R172's cell as a number: `matchedPath`'s. -/
theorem matched_index {symbol : BitVec 16} (hsymbol : symbol.toNat < 2 ^ 15) (same m : Bool) :
    (matchOffset same + matchOffset (same && m) + symbol).toNat =
      if same then (if m then 0x200 else 0x100) + symbol.toNat else symbol.toNat := by
  cases same <;> cases m <;> simp [matchOffset] <;> omega

/-- A matched walk with `n` of the eight decisions to go follows the cells of R172 and shifts its decisions into the
symbol. -/
theorem matchedWalk_ok {c : Fin 8} {mb v : Byte} {n j : Nat} {symbol : BitVec 16} {same : Bool} (hj : n + j = 8)
    (hsymbol : (symbol.toNat + 1) * 2 ^ n ≤ 2 ^ 9) :
    (Dec.matchedWalk c n symbol (matchOffset same) (mb.setWidth 16 <<< j)).run s = .ok (v, t) ↔
      ∃ bs, bs.length = n ∧ Follows s (matchedPath c mb j symbol.toNat same bs) t ∧
        v = BitVec.ofNat 8 (bs.foldl (fun v b => 2 * v + b.toNat) symbol.toNat) := by
  induction n generalizing s j symbol same with
  | zero =>
    show (pure (symbol.setWidth 8) : M Byte) s = _ ↔ _
    rw [pure_ok]
    constructor
    · rintro ⟨rfl, rfl⟩
      exact ⟨[], rfl, rfl, by simp⟩
    · rintro ⟨bs, hl, hf, rfl⟩
      obtain rfl := List.length_eq_zero_iff.1 hl
      exact ⟨by simp, hf⟩
  | succ n ih =>
    have hpos := Nat.two_pow_pos n
    rw [pow_succ] at hsymbol
    have hsmall : symbol.toNat < 2 ^ 15 := by nlinarith
    have hnext (b : Bool) := symbol_toNat hsmall b
    have hrest (b : Bool) : ((symbol <<< 1 ||| if b then 1 else 0).toNat + 1) * 2 ^ n ≤ 2 ^ 9 := by
      have hb := Bool.toNat_le b
      rw [hnext]
      nlinarith
    simp only [Dec.matchedWalk, ← BitVec.shiftLeft_add, shifted_and_matchOffset (j := j) (by omega), matchOffset_next,
      matched_index hsmall, run_decide_ok, ih (j := j + 1) (by omega) (hrest _), hnext]
    constructor
    · rintro ⟨b, u, h, bs, hl, hf, rfl⟩
      exact ⟨b :: bs, by simp [hl], ⟨u, h, hf⟩, rfl⟩
    · rintro ⟨bs, hl, hf, rfl⟩
      cases bs with
      | nil => simp at hl
      | cons b bs =>
        obtain ⟨u, h, hf⟩ := hf
        exact ⟨b, u, h, bs, by simpa using hl, hf, rfl⟩

/-- `rc.decode_matched_literal` (R172). -/
theorem matchedLiteral_ok {c : Fin 8} {mb v : Byte} :
    (Dec.matchedLiteral c mb).run s = .ok (v, t) ↔
      ∃ bs, bs.length = 8 ∧ Follows s (matchedPath c mb 0 1 true bs) t ∧ v = BitVec.ofNat 8 (msbValue bs) := by
  have hvalue {bs : List Bool} (hl : bs.length = 8) :
      BitVec.ofNat 8 (bs.foldl (fun v b => 2 * v + b.toNat) 1) = BitVec.ofNat 8 (msbValue bs) := by
    rw [foldl_msb, hl, BitVec.ofNat_add]
    simp
  have hwalk := matchedWalk_ok (s := s) (t := t) (c := c) (mb := mb) (v := v) (n := 8) (j := 0) (symbol := 1)
    (same := true) rfl (by decide)
  rw [BitVec.shiftLeft_zero] at hwalk
  refine hwalk.trans (exists_congr fun bs => and_congr_right fun hl => ?_)
  rw [← hvalue hl]
  rfl

/-- Settles O32: `matchedLiteral_ok` names the decisions. -/
theorem rcDecodeMatchedLiteralFollowsMatchByte : Obligations.RcDecodeMatchedLiteralFollowsMatchByte :=
  fun _ c _ hready => commit_reads (ret := .byte) hready (within_matchedWalk c 8 _ _ _) matchedLiteral_ok

/-! ## The query (R175) -/

/-- Settles O33: the query reads `State.rcComplete`, whose difference does not wrap, and leaves the state as it is. -/
theorem rcIsCompleteReports : Obligations.RcIsCompleteReports := by
  intro s hready hle
  obtain ⟨hf, hs⟩ := hready
  have hlook : look State.rcComplete s = .ok (s.rcComplete, s) := look_ok.2 ⟨rfl, rfl⟩
  rw [← BitVec.toNat_sub_of_le hle]
  exact (commit_needRc hs).trans (commit_ok (ret := fun r => .query r.1 r.2) hf hlook)

end Sys2Proof.Machine

/-! # Length and distance codes as instructions (spec/43_lzma_engine.md R204, R205)

The three classes of a length code are one decoder with a base, a table and a width (`lenBodyTree_ok`); `lz.decode_length`
and `lz.decode_distance` are a selector or a slot and then the instruction of its class (`commit_run_bind`). -/

namespace Sys2Proof

/-- The table of a class's tree (R204). -/
def LenClass.table (l : LenCoder) (ps : BitVec 2) : LenClass → Probs
  | .low => .lenLow l (posColumn ps)
  | .mid => .lenMid l (posColumn ps)
  | .high => .lenHigh l

/-- The decisions of a class's selector, each on its cell (R99, R204). -/
def LenClass.path (l : LenCoder) : LenClass → List (Option Cell × Bool)
  | .low => [(some (.lenChoice l), false)]
  | .mid => [(some (.lenChoice l), true), (some (.lenChoice2 l), false)]
  | .high => [(some (.lenChoice l), true), (some (.lenChoice2 l), true)]

end Sys2Proof

namespace Sys2Proof.Machine

variable {α β : Type} {s t u : State}

/-- A decoder whose first part ends in a value is, from the state that leaves, its second part. -/
theorem commit_run_bind {ret : β → Result} {d : Dec α} {f : α → Dec β} {a : α} (hready : s.Ready)
    (h : d.run s = .ok (a, u)) :
    commit ret (do needRc; (d.bind f).run) s = commit ret (do needRc; (f a).run) u := by
  have hu := hready.of_coderOnly (run_frame h)
  rw [commit_needRc hready.2, commit_needRc hu.2]
  simp only [commit, hready.1, hu.1, run_bind, bind_run, h]

/-! ## Lengths (R204) -/

theorem lenBodyTree_eq (l : LenCoder) (ps : BitVec 2) (k : LenClass) :
    lenBodyTree l ps k = (Dec.tree (k.table l ps) k.width).map fun v => k.base + v := by cases k <;> rfl

theorem exec_lenClass (l : LenCoder) (ps : BitVec 2) (k : LenClass) :
    exec (k.instr l ps) s = commit .value (do needRc; (lenBodyTree l ps k).run) s := by cases k <;> rfl

theorem within_lenBodyTree (l : LenCoder) (ps : BitVec 2) (k : LenClass) : Within (lenBodyTree l ps k) k.width := by
  rw [lenBodyTree_eq]
  exact (within_tree _ _).map

/-- A length code after its selector: the base of the class and the number its tree's decisions spell. -/
theorem lenBodyTree_ok {l : LenCoder} {ps : BitVec 2} {k : LenClass} {v : Nat} :
    (lenBodyTree l ps k).run s = .ok (v, t) ↔
      ∃ bs, bs.length = k.width ∧ Follows s (treePath (k.table l ps) 1 bs) t ∧ v = k.base + msbValue bs := by
  rw [lenBodyTree_eq, run_map_ok]
  simp only [tree_ok]
  constructor
  · rintro ⟨_, ⟨bs, hl, hf, rfl⟩, rfl⟩
    exact ⟨bs, hl, hf, rfl⟩
  · rintro ⟨bs, hl, hf, rfl⟩
    exact ⟨_, ⟨bs, hl, hf, rfl⟩, rfl⟩

/-- The instruction of a class reads its tree and adds its base. -/
theorem exec_lenClass_reads (hready : s.Ready) (l : LenCoder) (ps : BitVec 2) (k : LenClass) :
    (∀ (bs : List Bool) (u : State), bs.length = k.width → Follows s (treePath (k.table l ps) 1 bs) u →
      exec (k.instr l ps) s = .next { u with result := .value (k.base + msbValue bs) } ∧ CoderOnly s u) ∧
    (s.CanFetch k.width → ∃ t v, exec (k.instr l ps) s = .next t ∧ t.result = .value v ∧
      k.base ≤ v ∧ v < k.base + 2 ^ k.width) := by
  have hreads := commit_reads (ret := .value) hready (within_lenBodyTree l ps k) lenBodyTree_ok
  rw [← exec_lenClass] at hreads
  refine ⟨hreads.1, fun hfetch => ?_⟩
  obtain ⟨bs, u, hl, -, hexec⟩ := hreads.2 hfetch
  exact ⟨_, _, hexec, rfl, Nat.le_add_right .., Nat.add_lt_add_left (hl ▸ msbValue_lt bs) _⟩

theorem lenClassTree_path {l : LenCoder} {k : LenClass} {qs : List (Option Cell × Bool)} :
    Path (lenClassTree l) qs k ↔ qs = k.path l := by
  cases k <;> simp [lenClassTree, decide_path, ret_path, Bool.exists_bool, LenClass.path]

/-- `lz.decode_length` is the instruction of the class its selector names. -/
theorem exec_lzDecodeLength (hready : s.Ready) {l : LenCoder} {k : LenClass} (h : Follows s (k.path l) u)
    (ps : BitVec 2) : exec (.lzDecodeLength l ps) s = exec (k.instr l ps) u := by
  rw [exec_lenClass]
  exact commit_run_bind hready (run_ok_iff_path.2 ⟨_, lenClassTree_path.2 rfl, h⟩)

/-- Settles O36: each class by `exec_lenClass_reads`, the selector by `exec_lzDecodeLength`, the bounds of the whole code by
`yields_length`. -/
theorem lengthCodesAddTheirBase : Obligations.LengthCodesAddTheirBase := by
  intro s l ps hready
  have hclass := exec_lenClass_reads hready l ps
  have hselect (k : LenClass) (u : State) (h : Follows s (k.path l) u) :
      exec (.lzDecodeLength l ps) s = exec (k.instr l ps) u := exec_lzDecodeLength hready h ps
  have hcompletes (k : LenClass) (last : Nat) (hlast : k.base + 2 ^ k.width = last + 1)
      (hfetch : s.CanFetch k.width) :
      ∃ t v, exec (k.instr l ps) s = .next t ∧ t.result = .value v ∧ k.base ≤ v ∧ v ≤ last := by
    obtain ⟨t, v, hexec, hv, hlow, hhigh⟩ := (hclass k).2 hfetch
    exact ⟨t, v, hexec, hv, hlow, Nat.lt_succ_iff.1 (hhigh.trans_eq hlast)⟩
  refine ⟨(hclass .low).1, (hclass .mid).1, (hclass .high).1, hselect .low, hselect .mid, hselect .high,
    hcompletes .low 9 rfl, hcompletes .mid 17 rfl, hcompletes .high 273 rfl, fun hfetch => ?_⟩
  obtain ⟨v, u, hrun⟩ := run_completes (within_lengthTree l ps) hfetch
  obtain ⟨hlow, hhigh⟩ := (yields_length l ps).run hrun
  exact ⟨u, v, (commit_needRc hready.2).trans (commit_ok hready.1 hrun), hlow, hhigh, run_frame hrun⟩

/-! ## Distances (R205) -/

theorem lenSlot_val {len : Nat} (h : 2 ≤ len) : (lenSlot len).val = min (len - 2) 3 := by
  rw [lenSlot, if_pos (show Config.lenMin ≤ len from h), Fin.val_ofNat]
  omega

/-- The instruction of a slot decodes what follows the slot. -/
theorem exec_slotInstr (hs : s.stage ≠ .uninit) (slot : BitVec 6) :
    exec (slotInstr slot) s =
      commit (fun dist : Word => .value dist.toNat) (do needRc; (distBodyTree slot).run) s := by
  have hlt := slot.isLt
  unfold slotInstr distBodyTree Config.distModelStart Config.distModelEnd
  split_ifs with hlow hmid
  · have hslot : (slot.setWidth 2).setWidth 6 = slot := by
      apply BitVec.eq_of_toNat_eq
      rw [BitVec.toNat_setWidth_of_le (by decide), BitVec.toNat_setWidth]
      omega
    rw [commit_needRc hs]
    exact congrArg (fun slot => commit (fun dist : Word => .value dist.toNat) (distLowTree slot).run s) hslot
  · have hslot : midSlot (Fin.ofNat 10 (slot.toNat - 4)) = slot := by
      apply BitVec.eq_of_toNat_eq
      rw [midSlot_toNat, Fin.val_ofNat]
      omega
    show commit _ (do needRc; (distMidTree (midSlot (Fin.ofNat 10 (slot.toNat - 4)))).run) s = _
    rw [hslot]
  · have hslot : highSlot (Fin.ofNat 50 (slot.toNat - 14)) = slot := by
      apply BitVec.eq_of_toNat_eq
      rw [highSlot_toNat, Fin.val_ofNat]
      omega
    show commit _ (do needRc; (distHighTree (highSlot (Fin.ofNat 50 (slot.toNat - 14)))).run) s = _
    rw [hslot]

/-- The slot is the number its six decisions spell. -/
theorem slotTree_run {len : Nat} {bs : List Bool} (hl : bs.length = 6)
    (h : Follows s (treePath (.posSlot (lenSlot len)) 1 bs) u) :
    (slotTree len).run s = .ok (BitVec.ofNat 6 (msbValue bs), u) :=
  run_map_ok.2 ⟨_, tree_ok.2 ⟨bs, hl, h, rfl⟩, rfl⟩

/-- Settles O38: the slot (`slotTree_run`), then the slot's instruction (`exec_slotInstr`); the group is `lenSlot`. -/
theorem lzDecodeDistanceSelectsSlot : Obligations.LzDecodeDistanceSelectsSlot := by
  refine fun len => ⟨lenSlot len, lenSlot_val, fun s hready => ⟨fun bs u hl hf => ?_, fun hfetch => ?_⟩⟩
  · have hu := hready.of_coderOnly hf.frame
    rw [exec_slotInstr hu.2]
    exact commit_run_bind hready (slotTree_run hl hf)
  · obtain ⟨dist, u, hrun⟩ := run_completes (within_distanceTree len) hfetch
    obtain ⟨hexec, hframe⟩ := commit_distance hready (run_map_ok.2 ⟨dist, hrun, rfl⟩)
    exact ⟨u, dist.toNat, hexec, dist.isLt, hframe⟩

end Sys2Proof.Machine

/-! # Packets (spec/43_lzma_engine.md R193 to R203, R210)

A packet's instruction is what its operands' decoding leaves (`packetBody_of_operands`, `packetBody_lit`) and then the
packet's effect: LIT appends (`applyPacket_lit`), every other packet is `copyFrom` with the registers of its rule. What
such a copy answers is said once for all of them, by `commit_copyFrom` and its two faults. -/

namespace Sys2Proof.Machine

variable {s u v : State}

/-- Settles O34: the closed form of `nextState`, evaluated on the twelve states. -/
theorem stateTransitionTable : Obligations.StateTransitionTable := by
  unfold Obligations.StateTransitionTable
  decide

/-! ## The reset of the model (R215) -/

theorem resetState_ok (hlimit : s.limitSet = false) (hstage : s.stage ≠ .ready) :
    resetState s = .ok ((), s.resetModel) :=
  bind_ok.2 ⟨(), s, needBetweenChunks_ok.2 ⟨⟨hlimit, hstage⟩, rfl⟩, update_ok.2 rfl⟩

theorem resetModel_cell (s : State) (c : Cell) : s.resetModel.cell c = 0x400 := ProbTable.get_nil _

/-- Settles O35: between chunks the instruction is `State.resetModel`, which lists no cell. -/
theorem lzResetStateRestoresModel : Obligations.LzResetStateRestoresModel := fun s hf hlimit hstage =>
  ⟨_, commit_ok (ret := fun _ => .ok) hf (resetState_ok hlimit hstage), resetModel_cell s, rfl⟩

/-! ## What a decoder leaves as it was -/

theorem CoderOnly.dict (h : CoderOnly s u) : u.dict = s.dict := by rw [h]

theorem CoderOnly.lz (h : CoderOnly s u) : u.lz = s.lz := by rw [h]

theorem CoderOnly.fault (h : CoderOnly s u) : u.fault = s.fault := by rw [h]

theorem CoderOnly.positionsOrdered (h : CoderOnly s u) (hp : s.PositionsOrdered) : u.PositionsOrdered := by
  rwa [State.PositionsOrdered, h.dict]

theorem CoderOnly.outputWritten (h : CoderOnly s u) (hw : s.OutputWritten) : u.OutputWritten := by
  rwa [State.OutputWritten, h.dict]

/-! ## Operands -/

/-- A packet samples, decodes its operands and takes effect. -/
theorem packetBody_of_sample {k : PacketKind} {x : PacketCtx} {p : Packet} (hx : sampleContext k s = .ok (x, s))
    (h : (operandTree x k).run s = .ok (p, u)) : packetBody k s = applyPacket p u := by
  rw [packetBody, bind_run, hx]
  show ((operandTree x k).run >>= applyPacket) s = _
  rw [bind_run, h]

/-- Every packet but LIT samples the registers only. -/
theorem packetBody_of_operands {k : PacketKind} {p : Packet} (hk : k ≠ .lit)
    (h : (operandTree s.packetCtx k).run s = .ok (p, u)) : packetBody k s = applyPacket p u := by
  refine packetBody_of_sample ?_ h
  cases k
  case lit => exact absurd rfl hk
  all_goals rfl

theorem packetBody_match {len : Nat} {dist : Word} (hlen : (lengthTree .matchLen s.posState).run s = .ok (len, u))
    (hdist : (distanceTree len).run u = .ok (dist, v)) :
    packetBody .matchNew s = applyPacket (.matchNew len dist) v :=
  packetBody_of_operands (by decide) (run_bind_ok.2 ⟨len, u, hlen, run_map_ok.2 ⟨dist, hdist, rfl⟩⟩)

/-- The four LONGREP packets: the type, the packet of a length, and the registers it leaves (R199 to R203). -/
inductive LongRep : PacketKind → (Nat → Packet) → (Engine → Engine) → Prop where
  | rep0 : LongRep .longRep0 .longRep0 .keepLong
  | rep1 : LongRep .longRep1 .longRep1 .front1
  | rep2 : LongRep .longRep2 .longRep2 .front2
  | rep3 : LongRep .longRep3 .longRep3 .front3

theorem LongRep.packetBody {k : PacketKind} {p : Nat → Packet} {e : Engine → Engine} (h : LongRep k p e) {len : Nat}
    (hlen : (lengthTree .repLen s.posState).run s = .ok (len, u)) : packetBody k s = applyPacket (p len) u := by
  have hrun : ((lengthTree .repLen s.posState).map p).run s = .ok (p len, u) := run_map_ok.2 ⟨len, hlen, rfl⟩
  cases h <;> exact packetBody_of_operands (by decide) hrun

/-- The chosen rep is the one the packet's registers have at the front. -/
theorem longRep_of_mem {e : Engine} {i : Instr} {rep : Word}
    (h : (i, rep) ∈ [(Instr.packetLongRep0, e.rep0), (.packetLongRep1, e.rep1), (.packetLongRep2, e.rep2),
      (.packetLongRep3, e.rep3)]) : ∃ k p f, LongRep k p f ∧ i = k.instr ∧ rep = (f e).rep0 := by
  simp only [List.mem_cons, List.not_mem_nil, or_false, Prod.mk.injEq] at h
  rcases h with h | h | h | h
  · exact ⟨_, _, _, .rep0, h⟩
  · exact ⟨_, _, _, .rep1, h⟩
  · exact ⟨_, _, _, .rep2, h⟩
  · exact ⟨_, _, _, .rep3, h⟩

/-! ## Effects -/

theorem applyPacket_match {len : Nat} {dist : Word} (hroom : s.dict.position ≠ s.dict.limit)
    (hdist : dist ≠ Config.endMarker) :
    applyPacket (.matchNew len dist) s = copyFrom (s.lz.pushMatch dist) len s := by
  refine (needRoom_bind hroom).trans ?_
  show (if dist = Config.endMarker then raise (.endMarker s.inp.offset) else copyFrom (s.lz.pushMatch dist) len) s = _
  rw [if_neg hdist]

theorem applyPacket_endMarker {len : Nat} (hroom : s.dict.position ≠ s.dict.limit) :
    applyPacket (.matchNew len Config.endMarker) s = .error (.raised (.endMarker s.inp.offset) s) :=
  needRoom_bind hroom

theorem applyPacket_shortRep (hroom : s.dict.position ≠ s.dict.limit) :
    applyPacket .shortRep s = copyFrom s.lz.keepShort 1 s := needRoom_bind hroom

theorem LongRep.applyPacket {k : PacketKind} {p : Nat → Packet} {e : Engine → Engine} (h : LongRep k p e) {len : Nat}
    (hroom : s.dict.position ≠ s.dict.limit) : applyPacket (p len) s = copyFrom (e s.lz) len s := by
  cases h <;> exact needRoom_bind hroom

theorem applyPacket_lit {b : Byte} (hp : s.PositionsOrdered) (hroom : s.dict.position < s.dict.limit) :
    applyPacket (.lit b) s =
      .ok ((), (s.append b).setEngine { s.lz with state := nextState s.lz.state .lit }) := by
  have hput : putLiteral b s = .ok ((), s.append b) :=
    putLiteral_ok.2 ⟨hroom.ne, appendByte_ok.2 ⟨hroom.trans_le hp.2, rfl⟩⟩
  refine (needRoom_bind hroom.ne).trans (bind_ok.2 ⟨s.lz, s, look_ok.2 ⟨rfl, rfl⟩, ?_⟩)
  exact bind_ok.2 ⟨(), s.append b, hput, update_ok.2 rfl⟩

/-! ## Copies -/

section Copies

variable {lz : Engine} {n : Nat} {m : M Unit}

/-- The registers are written, then the bytes copied (R193, R217). -/
theorem copyFrom_eq (lz : Engine) (n : Nat) (s : State) :
    copyFrom lz n s = copyBytes (lz.rep0.toNat + 1) n (s.setEngine lz) := by
  rw [copyFrom, bind_run]
  show copyMatch (lz.rep0.toNat + 1) n (s.setEngine lz) = _
  rw [copyMatch_eq_copyBytes (Nat.succ_ne_zero _)]

variable (hf : s.fault = none) (hu : CoderOnly s u) (hm : m s = copyFrom lz n u)

include hf hu hm

/-- An operation that is a copy on the state its operands leave: within the output and below the limit it completes. -/
theorem commit_copyFrom (hp : s.PositionsOrdered) (hw : s.OutputWritten) (hle : lz.rep0.toNat + 1 ≤ s.dict.position)
    (hl : s.dict.position + n ≤ s.dict.limit) :
    ∃ t, commit (fun _ => .ok) m s = .next t ∧ Copied s.dict t.dict (lz.rep0.toNat + 1) n ∧
      t = { u with dict := t.dict, lz := lz, result := .ok } := by
  rw [← hu.dict] at hle hl ⊢
  obtain ⟨t, ht⟩ := copyBytes_completes (s := u.setEngine lz) (hu.positionsOrdered hp) (hu.outputWritten hw)
    (Nat.le_add_left 1 _) hle hl
  refine ⟨_, commit_ok hf (hm.trans ((copyFrom_eq lz n u).trans ht)), ?_, ?_⟩
  · exact copyBytes_copied (s := u.setEngine lz) (t := t) (Nat.le_add_left 1 _) ht
  · exact congrArg (·.giveBack .ok) (copyBytes_changes_dict ht)

/-- From before the start of the buffer it takes `InvalidDistance`. -/
theorem commit_copyFrom_invalidDistance (hn : 1 ≤ n) (hlt : s.dict.position < lz.rep0.toNat + 1) :
    ∃ t, commit (fun _ => .ok) m s = .next t ∧
      t.fault = some (.invalidDistance (lz.rep0.toNat + 1) s.dict.position) := by
  rw [← hu.dict] at hlt ⊢
  have hcopy := copyBytes_invalidDistance (s := u.setEngine lz) hn hlt
  exact ⟨_, commit_raised hf (hm.trans ((copyFrom_eq lz n u).trans hcopy)), rfl⟩

/-- Longer than the room below the limit it takes `Full` at the limit. -/
theorem commit_copyFrom_full (hp : s.PositionsOrdered) (hw : s.OutputWritten)
    (hle : lz.rep0.toNat + 1 ≤ s.dict.position) (hl : s.dict.limit < s.dict.position + n) :
    ∃ t, commit (fun _ => .ok) m s = .next t ∧ t.fault = some (.full s.dict.limit) := by
  rw [← hu.dict] at hle hl ⊢
  obtain ⟨t, ht⟩ := copyBytes_full (s := u.setEngine lz) (hu.positionsOrdered hp) (hu.outputWritten hw)
    (Nat.le_add_left 1 _) hle hl
  exact ⟨_, commit_raised hf (hm.trans ((copyFrom_eq lz n u).trans ht)), rfl⟩

end Copies

/-! ## LIT (R194) -/

/-- The byte `d` back, where the address and the byte are there; 0 before the start of the buffer (R148). -/
theorem byteAt_back {d : Nat} {b : Byte} (hp : s.PositionsOrdered) (hd : 1 ≤ d) (hlt : s.dict.position < d → b = 0)
    (hle : d ≤ s.dict.position → s.dict.out.read (s.dict.position - d) = some b) : byteAt d s = .ok (b, s) := by
  obtain ⟨hlimit, hbuffer⟩ := hp
  refine byteAt_ok.2 ⟨Nat.ne_of_gt hd, rfl, ?_⟩
  rcases Nat.lt_or_ge s.dict.position d with h | h
  · exact .inl ⟨h, hlt h⟩
  · exact .inr ⟨h, readOut_ok.2 ⟨by omega, hle h, rfl⟩⟩

/-- What LIT samples are the bytes of `State.LitSamples`, and its decoder is R194's. -/
theorem litContext_of_samples {prev mb : Byte} (hp : s.PositionsOrdered) (h : s.LitSamples prev mb) :
    ∃ x, litContext s = .ok (x, s) ∧ litTree x = s.litDecoder prev mb := by
  obtain ⟨hprev, hinside, hbefore⟩ := h
  have hprev : byteAt 1 s = .ok (prev, s) := by
    refine byteAt_back hp le_rfl (fun hzero => ?_) fun hpos => ?_
    · rwa [if_pos (Nat.lt_one_iff.1 hzero)] at hprev
    · rwa [if_neg (Nat.ne_of_gt hpos)] at hprev
  have hsubtable : (prev >>> 5).toNat = prev.toNat / 32 := by
    rw [BitVec.toNat_ushiftRight, Nat.shiftRight_eq_div_pow]
  by_cases hstate : s.lz.state.val < 7
  · refine ⟨{ s.packetCtx with prev := prev }, ?_, ?_⟩
    · refine bind_ok.2 ⟨_, s, look_ok.2 ⟨rfl, rfl⟩, bind_ok.2 ⟨prev, s, hprev, ?_⟩⟩
      rw [if_pos (show s.packetCtx.state.val < 7 from hstate)]
      rfl
    · simp only [litTree, State.litDecoder, State.packetCtx, hsubtable, if_pos hstate]
  · have hmatch : byteAt (s.lz.rep0.toNat + 1) s = .ok (mb, s) :=
      byteAt_back hp (Nat.le_add_left 1 _) (hbefore (Nat.not_lt.1 hstate)) (hinside (Nat.not_lt.1 hstate))
    refine ⟨{ s.packetCtx with prev := prev, matchByte := mb }, ?_, ?_⟩
    · refine bind_ok.2 ⟨_, s, look_ok.2 ⟨rfl, rfl⟩, bind_ok.2 ⟨prev, s, hprev, ?_⟩⟩
      rw [if_neg (show ¬s.packetCtx.state.val < 7 from hstate)]
      exact bind_ok.2 ⟨_, s, look_ok.2 ⟨rfl, rfl⟩, bind_ok.2 ⟨mb, s, hmatch, rfl⟩⟩
    · simp only [litTree, State.litDecoder, State.packetCtx, hsubtable, if_neg hstate]

theorem packetBody_lit {prev mb b : Byte} (hp : s.PositionsOrdered) (hsamples : s.LitSamples prev mb)
    (hrun : (s.litDecoder prev mb).run s = .ok (b, u)) : packetBody .lit s = applyPacket (.lit b) u := by
  obtain ⟨x, hx, htree⟩ := litContext_of_samples hp hsamples
  exact packetBody_of_sample (k := .lit) hx (run_map_ok.2 ⟨b, by rwa [htree], rfl⟩)

theorem within_litDecoder (s : State) (prev mb : Byte) : Within (s.litDecoder prev mb) 8 := by
  unfold State.litDecoder
  split
  · exact (within_tree _ 8).map
  · exact within_matchedWalk _ 8 _ _ _

/-- LIT below the limit: the byte decoded (`packetBody_lit`), then its effect (`applyPacket_lit`). -/
theorem exec_packetLit {prev mb b : Byte} (hready : s.Ready) (hp : s.PositionsOrdered)
    (hroom : s.dict.position < s.dict.limit) (hsamples : s.LitSamples prev mb)
    (hrun : (s.litDecoder prev mb).run s = .ok (b, u)) :
    exec .packetLit s =
      .next (((u.append b).setEngine { u.lz with state := nextState u.lz.state .lit }).giveBack .ok) := by
  have hu := run_frame hrun
  have hbody := packetBody_lit hp hsamples hrun
  rw [applyPacket_lit (hu.positionsOrdered hp) (by rwa [hu.dict])] at hbody
  exact (exec_packet hready.2 .lit).trans (commit_ok hready.1 hbody)

/-- Settles O40: `exec_packetLit`, and eight decisions are enough for the byte. -/
theorem litAppendsDecodedByte : Obligations.LitAppendsDecodedByte := by
  refine ⟨fun s u prev mb b hready hp hw hroom hsamples hrun => ?_,
    fun s prev mb hready hp hw hfetch hroom hsamples => ?_⟩
  · have hu := run_frame hrun
    refine ⟨_, exec_packetLit hready hp hroom hsamples hrun, ?_⟩
    rw [← hu.dict, ← hu.lz]
    exact ⟨rfl, Mem.read_write_same _ _ _, fun a ha => Mem.read_write_other _ _ ha⟩
  · obtain ⟨b, u, hrun⟩ := run_completes (within_litDecoder s prev mb) hfetch
    exact ⟨b, u, _, hrun, exec_packetLit hready hp hroom hsamples hrun, (run_frame hrun).fault.trans hready.1⟩

/-! ## MATCH, SHORTREP, LONGREP0 to LONGREP3 (R196, R198 to R203) -/

/-- The length of a copying packet is 2..273 (R204). -/
theorem length_range {l : LenCoder} {ps : BitVec 2} {len : Nat} (h : (lengthTree l ps).run s = .ok (len, u)) :
    2 ≤ len ∧ len ≤ 273 := (yields_length l ps).run h

/-- Settles O41: MATCH is a copy with the registers of `Engine.pushMatch` on the state its operands leave; ten decisions
are enough for the length and 36 for the distance. -/
theorem matchCopiesFromNewDistance : Obligations.MatchCopiesFromNewDistance := by
  refine ⟨fun s hfetch => ?_, fun s u v len dist ⟨hf, hs⟩ hp hw hlen hdist hne hle hl => ?_⟩
  · have hwithin : Within ((lengthTree .matchLen s.posState).bind fun len => (distanceTree len).map (Prod.mk len)) 46 :=
      (within_lengthTree _ _).bind fun len => (within_distanceTree len).map
    obtain ⟨_, v, hrun⟩ := run_completes hwithin hfetch
    obtain ⟨len, u, hlen, hrest⟩ := run_bind_ok.1 hrun
    obtain ⟨dist, hdist, -⟩ := run_map_ok.1 hrest
    exact ⟨len, u, dist, v, hlen, hdist, length_range hlen⟩
  · have hv := (run_frame hlen).trans (run_frame hdist)
    have hlong := (length_range hlen).1
    have hbody : packetBody .matchNew s = copyFrom (s.lz.pushMatch dist) len v := by
      rw [packetBody_match hlen hdist, applyPacket_match (by rw [hv.dict]; omega) hne, hv.lz]
    rw [show exec .packetMatch s = _ from exec_packet hs .matchNew]
    exact commit_copyFrom hf hv hbody hp hw hle hl

theorem packetBody_shortRep (hroom : s.dict.position ≠ s.dict.limit) :
    packetBody .shortRep s = copyFrom s.lz.keepShort 1 s :=
  (packetBody_of_operands (by decide) (pure_run _ s)).trans (applyPacket_shortRep hroom)

/-- Settles O42: SHORTREP is a copy of one byte with the registers of `Engine.keepShort`. -/
theorem shortRepCopiesOneByte : Obligations.ShortRepCopiesOneByte := by
  refine ⟨fun s hf hroom hlt => ?_, fun s hf hp hw hle hl => ?_⟩
  · exact commit_copyFrom_invalidDistance (lz := s.lz.keepShort) hf (.refl s) (packetBody_shortRep hroom) le_rfl hlt
  · exact commit_copyFrom hf (.refl s) (packetBody_shortRep hl.ne) hp hw hle hl

theorem LongRep.packetBody_copy {k : PacketKind} {p : Nat → Packet} {e : Engine → Engine} (h : LongRep k p e)
    {len : Nat} (hlen : (lengthTree .repLen s.posState).run s = .ok (len, u))
    (hroom : s.dict.position ≠ s.dict.limit) : Machine.packetBody k s = copyFrom (e s.lz) len u := by
  have hu := run_frame hlen
  rw [h.packetBody hlen, h.applyPacket (by rwa [hu.dict]), hu.lz]

/-- Settles O43: each LONGREP is a copy with the registers of its rule (`LongRep.packetBody_copy`); ten decisions are
enough for its length. -/
theorem longRepCopiesFromChosenRep : Obligations.LongRepCopiesFromChosenRep := by
  refine ⟨fun s hfetch => ?_, fun s u len ⟨hf, hs⟩ hp hw hlen hl => ?_⟩
  · obtain ⟨len, u, hlen⟩ := run_completes (within_lengthTree .repLen s.posState) hfetch
    exact ⟨len, u, hlen, length_range hlen⟩
  · have hlong := (length_range hlen).1
    have hcopy {k : PacketKind} {p : Nat → Packet} {e : Engine → Engine} (h : LongRep k p e)
        (hle : (e s.lz).rep0.toNat + 1 ≤ s.dict.position) :
        ∃ t, exec k.instr s = .next t ∧ Copied s.dict t.dict ((e s.lz).rep0.toNat + 1) len ∧
          t = { u with dict := t.dict, lz := e s.lz, result := .ok } := by
      rw [exec_packet hs]
      exact commit_copyFrom hf (run_frame hlen) (h.packetBody_copy hlen (by omega)) hp hw hle hl
    exact ⟨hcopy .rep0, hcopy .rep1, hcopy .rep2, hcopy .rep3⟩

/-! ## The faults of a packet (R190, R196, R146) -/

/-- A packet whose operands are decoded takes `Full` at the limit, whatever its type (R190, decision D24). -/
theorem commit_full {m : M Unit} {p : Packet} (hf : s.fault = none) (hu : CoderOnly s u) (hm : m s = applyPacket p u)
    (hlimit : s.dict.position = s.dict.limit) :
    ∃ t, commit (fun _ => .ok) m s = .next t ∧ t.fault = some (.full s.dict.position) := by
  rw [← hu.dict] at hlimit ⊢
  exact ⟨_, commit_raised hf (hm.trans (applyPacket_full hlimit)), rfl⟩

/-- Settles O45: at the limit by `commit_full`; elsewhere MATCH's marker by `applyPacket_endMarker` and the faults of the
copy by `commit_copyFrom_invalidDistance` and `commit_copyFrom_full`. -/
theorem packetFaultConditions : Obligations.PacketFaultConditions := by
  refine ⟨fun s u v len dist ⟨hf, hs⟩ hp hw hlen hdist => ?_, fun s u len i rep ⟨hf, hs⟩ hp hw hlen hmem => ?_,
    fun s u prev mb b ⟨hf, hs⟩ hp hw hsamples hrun hlimit => ?_, fun s hf hlimit => ?_⟩
  · have hv := (run_frame hlen).trans (run_frame hdist)
    have hlong := (length_range hlen).1
    have hbody := packetBody_match hlen hdist
    have hcopy (hroom : s.dict.position ≠ s.dict.limit) (hne : dist ≠ 0xFFFFFFFF) :
        packetBody .matchNew s = copyFrom (s.lz.pushMatch dist) len v := by
      rw [hbody, applyPacket_match (by rwa [hv.dict]) hne, hv.lz]
    rw [show exec .packetMatch s = _ from exec_packet hs .matchNew]
    refine ⟨commit_full hf hv hbody, fun hroom hmarker => ?_,
      fun hroom hne => commit_copyFrom_invalidDistance hf hv (hcopy hroom hne) (by omega),
      fun hroom hne => commit_copyFrom_full hf hv (hcopy hroom hne) hp hw⟩
    subst hmarker
    exact ⟨_, commit_raised hf (hbody.trans (applyPacket_endMarker (by rwa [hv.dict]))), rfl⟩
  · obtain ⟨k, p, e, hrep, rfl, rfl⟩ := longRep_of_mem hmem
    have hu := run_frame hlen
    have hlong := (length_range hlen).1
    have hcopy := hrep.packetBody_copy hlen
    rw [exec_packet hs]
    exact ⟨commit_full hf hu (hrep.packetBody hlen),
      fun hroom => commit_copyFrom_invalidDistance hf hu (hcopy hroom) (by omega),
      fun hroom => commit_copyFrom_full hf hu (hcopy hroom) hp hw⟩
  · rw [show exec .packetLit s = _ from exec_packet hs .lit]
    exact commit_full hf (run_frame hrun) (packetBody_lit hp hsamples hrun) hlimit
  · exact commit_full hf (.refl s) (packetBody_of_operands (by decide) (pure_run _ s)) hlimit

end Sys2Proof.Machine

/-! # The decode loop (spec/43_lzma_engine.md R190, R192)

`packetLoop` unrolled by one packet: it goes on below the limit, ends at it, or stops with the packet. `lz.decode` is then
one packet and `lz.decode` again, and what it changes is `Decodes`. -/

namespace Sys2Proof.Machine

variable {s t u v : State}

/-- With its `dict.set_limit` and `rc.init`, `lz.decode` is the decoding alone. -/
theorem exec_lzDecode (hstage : s.stage = .ready) (hlimit : s.limitSet = true) :
    exec .lzDecode s = commit (fun _ => .ok) lzDecode s := by
  show commit _ (do needChunk; lzDecode) s = _
  unfold commit
  rw [needChunk_bind hstage hlimit]

/-! ## One packet of the loop -/

/-- Below the limit the loop goes on after a packet, and the bound on packets that is left is large enough. -/
theorem packetLoop_goes_on (h : onePacket s = .ok ((), u)) (hl : u.dict.position < u.dict.limit) :
    packetLoop (max 1 (s.dict.limit - s.dict.position)) s = packetLoop (max 1 (u.dict.limit - u.dict.position)) u := by
  obtain ⟨hd, hgrown⟩ := onePacket_ok h
  have hlimit := hd.limit
  obtain ⟨n, hn⟩ := Nat.exists_eq_add_of_le' (Nat.le_max_left 1 (s.dict.limit - s.dict.position))
  have hbound : u.dict.limit - u.dict.position ≤ n := by omega
  rw [hn, packetLoop_succ, h]
  show (if u.dict.position ≥ u.dict.limit then .ok ((), u) else packetLoop n u) = _
  rw [if_neg (Nat.not_le.2 hl)]
  exact packetLoop_bound (by omega) (Nat.le_max_left ..) hbound (Nat.le_max_right ..)

/-- At the limit the loop ends after a packet. -/
theorem packetLoop_ends {n : Nat} (hn : 1 ≤ n) (h : onePacket s = .ok ((), u)) (hl : u.dict.limit ≤ u.dict.position) :
    packetLoop n s = .ok ((), u) := by
  obtain ⟨m, rfl⟩ := Nat.exists_eq_add_of_le' hn
  rw [packetLoop_succ, h]
  exact if_pos hl

/-- What the packet raises, the loop raises. -/
theorem packetLoop_stops {n : Nat} {e : Stop} (hn : 1 ≤ n) (h : onePacket s = .error e) :
    packetLoop n s = .error e := by
  obtain ⟨m, rfl⟩ := Nat.exists_eq_add_of_le' hn
  rw [packetLoop_succ, h]

/-! ## `lz.decode` -/

/-- `lz.decode` is its packets, the final normalisation (R192) and the mark. -/
theorem lzDecode_eq (s : State) :
    lzDecode s = (do
      packetLoop (max 1 (s.dict.limit - s.dict.position))
      normalize
      update State.markDecoded : M Unit) s := rfl

theorem lzDecode_goes_on (h : onePacket s = .ok ((), u)) (hl : u.dict.position < u.dict.limit) :
    lzDecode s = lzDecode u := by
  rw [lzDecode_eq, lzDecode_eq, bind_run, bind_run, packetLoop_goes_on h hl]

theorem lzDecode_ends (h : onePacket s = .ok ((), u)) (hl : u.dict.limit ≤ u.dict.position)
    (hnormal : normalize u = .ok ((), v)) : lzDecode s = .ok ((), v.markDecoded) :=
  lzDecode_ok.2 ⟨u, v, packetLoop_ends (Nat.le_max_left ..) h hl, hnormal, rfl⟩

/-- Settles O46: the loop unrolled by one packet (`lzDecode_goes_on`, `lzDecode_ends`, `packetLoop_stops`). -/
theorem lzDecodeRunsPackets : Obligations.LzDecodeRunsPackets := by
  intro s hf hstage hlimit
  rw [exec_lzDecode hstage hlimit]
  refine ⟨fun u hone hl => ?_, fun u v hone hl hnormal => ?_, fun f u hone => ?_, fun f u v hone hl hnormal => ?_⟩
  · have hd := (onePacket_ok hone).1
    have hlimit' : u.limitSet = true := (congrArg State.limitSet hd.frame).trans hlimit
    rw [exec_lzDecode (hd.stage.trans hstage) hlimit']
    simp only [commit, hd.fault, lzDecode_goes_on hone hl]
  · exact commit_ok (ret := fun _ => .ok) hf (lzDecode_ends hone hl hnormal)
  · have herror := lzDecode_error.2 (.inl (packetLoop_stops (Nat.le_max_left ..) hone))
    exact ⟨_, commit_raised hf herror, rfl⟩
  · have hloop := packetLoop_ends (Nat.le_max_left 1 (s.dict.limit - s.dict.position)) hone hl
    exact ⟨_, commit_raised hf (lzDecode_error.2 (.inr ⟨u, hloop, hnormal⟩)), rfl⟩

/-- A `lz.decode` that comes out has decoded up to the limit, and marks that another needs another `rc.init`. -/
theorem lzDecode_decodes {a : Unit} (h : lzDecode s = .ok (a, t)) :
    ∃ v, t = v.markDecoded ∧ Decodes s v ∧ s.dict.limit ≤ v.dict.position := by
  obtain ⟨u, v, hloop, hnormal, rfl⟩ := lzDecode_ok.1 h
  have hu := decodes_packetLoop _ s _ u hloop
  have hv := decodes_normalize u _ v hnormal
  have hexit := packetLoop_exits (Nat.le_max_left ..) (Nat.le_max_right ..) hloop
  rw [hu.limit] at hexit
  exact ⟨v, rfl, hu.trans hv, hexit.trans hv.grown⟩

/-- Settles O48: `lzDecode_decodes`, and the position cannot pass the limit (`Decodes.ordered`). -/
theorem lzDecodeEndsAtLimit : Obligations.LzDecodeEndsAtLimit := by
  intro s t hp hnext hnone
  obtain ⟨-, ⟨⟨⟩, w, hrun, rfl⟩ | ⟨f, w, -, rfl⟩⟩ := commit_next.1 hnext
  · obtain ⟨⟨⟩, s', hchunk, hdecode⟩ := bind_ok.1 hrun
    obtain ⟨-, rfl⟩ := needChunk_ok.1 hchunk
    obtain ⟨v, rfl, hv, hexit⟩ := lzDecode_decodes hdecode
    have hposition : v.dict.position = s.dict.limit := le_antisymm (hv.ordered hp.1) hexit
    refine ⟨hposition, congrArg (·.markDecoded.giveBack .ok) hv.frame, fun a ha => hv.kept a ?_⟩
    rwa [hposition]
  · cases hnone

end Sys2Proof.Machine

/-! # A payload of zeros (spec/43_lzma_engine.md R190, R194, spec/44_lzma2_chunk_commands.md R244, R246)

With `code = 0` a decision on a fresh cell comes out 0 and halves `range` (`decodeBit_zero`), so from `0xFFFFFFFF` eight of
them need no byte and the ninth needs one (`follows_nine_zeros`). Nine zeros are LIT's type code and the eight decisions of
the byte 0, one packet (`onePacket_zeroPayload`); a chunk of one byte is `dict.set_limit`, `rc.init` and that `lz.decode`. -/

namespace Sys2Proof.Machine

variable {s t u v : State}

/-! ## Decisions of 0 -/

theorem normalize_idle (h : 2 ^ 24 ≤ s.rc.range.toNat) : normalize s = .ok ((), s) :=
  normalize_ok.2 (.inl ⟨by rw [lt_rcTop_iff]; omega, rfl⟩)

/-- With `code = 0`, a normalisation that shifts a zero byte in keeps it 0. -/
theorem normalize_zero (hcode : s.rc.code = 0) (hrange : s.rc.range.toNat < 2 ^ 24) (hbudget : s.rc.remaining ≠ 0)
    (hinput : s.inp.offset < s.inp.size) (hbyte : s.inp.bytes.read s.inp.offset = some 0) :
    ∃ v, normalize s = .ok ((), v) ∧ v.rc.range.toNat = s.rc.range.toNat * 2 ^ 8 ∧
      v.rc = { s.rc with range := v.rc.range, remaining := s.rc.remaining - 1 } ∧
      v.inp = { s.inp with offset := s.inp.offset + 1 } := by
  have hread : readByte s = .ok (0, s.advance 1) := readByte_ok.2 ⟨hinput, hbyte, rfl⟩
  refine ⟨(s.advance 1).shiftIn 0, normalize_ok.2 (.inr ⟨lt_rcTop_iff.2 hrange, hbudget, 0, hread, rfl⟩), ?_, ?_, rfl⟩
  · rw [State.shiftIn_rc, State.advance_rc, BitVec.toNat_shiftLeft, Nat.shiftLeft_eq, Nat.mod_eq_of_lt (by omega)]
  · simp [hcode]

/-- A decision on a fresh cell with `code = 0` comes out 0 and halves `range`, up to a multiple of 1024. -/
theorem decodeBit_zero {c : Cell} (hcell : s.cell c = 0x400) (hcode : s.rc.code = 0)
    (hrange : 2 ^ 24 ≤ s.rc.range.toNat) :
    ∃ u, decodeBit c s = .ok (false, u) ∧ u.rc.range.toNat / 1024 = s.rc.range.toNat / 1024 / 2 ∧
      u.rc = { s.rc with range := u.rc.range } ∧ u.inp = s.inp := by
  have hbound : (bound s.rc.range (s.cell c)).toNat = s.rc.range.toNat / 2048 * 1024 := by
    rw [bound_toNat (by rw [hcell]; decide), hcell]
    rfl
  have hzero : s.decision c = false := by
    rw [decision_eq_false_iff, hbound, hcode]
    show 0 < _
    omega
  have hrc := decided_rc_of_false hzero
  refine ⟨s.decided c, decodeBit_ok.2 ⟨s, normalize_idle hrange, hzero.symm, rfl⟩, ?_, ?_, State.decided_inp s c⟩
  · rw [hrc]
    show (bound s.rc.range (s.cell c)).toNat / 1024 = _
    rw [hbound, Nat.mul_div_cancel _ (by decide), Nat.div_div_eq_div_mul]
  · rw [hrc]

/-- Decisions of 0 on cells, one after another. -/
def zeroPath (cells : List Cell) : List (Option Cell × Bool) := cells.map fun c => (some c, false)

theorem mem_zeroPath_cells {cells : List Cell} {c : Cell} : c ∈ (zeroPath cells).filterMap Prod.fst ↔ c ∈ cells := by
  simp [zeroPath]

/-- With `code = 0` and a range large enough for all of them, decisions on different fresh cells come out 0. -/
theorem follows_zeros {cells : List Cell} (hnodup : cells.Nodup) (hfresh : ∀ c ∈ cells, s.cell c = 0x400)
    (hcode : s.rc.code = 0) (hrange : 2 ^ 13 * 2 ^ cells.length ≤ s.rc.range.toNat / 1024) :
    ∃ u, Follows s (zeroPath cells) u ∧ u.rc.range.toNat / 1024 = s.rc.range.toNat / 1024 / 2 ^ cells.length ∧
      u.rc = { s.rc with range := u.rc.range } ∧ u.inp = s.inp := by
  induction cells generalizing s with
  | nil => exact ⟨s, rfl, by simp, rfl, rfl⟩
  | cons c cells ih =>
    obtain ⟨hc, hnodup⟩ := List.nodup_cons.1 hnodup
    rw [List.length_cons, pow_succ'] at hrange
    have hpos := Nat.two_pow_pos cells.length
    obtain ⟨v, hbit, hvrange, hvrc, hvinp⟩ := decodeBit_zero (hfresh c List.mem_cons_self) hcode (by omega)
    have hvfresh : ∀ d ∈ cells, v.cell d = 0x400 := fun d hd => by
      rw [decodeBit_cell hbit (ne_of_mem_of_not_mem hd hc)]
      exact hfresh d (List.mem_cons_of_mem c hd)
    have hvcode : v.rc.code = 0 := by rw [hvrc]; exact hcode
    obtain ⟨u, hfollows, hurange, hurc, huinp⟩ := ih hnodup hvfresh hvcode (by omega)
    refine ⟨u, ⟨v, hbit, hfollows⟩, ?_, ?_, huinp.trans hvinp⟩
    · rw [hurange, hvrange, List.length_cons, pow_succ', Nat.div_div_eq_div_mul]
    · rw [hvrc] at hurc
      exact hurc

/-- Decisions that follow from the normalised state follow from the state before. -/
theorem Follows.of_normalize {c : Cell} {b : Bool} {qs : List (Option Cell × Bool)} (hnormal : normalize s = .ok ((), v))
    (hrange : 2 ^ 24 ≤ v.rc.range.toNat) (h : Follows v ((some c, b) :: qs) t) : Follows s ((some c, b) :: qs) t := by
  obtain ⟨u, hbit, hrest⟩ := h
  obtain ⟨w, hidle, hb, hu⟩ := decodeBit_ok.1 hbit
  rw [normalize_idle hrange] at hidle
  cases hidle
  exact ⟨u, decodeBit_ok.2 ⟨v, hnormal, hb, hu⟩, hrest⟩

/-- The range coder stands where `rc.init` leaves it on a payload of zeros, a zero byte to fetch, and the cells are
fresh. -/
structure State.AtZeroPayload (s : State) : Prop where
  fresh : ∀ c, s.cell c = 0x400
  range : s.rc.range = 0xFFFFFFFF
  code : s.rc.code = 0
  budget : s.rc.remaining ≠ 0
  input : s.inp.offset < s.inp.size
  byte : s.inp.bytes.read s.inp.offset = some 0

/-- Nine decisions of 0 fetch one byte, before the last of them. -/
theorem follows_nine_zeros (h : s.AtZeroPayload) {first : List Cell} {last : Cell} (hlength : first.length = 8)
    (hnodup : first.Nodup) (hlast : last ∉ first) :
    ∃ t, Follows s (zeroPath (first ++ [last])) t ∧ 2 ^ 24 ≤ t.rc.range.toNat ∧
      t.rc = { s.rc with range := t.rc.range, remaining := s.rc.remaining - 1 } ∧
      t.inp = { s.inp with offset := s.inp.offset + 1 } := by
  obtain ⟨hfresh, hrange, hcode, hbudget, hinput, hbyte⟩ := h
  have hstart : s.rc.range.toNat / 1024 = 2 ^ 22 - 1 := by rw [hrange]; rfl
  obtain ⟨u, hfirst, hurange, hurc, huinp⟩ :=
    follows_zeros hnodup (fun c _ => hfresh c) hcode (by rw [hlength, hstart]; decide)
  rw [hlength, hstart] at hurange
  have hucode : u.rc.code = 0 := by rw [hurc]; exact hcode
  obtain ⟨v, hnormal, hvrange, hvrc, hvinp⟩ := normalize_zero hucode (by omega) (by rw [hurc]; exact hbudget)
    (by rw [huinp]; exact hinput) (by rw [huinp]; exact hbyte)
  have hvcode : v.rc.code = 0 := by rw [hvrc]; exact hucode
  have hvfresh : v.cell last = 0x400 := by
    rw [normalize_cell hnormal, hfirst.cell (mt mem_zeroPath_cells.1 hlast)]
    exact hfresh last
  obtain ⟨t, hend, htrange, htrc, htinp⟩ := follows_zeros (cells := [last]) (List.nodup_singleton last)
    (by simpa using hvfresh) hvcode (by rw [hvrange, List.length_singleton]; omega)
  rw [List.length_singleton, hvrange] at htrange
  refine ⟨t, ?_, by omega, ?_, ?_⟩
  · rw [zeroPath, List.map_append]
    exact follows_append.2 ⟨u, hfirst, hend.of_normalize hnormal (by omega)⟩
  · rw [hvrc, hurc] at htrc
    exact htrc
  · rw [htinp, hvinp, huinp]

/-! ## The packet -/

/-- The cells of the plain tree's decisions of 0, but for the last one (R170). -/
def literalZeros (c : Fin 8) : List Cell := [1, 2, 4, 8, 16, 32, 64].map (.literal c)

theorem treePath_literal_zeros (c : Fin 8) :
    treePath (.literal c) 1 (List.replicate 8 false) = zeroPath (literalZeros c ++ [.literal c 128]) := rfl

/-- On a payload of zeros the loop's packet is LIT of the byte 0. -/
theorem onePacket_zeroPayload (h : s.AtZeroPayload) (hp : s.PositionsOrdered) (hw : s.OutputWritten)
    (hroom : s.dict.position < s.dict.limit) (hstate : s.lz.state.val < 7) :
    ∃ u, onePacket s = .ok ((), (u.append 0).setEngine { s.lz with state := nextState s.lz.state .lit }) ∧
      CoderOnly s u ∧ 2 ^ 24 ≤ u.rc.range.toNat ∧
      u.rc = { s.rc with range := u.rc.range, remaining := s.rc.remaining - 1 } ∧
      u.inp = { s.inp with offset := s.inp.offset + 1 } := by
  obtain ⟨prev, hprev⟩ : ∃ prev, if s.dict.position = 0 then prev = 0
      else s.dict.out.read (s.dict.position - 1) = some prev := by
    by_cases hzero : s.dict.position = 0
    · exact ⟨0, by rw [if_pos hzero]⟩
    · obtain ⟨prev, hprev⟩ := Option.isSome_iff_exists.1 ((hw (s.dict.position - 1)).2 (by omega))
      exact ⟨prev, by rwa [if_neg hzero]⟩
  obtain ⟨u, hfollows, hrange, hrc, hinp⟩ := follows_nine_zeros h
    (first := .isMatch s.lz.state (posColumn s.posState) :: literalZeros (Fin.ofNat 8 (prev.toNat / 32)))
    (last := .literal (Fin.ofNat 8 (prev.toNat / 32)) 128) rfl (by simp [literalZeros]) (by simp [literalZeros])
  refine ⟨u, ?_, hfollows.frame, hrange, hrc, hinp⟩
  obtain ⟨v, htype, hbyte⟩ := hfollows
  have hv := decodeBit_frame htype
  have hkind : (typeTree s.lz.state s.posState).run s = .ok (.lit, v) :=
    run_ok_iff_path.2 ⟨_, typeTree_path.2 rfl, v, htype, rfl⟩
  have hsamples : v.LitSamples prev 0 := by
    refine ⟨by rwa [hv.dict], fun hhigh => ?_, fun _ _ => rfl⟩
    rw [hv.lz] at hhigh
    omega
  have hdecoder : (v.litDecoder prev 0).run v = .ok (0, u) := by
    rw [State.litDecoder, if_pos (by rwa [hv.lz])]
    exact run_map_ok.2 ⟨0, tree_ok.2 ⟨List.replicate 8 false, rfl, hbyte, rfl⟩, rfl⟩
  have hu := hv.trans (run_frame hdecoder)
  rw [onePacket_of_type hkind, packetBody_lit (hv.positionsOrdered hp) hsamples hdecoder,
    applyPacket_lit (hu.positionsOrdered hp) (by rwa [hu.dict]), hu.lz]

/-- `lz.decode` of one byte on a payload of zeros: the byte 0 appended, one byte fetched. -/
theorem lzDecode_zeroPayload (h : s.AtZeroPayload) (hp : s.PositionsOrdered) (hw : s.OutputWritten)
    (hlimit : s.dict.position + 1 = s.dict.limit) (hstate : s.lz.state.val < 7) :
    ∃ t, lzDecode s = .ok ((), t) ∧
      t = { s with
        rc := { s.rc with range := t.rc.range, remaining := s.rc.remaining - 1 }
        lz := { s.lz with state := nextState s.lz.state .lit }
        probs := t.probs
        dict := { s.dict with position := s.dict.position + 1, out := s.dict.out.write s.dict.position 0 }
        inp := { s.inp with offset := s.inp.offset + 1 }
        stage := .decoded
        limitSet := false } := by
  obtain ⟨u, hone, hu, hrange, hrc, hinp⟩ := onePacket_zeroPayload h hp hw (by omega) hstate
  have hend : ((u.append 0).setEngine { s.lz with state := nextState s.lz.state .lit }).dict.limit ≤
      ((u.append 0).setEngine { s.lz with state := nextState s.lz.state .lit }).dict.position := by
    simp [hu.dict, hlimit]
  refine ⟨_, lzDecode_ends hone hend (normalize_idle hrange), ?_⟩
  rw [CoderOnly, hinp] at hu
  rw [hrc] at hu
  rw [hu]
  rfl

/-! ## The chunk -/

theorem checkComplete_ok {usize csize : Nat} (hrc : s.rcComplete = (true, csize)) (hdict : s.dictComplete = (true, usize)) :
    checkComplete usize csize s = .ok ((), s) := by
  simp [checkComplete, bind_run, look, hrc, hdict, pure_run]

/-- A chunk outside another's `rc.init` to `lz.decode`: its limit, its `rc.init`, its `lz.decode` and its completion. -/
theorem decodeChunk_ok {usize csize : Nat} (hstage : s.stage ≠ .ready)
    (hsize : s.dict.position + usize ≤ s.dict.bufferSize) (hinit : rcInit csize (s.setLimit usize) = .ok ((), u))
    (hdecode : lzDecode u = .ok ((), t)) (hrc : t.rcComplete = (true, csize)) (hdict : t.dictComplete = (true, usize)) :
    decodeChunk usize csize s = .ok ((), t) :=
  (needBeforeInit_bind hstage).trans <| bind_ok.2 ⟨(), _, setLimit_ok.2 ⟨hsize, rfl⟩, bind_ok.2 ⟨(), u, hinit,
    bind_ok.2 ⟨(), t, hdecode, checkComplete_ok hrc hdict⟩⟩⟩

/-- A chunk of one byte whose six payload bytes are zeros. -/
theorem decodeChunk_zeroPayload (hstage : s.stage ≠ .ready) (hw : s.OutputWritten)
    (hbuffer : s.dict.position < s.dict.bufferSize) (hsize : s.inp.offset + 6 ≤ s.inp.size)
    (hbytes : ∀ k, k < 6 → s.inp.bytes.read (s.inp.offset + k) = some 0) (hfresh : ∀ c, s.cell c = 0x400)
    (hstate : s.lz.state.val < 4) :
    ∃ t, decodeChunk 1 6 s = .ok ((), t) ∧
      t = { s with
        rc := { range := t.rc.range, code := 0, remaining := 0, budget := 6 }
        lz := { s.lz with state := 0 }
        probs := t.probs
        dict := { s.dict with
          position := s.dict.position + 1
          limit := s.dict.position + 1
          historyStart := s.dict.position
          out := s.dict.out.write s.dict.position 0 }
        inp := { s.inp with offset := s.inp.offset + 6 }
        stage := .decoded
        limitSet := false } := by
  have hheader : readPayloadHeader (s.setLimit 1) = .ok (0, (s.setLimit 1).advance 5) :=
    readPayloadHeader_of_bytes (s := s.setLimit 1) (show s.inp.offset + 5 ≤ s.inp.size by omega) (hbytes 0 (by decide))
      (hbytes 1 (by decide)) (hbytes 2 (by decide)) (hbytes 3 (by decide)) (hbytes 4 (by decide))
  have hinit : rcInit 6 (s.setLimit 1) = .ok ((), ((s.setLimit 1).advance 5).loadCoder 0 6) :=
    rcInit_ok.2 ⟨by decide, 0, _, hheader, rfl⟩
  have hstart : (((s.setLimit 1).advance 5).loadCoder 0 6).AtZeroPayload :=
    ⟨hfresh, rfl, rfl, show (1 : Count) ≠ 0 by decide, show s.inp.offset + 5 < s.inp.size by omega, hbytes 5 (by decide)⟩
  obtain ⟨t, hdecode, ht⟩ := lzDecode_zeroPayload hstart ⟨Nat.le_succ _, hbuffer⟩ hw rfl
    (show s.lz.state.val < 7 by omega)
  have hnext : nextState s.lz.state .lit = 0 := if_pos hstate
  refine ⟨t, decodeChunk_ok hstage hbuffer hinit hdecode ?_ ?_, by simpa [hnext, Config.rcInitBytes] using ht⟩
  · rw [ht]
    simp [State.rcComplete, Config.rcInitBytes]
  · rw [ht]
    simp [State.dictComplete]

theorem lzmaChunk_decode {reset : Bool} {v : BitVec 21} {c : BitVec 16} (hmode : s.mode = .decode)
    (hreset : chunkReset reset s = .ok ((), u)) :
    lzmaChunk reset v c s = decodeChunk (uncompressedSize v) (compressedSize c) u := by
  simp [lzmaChunk, bind_run, look, hmode, hreset]

/-- The three accepted chunk commands of one byte, in decode mode and between chunks: each leaves fresh cells and a state
below 4 for the chunk's decoding, NONE because it finds them so, STATE and FULL by their reset (R247). -/
theorem exec_smallChunk {i : Instr} (hset : s.limitSet = false) (hstage : s.stage ≠ .ready)
    (hi : (i = .chunkLzmaNone 0 5 ∧ (∀ c, s.cell c = 0x400) ∧ s.lz.state.val < 4) ∨ i = .chunkLzmaState 0 5 ∨
      i = .chunkLzmaFull 0 5 0x5D) :
    ∃ reset u, exec i s = commit (fun _ => .ok) (lzmaChunk reset 0 5) s ∧ chunkReset reset s = .ok ((), u) ∧
      u = { s with lz := u.lz, probs := u.probs } ∧ (∀ c, u.cell c = 0x400) ∧ u.lz.state.val < 4 := by
  have hreset := resetState_ok hset hstage
  rcases hi with ⟨rfl, hfresh, hstate⟩ | rfl | rfl
  · exact ⟨false, s, rfl, rfl, rfl, hfresh, hstate⟩
  · exact ⟨true, _, rfl, hreset, rfl, resetModel_cell s, show 0 < 4 by decide⟩
  · exact ⟨true, _, rfl, hreset, rfl, resetModel_cell s, show 0 < 4 by decide⟩

/-- Settles O49: `lzDecode_zeroPayload`, and for the chunk commands `decodeChunk_zeroPayload` after `exec_smallChunk`. -/
theorem zeroPayloadDecodesZeroByte : Obligations.ZeroPayloadDecodesZeroByte := by
  refine ⟨fun s hf hstage hset hp hw hlimit hfresh hstate hrange hcode hbudget hinput hbyte => ?_,
    fun s i hf hmode hstage hset hp hw hbuffer hsize hbytes hi => ?_⟩
  · obtain ⟨t, hdecode, ht⟩ :=
      lzDecode_zeroPayload ⟨hfresh, hrange, hcode, hbudget, hinput, hbyte⟩ hp hw hlimit hstate
    refine ⟨_, (exec_lzDecode hstage hset).trans (commit_ok hf hdecode), ?_⟩
    rw [ht]
    exact ⟨hf, rfl, Mem.read_write_same _ _ _, hcode, rfl, rfl, rfl⟩
  · obtain ⟨reset, u, hexec, hreset, hu, hfresh, hstate⟩ := exec_smallChunk hset hstage hi
    have hdict : u.dict = s.dict := by rw [hu]
    have hinp : u.inp = s.inp := by rw [hu]
    rw [← hdict] at hbuffer ⊢
    rw [← hinp] at hsize hbytes ⊢
    obtain ⟨t, hchunk, ht⟩ := decodeChunk_zeroPayload (s := u) (by rw [hu]; exact hstage)
      (by rwa [State.OutputWritten, hdict]) hbuffer hsize hbytes hfresh hstate
    refine ⟨_, hexec.trans (commit_ok hf ((lzmaChunk_decode hmode hreset).trans hchunk)), ?_⟩
    have hfault : u.fault = none := by rw [hu]; exact hf
    rw [ht]
    exact ⟨hfault, rfl, rfl, rfl, Mem.read_write_same _ _ _, fun a ha => Mem.read_write_other _ _ ha, rfl, rfl, rfl, rfl,
      rfl⟩

end Sys2Proof.Machine

/-! # The step and the chunk loop's own commands (spec/44_lzma2_chunk_commands.md R240 to R245, R252)

A step is its fetch and then `exec`; the fetch is the first operation issued, or `fetchHeader` while the loop runs. -/

namespace Sys2Proof.Machine

variable {s t : State}

/-! ## The fetch -/

theorem step_of_fetch {i : Instr} (h : fetch s = .ok (i, t)) : step s = exec i t := by
  rw [step, h]

theorem step_of_fetch_error {o : Outcome} (h : fetch s = .error o) : step s = o := by
  rw [step, h]

theorem fetch_issued {i : Instr} {rest : List Instr} (h : s.issued = i :: rest) :
    fetch s = .ok (i, { s with issued := rest }) := by
  rw [fetch, h]

theorem fetch_running (hissued : s.issued = []) (hf : s.fault = none) (hloop : s.loop = .running) :
    fetch s = fetchHeader s := by
  rw [fetch, hissued, hf, hloop]

theorem fetch_returned (hissued : s.issued = []) (hf : s.fault = none) (hloop : s.loop = .returned) :
    fetch s = .error (.refused .runEnded) := by
  rw [fetch, hissued, hf, hloop]

theorem fetch_faulted (hissued : s.issued = []) (hf : s.fault ≠ none) :
    fetch s = .error (.refused .afterFault) := by
  obtain ⟨f, hf⟩ := Option.ne_none_iff_exists'.1 hf
  rw [fetch, hissued, hf]

/-- The bytes at `in.offset` are a header: the cursor moves past it. -/
theorem fetchHeader_ok {i : Instr} {rest : List Byte} (h : decodeBytes s.window = .ok (i, rest)) :
    fetchHeader s = .ok (i, s.advance (s.window.length - rest.length)) := by
  rw [fetchHeader, h]

/-- A header cut short by the end of the input (R130): a window of six bytes would hold one (`decodeBytes_error`), so the
window ends where the input does. -/
theorem fetchHeader_cut {e : DecodeReject} (hpresent : s.InputPresent) (h : decodeBytes s.window = .error e) :
    fetchHeader s = .error (.next (s.takeFault (.endOfInput s.inp.size))) := by
  have hshort := decodeBytes_error h
  have hlength := window_length hpresent
  have hle := hpresent.1
  have hend : s.inp.offset + s.window.length = s.inp.size := by omega
  rw [fetchHeader, h, hend]
  exact if_neg (lt_irrefl _)

/-! ## The step -/

/-- While the loop runs, a step whose bytes are a chunk command's header runs the command. -/
theorem step_decoded {i : Instr} {rest : List Byte} (hissued : s.issued = []) (hf : s.fault = none)
    (hloop : s.loop = .running) (h : decodeBytes s.window = .ok (i, rest)) :
    step s = exec i (s.advance (s.window.length - rest.length)) :=
  step_of_fetch ((fetch_running hissued hf hloop).trans (fetchHeader_ok h))

/-- Settles O7: `step_decoded`, and the operation issued first (`fetch_issued`). -/
theorem stepRunsDecodedInstruction : Obligations.StepRunsDecodedInstruction :=
  ⟨fun _ _ _ hissued hf hloop h => step_decoded hissued hf hloop h, fun _ _ _ h => step_of_fetch (fetch_issued h)⟩

/-- Settles O8: the header cut short (`fetchHeader_cut`), and the two refusals of the fetch. -/
theorem stepAtEndOfInputOrRun : Obligations.StepAtEndOfInputOrRun :=
  ⟨fun _ _ hissued hf hloop hpresent h =>
      ⟨_, step_of_fetch_error ((fetch_running hissued hf hloop).trans (fetchHeader_cut hpresent h)), rfl⟩,
    fun _ hissued hf hloop => step_of_fetch_error (fetch_returned hissued hf hloop),
    fun _ hissued hf => step_of_fetch_error (fetch_faulted hissued hf)⟩

/-! ## CHUNK.END (R241, R250) -/

theorem exec_chunkEnd_decode (hf : s.fault = none) (hmode : s.mode = .decode) :
    exec .chunkEnd s = .next (s.endLoop.giveBack (.finished s.dict.position)) := by
  have hend : chunkEnd s = .ok (s.dict.position, s.endLoop) := by simp [chunkEnd, bind_run, update, look, hmode]
  exact commit_ok (ret := .finished) hf hend

theorem exec_chunkEnd_sizeQuery (hf : s.fault = none) (hmode : s.mode = .sizeQuery) :
    exec .chunkEnd s = .next (s.endLoop.giveBack (.finished s.tally)) := by
  have hend : chunkEnd s = .ok (s.tally, s.endLoop) := by simp [chunkEnd, bind_run, update, look, hmode]
  exact commit_ok (ret := .finished) hf hend

/-- Settles O50: `exec_chunkEnd_decode`, for the step on the state past a header of one byte. -/
theorem chunkEndReturnsSuccess : Obligations.ChunkEndReturnsSuccess := by
  refine ⟨fun s hf hmode => exec_chunkEnd_decode hf hmode, fun s hissued hf hloop hmode hlt hread => ?_⟩
  have hwindow : s.window = 0x00 :: inWindow s.inp.bytes s.inp.size (s.inp.offset + 1) 5 := by
    rw [State.window, maxHeader, inWindow, if_pos hlt, hread]
  have hdecode : decodeBytes s.window = .ok (.chunkEnd, inWindow s.inp.bytes s.inp.size (s.inp.offset + 1) 5) := by
    rw [hwindow]
    rfl
  rw [step_decoded hissued hf hloop hdecode, hwindow, List.length_cons, Nat.add_sub_cancel_left]
  exact exec_chunkEnd_decode (s := s.advance 1) hf hmode

/-! ## Rejected commands (R242 to R245) -/

theorem commit_raise {α : Type} {ret : α → Result} (hf : s.fault = none) (f : CoreFault) :
    commit ret (raise f) s = .next (s.takeFault f) := commit_raised hf rfl

theorem rejectControl_fault (control : Byte) (hf : s.fault = none) :
    ∃ t, rejectControl control s = .next t ∧ t.fault = some (.unsupportedChunk control) :=
  ⟨_, commit_raise hf _, rfl⟩

/-- A command of one byte that is not 0 is rejected with that byte, whatever its open bits (R242, R243). -/
theorem exec_rejected {i : Instr} {control : Byte} (henc : encode i = .bytes [control]) (hne : control ≠ 0) (s : State) :
    exec i s = rejectControl control s := by
  cases i <;> cases henc
  case chunkEnd => exact absurd rfl hne
  case chunkReserved04 x =>
    rw [show (1 : BitVec 6) ++ x = 0x04 ||| x.setWidth 8 by revert x; decide]
    rfl
  case chunkReserved08 x =>
    rw [show (1 : BitVec 5) ++ x = 0x08 ||| x.setWidth 8 by revert x; decide]
    rfl
  case chunkReserved10 x =>
    rw [show (1 : BitVec 4) ++ x = 0x10 ||| x.setWidth 8 by revert x; decide]
    rfl
  case chunkReserved20 x =>
    rw [show (1 : BitVec 3) ++ x = 0x20 ||| x.setWidth 8 by revert x; decide]
    rfl
  case chunkReserved40 x =>
    rw [show (1 : BitVec 2) ++ x = 0x40 ||| x.setWidth 8 by revert x; decide]
    rfl
  all_goals rfl

/-- The control byte that CHUNK.LZMA.PROPS records is the one of its header (R91, R245). -/
theorem propsControl : ∀ x : BitVec 5, 0xC0 ||| x.setWidth 8 = (1 : BitVec 1) ++ (2 : BitVec 2) ++ x := by decide

theorem exec_chunkLzmaProps (hf : s.fault = none) (u : BitVec 21) (c : BitVec 16) :
    exec (.chunkLzmaProps u c) s =
      .next (s.takeFault (.unsupportedReset ((1 : BitVec 1) ++ (2 : BitVec 2) ++ u.extractLsb' 16 5))) := by
  rw [← propsControl]
  exact commit_raise (ret := fun _ : Unit => .ok) hf _

/-- A property byte that is not 0x5D is compared before anything else (R244). -/
theorem exec_chunkLzmaFull_badProperties (hf : s.fault = none) (u : BitVec 21) (c : BitVec 16) {props : Byte}
    (hne : props ≠ 0x5D) : exec (.chunkLzmaFull u c props) s = .next (s.takeFault (.badProperties props)) := by
  refine commit_raised (ret := fun _ : Unit => .ok) hf ?_
  rw [if_neg (show props ≠ Config.props from hne)]
  rfl

/-- Settles O51: the commands of one byte by `exec_rejected`, then PROPS and FULL with a wrong property byte. -/
theorem rejectedChunksFault : Obligations.RejectedChunksFault := by
  refine ⟨fun i control s hf henc hne => ?_, fun u c control i0 i1 i2 i3 s hf henc => ?_,
    fun s u c props hf hprops => ⟨_, exec_chunkLzmaFull_badProperties hf u c hprops, rfl⟩⟩
  · rw [exec_rejected henc hne]
    exact rejectControl_fault control hf
  · cases henc
    exact ⟨_, exec_chunkLzmaProps hf u c, rfl⟩

end Sys2Proof.Machine

/-! # LZMA chunks (spec/44_lzma2_chunk_commands.md R244, R246, R247, R250)

The three accepted commands are one operation, `lzmaChunk`, after different resets (`AcceptedChunk`). In decode mode it is
`dict.set_limit`, `rc.init` and `lz.decode` on the state those leave (`State.beginChunk`), then the completion check, whose
outcome turns on `code` and `remaining` alone (`checkComplete_beginChunk`). In size-query mode it is `skipChunk`. -/

namespace Sys2Proof.Machine

/-- An accepted chunk command and whether it resets the model: NONE does not, STATE and FULL with the legal property byte
do. -/
inductive AcceptedChunk (u : BitVec 21) (c : BitVec 16) : Instr → Bool → Prop where
  | none : AcceptedChunk u c (.chunkLzmaNone u c) false
  | state : AcceptedChunk u c (.chunkLzmaState u c) true
  | full : AcceptedChunk u c (.chunkLzmaFull u c 0x5D) true

/-- What the chunk's reset leaves (R247). -/
def State.resetForChunk (s : State) (reset : Bool) : State := if reset then s.resetModel else s

/-- What the chunk's `dict.set_limit` and `rc.init` leave (R142, R160): the state its `lz.decode` starts in. -/
def State.beginChunk (s : State) (usize csize : Nat) (code : Word) : State :=
  ((s.setLimit usize).advance 5).loadCoder code csize

variable {s t u w : State} {usize csize : Nat} {code : Word}

theorem exec_acceptedChunk {v : BitVec 21} {c : BitVec 16} {i : Instr} {reset : Bool} (h : AcceptedChunk v c i reset)
    (s : State) : exec i s = commit (fun _ => .ok) (lzmaChunk reset v c) s := by
  cases h <;> rfl

theorem compressedSize_lt (c : BitVec 16) : compressedSize c < 2 ^ 17 := by
  unfold compressedSize
  omega

/-! ## The reset (R247) -/

theorem chunkReset_ok {reset : Bool} (hstage : s.stage ≠ .ready) (hset : reset = true → s.limitSet = false) :
    chunkReset reset s = .ok ((), s.resetForChunk reset) := by
  cases reset
  · rfl
  · exact resetState_ok (hset rfl) hstage

theorem chunkReset_eq {reset : Bool} {a : Unit} (h : chunkReset reset s = .ok (a, t)) : t = s.resetForChunk reset := by
  cases reset
  · exact (pure_ok.1 h).2.symm
  · obtain ⟨_, u, hbetween, hreset⟩ := bind_ok.1 h
    obtain ⟨-, rfl⟩ := needBetweenChunks_ok.1 hbetween
    exact (update_ok.1 hreset).symm

@[simp] theorem resetForChunk_dict (s : State) (reset : Bool) : (s.resetForChunk reset).dict = s.dict := by
  cases reset <;> rfl

@[simp] theorem resetForChunk_inp (s : State) (reset : Bool) : (s.resetForChunk reset).inp = s.inp := by
  cases reset <;> rfl

@[simp] theorem resetForChunk_stage (s : State) (reset : Bool) : (s.resetForChunk reset).stage = s.stage := by
  cases reset <;> rfl

/-! ## `rc.init` inside a chunk (R160, R302) -/

/-- An `rc.init` that comes out has read five bytes and loaded a code. -/
theorem rcInit_loads {a : Unit} (h : rcInit csize s = .ok (a, t)) :
    5 ≤ csize ∧ s.inp.offset + 5 ≤ s.inp.size ∧ ∃ code, t = (s.advance 5).loadCoder code csize := by
  obtain ⟨hle, code, u, hheader, rfl⟩ := rcInit_ok.1 h
  obtain ⟨b1, b2, b3, b4, -, -, -, -, hlast, -⟩ := readPayloadHeader_ok.1 hheader
  obtain ⟨hroom, -, rfl⟩ := readByte_ok.1 hlast
  exact ⟨hle, hroom, code, rfl⟩

theorem rcInit_budgetExhausted (h : csize < 5) :
    rcInit csize s = .error (.raised (.budgetExhausted csize) s) := by
  rw [rcInit, if_pos (show csize < Config.rcInitBytes from h)]
  rfl

theorem rcInit_endOfInput (hle : 5 ≤ csize) (hpresent : s.InputPresent) (hlt : s.inp.size < s.inp.offset + 5) :
    ∃ t, rcInit csize s = .error (.raised (.endOfInput s.inp.size) t) := by
  obtain ⟨t, hheader⟩ := endsWithin_readPayloadHeader s hpresent hlt
  rw [rcInit_of_le hle]
  exact ⟨t, bind_error.2 (.inl hheader)⟩

theorem rcInit_nonZeroHeader {b : Byte} (hle : 5 ≤ csize) (hpresent : s.InputPresent)
    (hsize : s.inp.offset + 5 ≤ s.inp.size) (hb : s.inp.bytes.read s.inp.offset = some b) (hne : b ≠ 0) :
    ∃ t, rcInit csize s = .error (.raised (.nonZeroHeader b) t) := by
  have hbyte (k : Nat) (hk : k < 5) : ∃ b, s.inp.bytes.read (s.inp.offset + k) = some b :=
    Option.isSome_iff_exists.1 (hpresent.2 _ (by omega))
  obtain ⟨b1, h1⟩ := hbyte 1 (by decide)
  obtain ⟨b2, h2⟩ := hbyte 2 (by decide)
  obtain ⟨b3, h3⟩ := hbyte 3 (by decide)
  obtain ⟨b4, h4⟩ := hbyte 4 (by decide)
  have hheader := readPayloadHeader_of_bytes hsize hb h1 h2 h3 h4
  rw [if_neg hne] at hheader
  rw [rcInit_of_le hle]
  exact ⟨_, bind_error.2 (.inl hheader)⟩

theorem rcInit_of_bytes {b1 b2 b3 b4 : Byte} (hle : 5 ≤ csize) (hsize : s.inp.offset + 5 ≤ s.inp.size)
    (h0 : s.inp.bytes.read s.inp.offset = some 0) (h1 : s.inp.bytes.read (s.inp.offset + 1) = some b1)
    (h2 : s.inp.bytes.read (s.inp.offset + 2) = some b2) (h3 : s.inp.bytes.read (s.inp.offset + 3) = some b3)
    (h4 : s.inp.bytes.read (s.inp.offset + 4) = some b4) :
    rcInit csize s = .ok ((), (s.advance 5).loadCoder (b1 ++ b2 ++ b3 ++ b4) csize) :=
  rcInit_ok.2 ⟨hle, _, _, readPayloadHeader_of_bytes hsize h0 h1 h2 h3 h4, rfl⟩

/-! ## The completion check (R246) -/

/-- A chunk's `lz.decode` that comes out has written the chunk's bytes and read what `rc.remaining` says. -/
theorem lzDecode_beginChunk {a : Unit} (hle : 5 ≤ csize) (hlt : csize < 2 ^ 17)
    (h : lzDecode (s.beginChunk usize csize code) = .ok (a, w)) :
    w = { s with
      rc := { w.rc with budget := BitVec.ofNat 17 csize }
      lz := w.lz
      probs := w.probs
      dict := { s.dict with
        position := s.dict.position + usize
        limit := s.dict.position + usize
        historyStart := s.dict.position
        out := w.dict.out }
      inp := { s.inp with offset := s.inp.offset + (csize - w.rc.remaining.toNat) }
      stage := .decoded
      limitSet := false } ∧ w.rc.remaining.toNat + 5 ≤ csize := by
  obtain ⟨v, rfl, hv, hexit⟩ := lzDecode_decodes h
  have hremaining : (s.beginChunk usize csize code).rc.remaining.toNat = csize - 5 := Nat.mod_eq_of_lt (by omega)
  have hfewer : v.rc.remaining.toNat ≤ csize - 5 := hremaining ▸ hv.fewer
  have hspent : s.inp.offset + 5 + (csize - 5) = v.inp.offset + v.rc.remaining.toNat := hremaining ▸ hv.spent
  have hposition : v.dict.position = s.dict.position + usize := le_antisymm (hv.ordered (Nat.le_add_right ..)) hexit
  have hoffset : v.inp.offset = s.inp.offset + (csize - v.rc.remaining.toNat) := by omega
  refine ⟨?_, show v.rc.remaining.toNat + 5 ≤ csize by omega⟩
  have hframe := hv.frame
  rw [hposition, hoffset] at hframe
  exact congrArg State.markDecoded hframe

/-- Where the second test passes, the check is its first. -/
theorem checkComplete_of_dict (hdict : s.dictComplete = (true, usize)) :
    checkComplete usize csize s =
      (if s.rcComplete = (true, csize) then pure ()
        else raise (.chunkCompressedMismatch s.rcComplete.2 s.rc.code) : M Unit) s := by
  by_cases hrc : s.rcComplete = (true, csize)
  · rw [if_pos hrc]
    exact checkComplete_ok hrc hdict
  · have hfails : s.rcComplete.1 = false ∨ ¬s.rcComplete.2 = csize := by
      rw [Prod.ext_iff] at hrc
      simpa [imp_iff_not_or] using hrc
    rw [if_neg hrc]
    simp [checkComplete, bind_run, look, hfails]

/-- After a chunk's `lz.decode` the second test passes, and the first asks whether `code` is 0 and the payload consumed. -/
theorem checkComplete_beginChunk {a : Unit} (hle : 5 ≤ csize) (hlt : csize < 2 ^ 17)
    (h : lzDecode (s.beginChunk usize csize code) = .ok (a, w)) :
    checkComplete usize csize w =
      (if w.rc.code = 0 ∧ w.rc.remaining = 0 then pure ()
        else raise (.chunkCompressedMismatch (csize - w.rc.remaining.toNat) w.rc.code) : M Unit) w := by
  obtain ⟨hframe, hremaining⟩ := lzDecode_beginChunk hle hlt h
  have hdict : w.dictComplete = (true, usize) := by
    rw [hframe]
    simp [State.dictComplete]
  have hbudget : w.rc.budget.toNat = csize := by
    rw [hframe]
    exact Nat.mod_eq_of_lt hlt
  have hrc : w.rcComplete = (w.rc.code == 0, csize - w.rc.remaining.toNat) := by
    rw [State.rcComplete, BitVec.toNat_sub_of_le (BitVec.le_def.2 (by omega)), hbudget]
  have hzero : csize - w.rc.remaining.toNat = csize ↔ w.rc.remaining = 0 := by
    rw [← BitVec.toNat_inj]
    show _ ↔ w.rc.remaining.toNat = 0
    omega
  rw [checkComplete_of_dict hdict, hrc]
  simp only [Prod.mk.injEq, beq_iff_eq, hzero]

/-! ## A chunk in decode mode (R244, R246) -/

/-- Outside another chunk's `rc.init` to `lz.decode`, a chunk that fits the buffer is `rc.init`, `lz.decode` and the check
on the state its `dict.set_limit` leaves. -/
theorem decodeChunk_fits (hstage : s.stage ≠ .ready) (hfits : s.dict.position + usize ≤ s.dict.bufferSize) :
    decodeChunk usize csize s =
      (do rcInit csize; lzDecode; checkComplete usize csize : M Unit) (s.setLimit usize) := by
  rw [decodeChunk, needBeforeInit_bind hstage, bind_run, setLimit_ok (a := ()) |>.2 ⟨hfits, rfl⟩]

theorem decodeChunk_overflow (hstage : s.stage ≠ .ready) (hlarge : s.dict.bufferSize < s.dict.position + usize) :
    decodeChunk usize csize s = .error (.raised (.outputOverflow s.dict.position usize) s) :=
  (needBeforeInit_bind hstage).trans (bind_error.2 (.inl (setLimit_error.2 ⟨hlarge, rfl⟩)))

theorem decodeChunk_init_error {e : Stop} (hstage : s.stage ≠ .ready)
    (hfits : s.dict.position + usize ≤ s.dict.bufferSize) (h : rcInit csize (s.setLimit usize) = .error e) :
    decodeChunk usize csize s = .error e :=
  (decodeChunk_fits hstage hfits).trans (bind_error.2 (.inl h))

/-- With the coder loaded, a chunk is its `lz.decode` and the check. -/
theorem decodeChunk_loaded (hstage : s.stage ≠ .ready) (hfits : s.dict.position + usize ≤ s.dict.bufferSize)
    (h : rcInit csize (s.setLimit usize) = .ok ((), s.beginChunk usize csize code)) :
    decodeChunk usize csize s =
      (do lzDecode; checkComplete usize csize : M Unit) (s.beginChunk usize csize code) := by
  rw [decodeChunk_fits hstage hfits, bind_run, h]

/-- With the coder loaded and `lz.decode` come out, a chunk ends with the check's first test. -/
theorem decodeChunk_decoded {a : Unit} (hstage : s.stage ≠ .ready)
    (hfits : s.dict.position + usize ≤ s.dict.bufferSize) (hle : 5 ≤ csize) (hlt : csize < 2 ^ 17)
    (hinit : rcInit csize (s.setLimit usize) = .ok ((), s.beginChunk usize csize code))
    (hdecode : lzDecode (s.beginChunk usize csize code) = .ok (a, w)) :
    decodeChunk usize csize s =
      (if w.rc.code = 0 ∧ w.rc.remaining = 0 then pure ()
        else raise (.chunkCompressedMismatch (csize - w.rc.remaining.toNat) w.rc.code) : M Unit) w := by
  rw [decodeChunk_loaded hstage hfits hinit, bind_run, hdecode]
  exact checkComplete_beginChunk hle hlt hdecode

/-- A chunk that comes out fits the buffer, has its coder loaded and decoded, and passes the check. -/
theorem decodeChunk_completes {a : Unit} (hlt : csize < 2 ^ 17) (h : decodeChunk usize csize s = .ok (a, t)) :
    s.dict.position + usize ≤ s.dict.bufferSize ∧ s.inp.offset + 5 ≤ s.inp.size ∧ 5 ≤ csize ∧
      t.rc.remaining = 0 ∧ ∃ code, lzDecode (s.beginChunk usize csize code) = .ok ((), t) := by
  obtain ⟨_, s', hbefore, h⟩ := bind_ok.1 h
  obtain ⟨-, rfl⟩ := needBeforeInit_ok.1 hbefore
  obtain ⟨_, s', hset, h⟩ := bind_ok.1 h
  obtain ⟨hfits, rfl⟩ := setLimit_ok.1 hset
  obtain ⟨_, u, hinit, h⟩ := bind_ok.1 h
  obtain ⟨hle, hroom, code, rfl⟩ := rcInit_loads hinit
  obtain ⟨⟨⟩, w, hdecode, hcheck⟩ := bind_ok.1 h
  rw [checkComplete_beginChunk hle hlt hdecode] at hcheck
  split at hcheck
  · next hdone =>
    obtain ⟨-, rfl⟩ := pure_ok.1 hcheck
    exact ⟨hfits, hroom, hle, hdone.2, code, hdecode⟩
  · exact absurd hcheck raise_ok

/-- Settles O52: after the reset (`chunkReset_ok`) the command is `decodeChunk`, whose faults come in the order of its
operations; `decodeChunk_decoded` is its end. -/
theorem lzmaChunkDecodes : Obligations.LzmaChunkDecodes := by
  intro s u c reset i hf hmode hstage hset _ hi
  have hexec : exec i s = commit (fun _ => .ok) (lzmaChunk reset u c) s := by
    rcases hi with ⟨rfl, rfl⟩ | ⟨rfl, rfl⟩ | ⟨rfl, rfl⟩
    · exact exec_acceptedChunk .none s
    · exact exec_acceptedChunk .state s
    · exact exec_acceptedChunk .full s
  obtain ⟨x, hx⟩ : ∃ x, x = s.resetForChunk reset := ⟨_, rfl⟩
  have hdict : x.dict = s.dict := hx ▸ resetForChunk_dict s reset
  have hinp : (x.setLimit (uncompressedSize u)).inp = s.inp := hx ▸ resetForChunk_inp s reset
  have hstage' : x.stage ≠ .ready := by rwa [hx, resetForChunk_stage]
  have hchunk : lzmaChunk reset u c s = decodeChunk (uncompressedSize u) (compressedSize c) x :=
    lzmaChunk_decode hmode (hx ▸ chunkReset_ok hstage hset)
  have hraise {f : CoreFault} {t : State}
      (h : decodeChunk (uncompressedSize u) (compressedSize c) x = .error (.raised f t)) :
      ∃ t, exec i s = .next t ∧ t.fault = some f :=
    ⟨_, hexec.trans (commit_raised hf (hchunk.trans h)), rfl⟩
  refine ⟨fun hlarge => ?_, fun hfits => ?_⟩
  · rw [← hdict] at hlarge ⊢
    exact hraise (decodeChunk_overflow hstage' hlarge)
  · rw [← hdict] at hfits
    refine ⟨fun hshort => ?_, fun hle hpresent hlt => ?_, fun b hle hpresent hsize hb hne => ?_,
      fun v b1 b2 b3 b4 hle hsize h0 h1 h2 h3 h4 hv => ?_⟩
    · exact hraise (decodeChunk_init_error hstage' hfits (rcInit_budgetExhausted hshort))
    · rw [← hinp] at hlt ⊢
      obtain ⟨t, hinit⟩ := rcInit_endOfInput hle (by rwa [State.InputPresent, hinp]) hlt
      exact hraise (decodeChunk_init_error hstage' hfits hinit)
    · rw [← hinp] at hsize hb
      obtain ⟨t, hinit⟩ := rcInit_nonZeroHeader hle (by rwa [State.InputPresent, hinp]) hsize hb hne
      exact hraise (decodeChunk_init_error hstage' hfits hinit)
    · have hbegin : v = x.beginChunk (uncompressedSize u) (compressedSize c) (b1 ++ b2 ++ b3 ++ b4) := by
        rw [hv, hx]
        cases reset <;> rfl
      rw [← hinp] at hsize h0 h1 h2 h3 h4
      have hinit := rcInit_of_bytes hle hsize h0 h1 h2 h3 h4
      rw [hbegin]
      refine ⟨fun f w hdecode => ?_, fun w hdecode => ?_⟩
      · exact hraise ((decodeChunk_loaded hstage' hfits hinit).trans (bind_error.2 (.inl hdecode)))
      · have hend := decodeChunk_decoded hstage' hfits hle (compressedSize_lt c) hinit hdecode
        refine ⟨fun hcode hremaining => ?_, fun hmismatch => ?_⟩
        · rw [if_pos ⟨hcode, hremaining⟩] at hend
          exact hexec.trans (commit_ok hf (hchunk.trans hend))
        · rw [if_neg hmismatch] at hend
          exact hraise hend

/-! ## A chunk in size-query mode (R250) -/

theorem lzmaChunk_sizeQuery (hmode : s.mode = .sizeQuery) (reset : Bool) (v : BitVec 21) (c : BitVec 16) :
    lzmaChunk reset v c s = skipChunk (uncompressedSize v) (compressedSize c) s := by
  simp [lzmaChunk, bind_run, look, hmode]

/-- The bytes of a view inside `IN` are there. -/
theorem exists_viewBytes {m : Mem} {size n a : Nat} (hm : ∀ a, a < size → (m.read a).isSome) (h : a + n ≤ size) :
    ∃ bs, viewBytes m a n = some bs := by
  induction n generalizing a with
  | zero => exact ⟨[], rfl⟩
  | succ n ih =>
    obtain ⟨b, hb⟩ := Option.isSome_iff_exists.1 (hm a (by omega))
    obtain ⟨bs, hbs⟩ := ih (a := a + 1) (by omega)
    exact ⟨b :: bs, by rw [viewBytes, hb, hbs]; rfl⟩

theorem skipChunk_ok (hpresent : s.InputPresent) (hle : s.inp.offset + csize ≤ s.inp.size) :
    skipChunk usize csize s = .ok ((), (s.advance csize).addTally usize) := by
  obtain ⟨bs, hbs⟩ := exists_viewBytes hpresent.2 hle
  exact bind_ok.2 ⟨bs, _, reserve_ok.2 ⟨hle, hbs, rfl⟩, rfl⟩

/-- An accepted command in size-query mode with its payload in `IN` skips it and adds its size to the tally. -/
theorem exec_acceptedChunk_sizeQuery {v : BitVec 21} {c : BitVec 16} {i : Instr} {reset : Bool}
    (h : AcceptedChunk v c i reset) (hf : s.fault = none) (hmode : s.mode = .sizeQuery) (hpresent : s.InputPresent)
    (hle : s.inp.offset + compressedSize c ≤ s.inp.size) :
    exec i s =
      .next (((s.advance (compressedSize c)).addTally (uncompressedSize v)).giveBack .ok) :=
  (exec_acceptedChunk h s).trans <|
    commit_ok hf ((lzmaChunk_sizeQuery hmode reset v c).trans (skipChunk_ok hpresent hle))

/-- Settles O53: `exec_acceptedChunk_sizeQuery`, the view that is too long (`reserve_error`), and
`exec_chunkEnd_sizeQuery`. -/
theorem lzmaChunkSizeQuery : Obligations.LzmaChunkSizeQuery := by
  refine ⟨fun s u c i hf hmode hpresent hi => ?_, fun s hf hmode => exec_chunkEnd_sizeQuery hf hmode⟩
  obtain ⟨reset, haccepted⟩ : ∃ reset, AcceptedChunk u c i reset := by
    rcases hi with rfl | rfl | rfl
    · exact ⟨_, .none⟩
    · exact ⟨_, .state⟩
    · exact ⟨_, .full⟩
  refine ⟨exec_acceptedChunk_sizeQuery haccepted hf hmode hpresent, fun hlt => ?_⟩
  have hskip : lzmaChunk reset u c s = .error (.raised (.endOfInput s.inp.offset) s) :=
    (lzmaChunk_sizeQuery hmode reset u c).trans (bind_error.2 (.inl (reserve_error.2 (.inl ⟨hlt, rfl⟩))))
  exact ⟨_, (exec_acceptedChunk haccepted s).trans (commit_raised hf hskip), rfl⟩

end Sys2Proof.Machine

/-! # Decoding and the size query side by side (spec/44_lzma2_chunk_commands.md R250, decision D32)

A decoding state and a size-query state over the same input are related by `CountedBy`. A chunk that decodes without a fault
moves the position by its size and `in.offset` past its payload, which is what skipping it does to the tally and to
`in.offset` (`decodeChunk_frame`); decoding never reads past the end of `IN` (`KeepsInput`), so the payload is there to be
skipped. -/

namespace Sys2Proof.Machine

variable {α : Type} {s t u q : State} {usize csize : Nat}

/-! ## Decoding stays inside `IN` (R39) -/

/-- An operation that ends in a value leaves `in.offset` inside an input that is there. -/
abbrev KeepsInput (m : M α) : Prop := Ends State.InputPresent m fun _ => State.InputPresent

theorem State.InputPresent.of_inp_eq (h : s.InputPresent) (hinp : t.inp = s.inp) : t.InputPresent := by
  rwa [State.InputPresent, hinp]

theorem State.InputPresent.advance {n : Nat} (h : s.InputPresent) (hle : s.inp.offset + n ≤ s.inp.size) :
    (s.advance n).InputPresent := ⟨hle, h.2⟩

theorem keepsInput_of_inp_eq {m : M α} (h : ∀ {s a t}, m s = .ok (a, t) → t.inp = s.inp) : KeepsInput m :=
  fun _ hs _ _ hm => hs.of_inp_eq (h hm)

theorem keepsInput_normalize : KeepsInput normalize := by
  intro s hs a t h
  rcases normalize_ok.1 h with ⟨-, rfl⟩ | ⟨-, -, b, hread, rfl⟩
  · exact hs
  · exact hs.advance (readByte_ok.1 hread).1

theorem keepsInput_decodeBit (c : Cell) : KeepsInput (decodeBit c) := by
  intro s hs b t h
  obtain ⟨u, hu, -, rfl⟩ := decodeBit_ok.1 h
  exact (keepsInput_normalize s hs _ u hu).of_inp_eq (State.decided_inp ..)

theorem keepsInput_decodeDirectBit : KeepsInput decodeDirectBit := by
  intro s hs b t h
  obtain ⟨u, hu, -, rfl⟩ := decodeDirectBit_ok.1 h
  exact (keepsInput_normalize s hs _ u hu).of_inp_eq rfl

theorem keepsInput_run (d : Dec α) : KeepsInput d.run := run_keeps keepsInput_decodeBit keepsInput_decodeDirectBit d

theorem copyFrom_inp {lz : Engine} {n : Nat} {a : Unit} (h : copyFrom lz n s = .ok (a, t)) : t.inp = s.inp := by
  rw [copyBytes_changes_dict (copyFrom_ok.1 h)]
  rfl

theorem applyPacket_inp {p : Packet} {a : Unit} (h : applyPacket p s = .ok (a, t)) : t.inp = s.inp := by
  obtain ⟨_, s', hroom, h⟩ := bind_ok.1 h
  obtain ⟨-, rfl⟩ := needRoom_ok.1 hroom
  obtain ⟨lz, s', hlook, h⟩ := bind_ok.1 h
  obtain ⟨rfl, rfl⟩ := look_ok.1 hlook
  cases p
  case lit b =>
    obtain ⟨_, v, hput, h⟩ := bind_ok.1 h
    obtain rfl := update_ok.1 h
    obtain ⟨-, hput⟩ := putLiteral_ok.1 hput
    obtain ⟨-, rfl⟩ := appendByte_ok.1 hput
    rfl
  case matchNew len dist =>
    obtain ⟨_, s', hlook, h⟩ := bind_ok.1 h
    obtain ⟨rfl, rfl⟩ := look_ok.1 hlook
    split at h
    · exact absurd h raise_ok
    · exact copyFrom_inp h
  all_goals exact copyFrom_inp h

theorem keepsInput_packetBody (k : PacketKind) : KeepsInput (packetBody k) :=
  Ends.bind (keepsInput_of_inp_eq fun h => by rw [sampleContext_ok h]) fun _ =>
    Ends.bind (keepsInput_run _) fun _ => keepsInput_of_inp_eq applyPacket_inp

theorem keepsInput_look (f : State → α) : KeepsInput (look f) :=
  keepsInput_of_inp_eq fun h => by rw [(look_ok.1 h).2]

theorem keepsInput_onePacket : KeepsInput onePacket :=
  Ends.bind (keepsInput_look _) fun _ => Ends.bind (keepsInput_run _) fun k => keepsInput_packetBody k

theorem keepsInput_packetLoop (n : Nat) : KeepsInput (packetLoop n) := by
  induction n with
  | zero => exact keepsInput_of_inp_eq fun h => by rw [(pure_ok.1 h).2]
  | succ n ih =>
    refine Ends.bind keepsInput_onePacket fun _ => Ends.bind (keepsInput_look _) fun full => ?_
    cases full
    · exact ih
    · exact keepsInput_of_inp_eq fun h => by rw [(pure_ok.1 h).2]

theorem keepsInput_lzDecode : KeepsInput lzDecode :=
  Ends.bind (keepsInput_look _) fun _ => Ends.bind (keepsInput_packetLoop _) fun _ =>
    Ends.bind keepsInput_normalize fun _ => keepsInput_of_inp_eq fun h => by rw [← update_ok.1 h]; rfl

/-! ## A chunk that decodes -/

/-- An accepted chunk that comes out in decode mode is its decoding, on the state its reset leaves. -/
theorem lzmaChunk_decode_ok {v : BitVec 21} {c : BitVec 16} {reset : Bool} {a : Unit} (hmode : s.mode = .decode)
    (h : lzmaChunk reset v c s = .ok (a, t)) :
    decodeChunk (uncompressedSize v) (compressedSize c) (s.resetForChunk reset) = .ok (a, t) := by
  obtain ⟨mode, s', hlook, h⟩ := bind_ok.1 h
  obtain ⟨rfl, rfl⟩ := look_ok.1 hlook
  rw [hmode] at h
  obtain ⟨_, x, hreset, h⟩ := bind_ok.1 h
  rwa [← chunkReset_eq hreset]

/-- A chunk that comes out has written its bytes and read its payload, and changes nothing else of the chunk loop. -/
theorem decodeChunk_frame {a : Unit} (hlt : csize < 2 ^ 17) (h : decodeChunk usize csize s = .ok (a, t)) :
    t = { s with
      rc := t.rc
      lz := t.lz
      probs := t.probs
      dict := { s.dict with
        position := s.dict.position + usize
        limit := s.dict.position + usize
        historyStart := s.dict.position
        out := t.dict.out }
      inp := { s.inp with offset := s.inp.offset + csize }
      stage := .decoded
      limitSet := false } := by
  obtain ⟨-, -, hle, hremaining, code, hdecode⟩ := decodeChunk_completes hlt h
  obtain ⟨hframe, -⟩ := lzDecode_beginChunk hle hlt hdecode
  have hbudget : ({ t.rc with budget := BitVec.ofNat 17 csize } : RangeCoder) = t.rc :=
    (congrArg State.rc hframe).symm
  rwa [hbudget, hremaining] at hframe

theorem keepsInput_decodeChunk (hlt : csize < 2 ^ 17) : KeepsInput (decodeChunk usize csize) := by
  intro s hs a t h
  obtain ⟨-, hroom, -, -, code, hdecode⟩ := decodeChunk_completes hlt h
  have hbegin : (s.beginChunk usize csize code).InputPresent := hs.advance hroom
  exact keepsInput_lzDecode _ hbegin _ t hdecode

/-! ## The relation and the step -/

/-- A decoding state `s` and a size-query state `q` at the same place of the same input, the tally the length decoded. -/
structure CountedBy (s q : State) : Prop where
  fault : s.fault = none
  queryFault : q.fault = none
  mode : s.mode = .decode
  queryMode : q.mode = .sizeQuery
  inp : s.inp = q.inp
  present : s.InputPresent
  ordered : s.PositionsOrdered
  issued : s.issued = []
  queryIssued : q.issued = []
  loop : s.loop = q.loop
  tally : q.tally = s.dict.position

theorem CountedBy.advance {n : Nat} (h : CountedBy s q) (hle : s.inp.offset + n ≤ s.inp.size) :
    CountedBy (s.advance n) (q.advance n) :=
  { h with
    inp := by simp only [State.advance_inp, h.inp]
    present := h.present.advance hle }

theorem CountedBy.resetForChunk (h : CountedBy s q) (reset : Bool) : CountedBy (s.resetForChunk reset) q := by
  cases reset
  · exact h
  · exact { h with }

/-- A chunk decoded on the one side and skipped on the other. -/
theorem CountedBy.decodeChunk {a : Unit} (h : CountedBy s q) (hlt : csize < 2 ^ 17)
    (hchunk : decodeChunk usize csize s = .ok (a, t)) :
    CountedBy (t.giveBack .ok) (((q.advance csize).addTally usize).giveBack .ok) := by
  obtain ⟨hfits, -⟩ := decodeChunk_completes hlt hchunk
  have hpresent : (t.giveBack .ok).InputPresent := keepsInput_decodeChunk hlt s h.present a t hchunk
  rw [decodeChunk_frame hlt hchunk] at hpresent ⊢
  exact { h with
    inp := by simp only [State.giveBack_inp, State.addTally_inp, State.advance_inp, h.inp]
    present := hpresent
    ordered := ⟨le_rfl, hfits⟩
    tally := congrArg (· + usize) h.tally }

/-- An outcome of the size query that keeps up with the state `t` decoding has reached. -/
def FollowedBy (t : State) (o : Outcome) : Prop :=
  ∃ q, o = .next q ∧ CountedBy t q ∧ (t.loop = .returned → q.result = t.result)

theorem followedBy_chunkEnd (h : CountedBy s q) (hnext : exec .chunkEnd s = .next t) :
    FollowedBy t (exec .chunkEnd q) := by
  rw [exec_chunkEnd_decode h.fault h.mode] at hnext
  cases hnext
  refine ⟨_, exec_chunkEnd_sizeQuery h.queryFault h.queryMode, { h with loop := rfl }, fun _ => ?_⟩
  rw [h.tally]
  rfl

theorem followedBy_acceptedChunk {v : BitVec 21} {c : BitVec 16} {i : Instr} {reset : Bool}
    (hi : AcceptedChunk v c i reset) (h : CountedBy s q) (hnext : exec i s = .next t) (hnone : t.fault = none) :
    FollowedBy t (exec i q) := by
  rw [exec_acceptedChunk hi] at hnext
  obtain ⟨-, ⟨⟨⟩, w, hrun, rfl⟩ | ⟨f, w, -, rfl⟩⟩ := commit_next.1 hnext
  · have hcounted := (h.resetForChunk reset).decodeChunk (compressedSize_lt c) (lzmaChunk_decode_ok h.mode hrun)
    have hpresent : q.InputPresent := h.present.of_inp_eq h.inp.symm
    have hroom : q.inp.offset + compressedSize c ≤ q.inp.size :=
      (hcounted.present.of_inp_eq hcounted.inp.symm).1
    exact ⟨_, exec_acceptedChunk_sizeQuery hi h.queryFault h.queryMode hpresent hroom, hcounted, fun _ => rfl⟩
  · cases hnone

theorem rejectControl_next_fault {control : Byte} (h : rejectControl control s = .next t) : t.fault ≠ none := by
  obtain ⟨-, ⟨a, w, hrun, -⟩ | ⟨f, w, -, rfl⟩⟩ := commit_next.1 h
  · exact absurd hrun raise_ok
  · exact Option.some_ne_none f

/-- Of the chunk commands, CHUNK.END and the accepted ones are followed, the others take a fault. -/
theorem followedBy_chunk {i : Instr} {n : Nat} (hi : chunkRowOf i = some n) (h : CountedBy s q)
    (hnext : exec i s = .next t) (hnone : t.fault = none) : FollowedBy t (exec i q) := by
  cases i
  case chunkEnd => exact followedBy_chunkEnd h hnext
  case chunkRawReset | chunkRaw | chunkReserved03 | chunkReserved04 | chunkReserved08 | chunkReserved10
    | chunkReserved20 | chunkReserved40 => exact absurd hnone (rejectControl_next_fault hnext)
  case chunkLzmaNone u c => exact followedBy_acceptedChunk .none h hnext hnone
  case chunkLzmaState u c => exact followedBy_acceptedChunk .state h hnext hnone
  case chunkLzmaProps u c =>
    rw [exec_chunkLzmaProps h.fault] at hnext
    cases hnext
    cases hnone
  case chunkLzmaFull u c props =>
    by_cases hprops : props = 0x5D
    · subst hprops
      exact followedBy_acceptedChunk .full h hnext hnone
    · rw [exec_chunkLzmaFull_badProperties h.fault u c hprops] at hnext
      cases hnext
      cases hnone
  all_goals cases hi

/-- The bytes of `IN` decode to chunk commands only. -/
theorem chunkRowOf_decodeBytes {bs rest : List Byte} {i : Instr} (h : decodeBytes bs = .ok (i, rest)) :
    ∃ n, chunkRowOf i = some n := by
  cases bs with
  | nil => cases h
  | cons control bs =>
    obtain ⟨n, -, hi, -⟩ := decodeBytes_row control bs i rest h
    exact ⟨n, hi⟩

/-- One step of the chunk loop: both sides fetch the same header, from the same bytes. -/
theorem followedBy_step (h : CountedBy s q) (hnext : step s = .next t) (hnone : t.fault = none) :
    FollowedBy t (step q) := by
  cases hloop : s.loop with
  | returned =>
    rw [step_of_fetch_error (fetch_returned h.issued h.fault hloop)] at hnext
    cases hnext
  | running =>
    cases hdecode : decodeBytes s.window with
    | error e =>
      have hcut := (fetch_running h.issued h.fault hloop).trans (fetchHeader_cut h.present hdecode)
      rw [step_of_fetch_error hcut] at hnext
      cases hnext
      cases hnone
    | ok r =>
      obtain ⟨i, rest⟩ := r
      obtain ⟨n, hi⟩ := chunkRowOf_decodeBytes hdecode
      have hwindow : q.window = s.window := by rw [State.window, State.window, h.inp]
      have hlength := window_length h.present
      have hle := h.present.1
      rw [step_decoded h.issued h.fault hloop hdecode] at hnext
      rw [step_decoded h.queryIssued h.queryFault (h.loop.symm.trans hloop) (hwindow ▸ hdecode), hwindow]
      exact followedBy_chunk hi (h.advance (by omega)) hnext hnone

/-- Settles O60: `followedBy_step`, its relation taken apart. -/
theorem sizeQueryFollowsDecode : Obligations.SizeQueryFollowsDecode := by
  intro s q s' hf hqf hmode hqmode hinp hpresent hordered hissued hqissued hloop htally hnext hnone
  obtain ⟨q', hstep, h, hresult⟩ := followedBy_step
    ⟨hf, hqf, hmode, hqmode, hinp, hpresent, hordered, hissued, hqissued, hloop, htally⟩ hnext hnone
  exact ⟨q', hstep, h.queryFault, h.mode, h.queryMode, h.inp, h.present, h.ordered, h.issued, h.queryIssued, h.loop,
    h.tally, hresult⟩

end Sys2Proof.Machine

/-! # The completion check's second test (spec/44_lzma2_chunk_commands.md R246, spec/60_exceptions.md R292)

That an operation never raises `ChunkUncompressedMismatch`, and leaves the `fault` register alone where it comes out, composes
like its sequence (`Spares.bind`). No operation but the completion check names the fault, and the check would raise it only
where the chunk's `lz.decode` had stopped short of its limit, which it never has (`checkComplete_beginChunk`). -/

namespace Sys2Proof.Machine

variable {α β : Type} {s t : State}

/-- An operation that comes out leaves `fault` as it was, and one that stops raises no `ChunkUncompressedMismatch`. -/
structure Spares (m : M α) : Prop where
  keeps : ∀ {s a t}, m s = .ok (a, t) → t.fault = s.fault
  other : ∀ {s t n}, m s ≠ .error (.raised (.chunkUncompressedMismatch n) t)

/-! ## How it composes -/

theorem Spares.bind {m : M α} {k : α → M β} (hm : Spares m) (hk : ∀ a, Spares (k a)) : Spares (m >>= k) where
  keeps h := by
    obtain ⟨a, t, h₁, h₂⟩ := bind_ok.1 h
    exact ((hk a).keeps h₂).trans (hm.keeps h₁)
  other h := by
    rcases bind_error.1 h with h | ⟨a, t, -, h⟩
    · exact hm.other h
    · exact (hk a).other h

theorem Spares.pure (a : α) : Spares (Pure.pure a : M α) := ⟨fun h => by rw [(pure_ok.1 h).2], pure_error⟩

theorem Spares.look (f : State → α) : Spares (Machine.look f) := ⟨fun h => by rw [(look_ok.1 h).2], look_error⟩

theorem Spares.update {f : State → State} (h : ∀ s, (f s).fault = s.fault) : Spares (Machine.update f) :=
  ⟨fun hm => by rw [← update_ok.1 hm, h], update_error⟩

theorem Spares.raise {f : CoreFault} (h : ∀ n, f ≠ .chunkUncompressedMismatch n) : Spares (Machine.raise f : M α) :=
  ⟨fun hm => absurd hm raise_ok, fun hm => by cases raise_error.1 hm; exact h _ rfl⟩

theorem Spares.refuse (r : Refusal) : Spares (Machine.refuse r : M α) :=
  ⟨fun hm => absurd hm refuse_ok, fun hm => by cases refuse_error.1 hm⟩

theorem Spares.ite {c : Prop} [Decidable c] {m m' : M α} (h : Spares m) (h' : Spares m') :
    Spares (if c then m else m') := by
  split
  · exact h
  · exact h'

/-- A test of the state that refuses or goes on. -/
theorem Spares.refuse_if {c : State → Prop} [∀ s, Decidable (c s)] {r : Refusal} :
    Spares fun s => if c s then Machine.refuse r s else .ok ((), s) where
  keeps h := by
    split at h <;> cases h
    rfl
  other h := by split at h <;> cases h

/-! ## The order of operations, the cursor and the dictionary -/

theorem spares_needRc : Spares needRc := .refuse_if

theorem spares_needBeforeInit : Spares needBeforeInit := .refuse_if

theorem spares_needBetweenChunks : Spares needBetweenChunks := .refuse_if

theorem spares_needLimit : Spares needLimit where
  keeps h := by rw [(needLimit_ok.1 h).2]
  other h := by
    unfold needLimit at h
    split at h <;> cases h

theorem spares_needChunk : Spares needChunk where
  keeps h := by rw [(needChunk_ok.1 h).2]
  other h := by
    unfold needChunk at h
    split at h
    · cases h
    · split at h <;> cases h
    · cases h

theorem spares_require (ok : Bool) (r : Refusal) : Spares (require ok r) := .ite (.pure ()) (.refuse r)

theorem spares_readByte : Spares readByte where
  keeps h := by rw [(readByte_ok.1 h).2.2]; rfl
  other h := by rcases readByte_error.1 h with ⟨-, h⟩ | ⟨-, -, h⟩ <;> cases h

theorem spares_reserve (n : Nat) : Spares (reserve n) where
  keeps h := by rw [(reserve_ok.1 h).2.2]; rfl
  other h := by rcases reserve_error.1 h with ⟨-, h⟩ | ⟨-, -, h⟩ <;> cases h

theorem spares_padByte : Spares padByte :=
  .bind (.look _) fun _ => .bind spares_readByte fun _ => .ite (.pure ()) (.raise nofun)

theorem spares_padBytes (n : Nat) : Spares (padBytes n) := by
  induction n with
  | zero => exact .pure ()
  | succ n ih => exact .bind (.look _) fun _ => .ite (.pure ()) (.bind spares_padByte fun _ => ih)

theorem spares_readOut (a : Nat) : Spares (readOut a) where
  keeps h := by rw [(readOut_ok.1 h).2.2]
  other h := by rcases readOut_error.1 h with ⟨-, -, h⟩ | ⟨-, h⟩ <;> cases h

theorem spares_appendByte (b : Byte) : Spares (appendByte b) where
  keeps h := by rw [(appendByte_ok.1 h).2]; rfl
  other h := by cases (appendByte_error.1 h).2

theorem spares_setLimit (n : Nat) : Spares (setLimit n) where
  keeps h := by rw [(setLimit_ok.1 h).2]; rfl
  other h := by cases (setLimit_error.1 h).2

theorem spares_needRoom : Spares needRoom where
  keeps h := by rw [(needRoom_ok.1 h).2]
  other h := by cases (needRoom_error.1 h).2

theorem spares_putLiteral (b : Byte) : Spares (putLiteral b) where
  keeps h := (spares_appendByte b).keeps (putLiteral_ok.1 h).2
  other h := by
    rcases putLiteral_error.1 h with ⟨-, h⟩ | ⟨-, h⟩
    · cases h
    · exact (spares_appendByte b).other h

theorem spares_copyByte (d : Nat) : Spares (copyByte d) where
  keeps h := by
    obtain ⟨-, -, b, -, happend⟩ := copyByte_ok.1 h
    exact (spares_appendByte b).keeps happend
  other h := by
    unfold copyByte at h
    split at h
    · cases h
    · split at h
      · cases h
      · exact (Spares.bind (spares_readOut _) spares_appendByte).other h

theorem spares_copyBytes (d n : Nat) : Spares (copyBytes d n) := by
  induction n with
  | zero => exact .pure ()
  | succ n ih => exact .bind (spares_copyByte d) fun _ => ih

theorem spares_copyMatch (d n : Nat) : Spares (copyMatch d n) := .ite (.refuse _) (spares_copyBytes d n)

theorem spares_byteAt (d : Nat) : Spares (byteAt d) where
  keeps h := by rw [(byteAt_ok.1 h).2.1]
  other h := by
    rcases byteAt_error.1 h with ⟨-, h⟩ | ⟨-, -, h⟩
    · cases h
    · exact (spares_readOut _).other h

/-! ## The range coder -/

theorem spares_readPayloadHeader : Spares readPayloadHeader :=
  .bind spares_readByte fun _ => .bind spares_readByte fun _ => .bind spares_readByte fun _ =>
    .bind spares_readByte fun _ => .bind spares_readByte fun _ => .ite (.pure _) (.raise nofun)

theorem spares_rcInit (n : Nat) : Spares (rcInit n) :=
  .ite (.raise nofun) (.bind spares_readPayloadHeader fun _ => .update fun _ => rfl)

theorem spares_normalize : Spares normalize where
  keeps h := (normalize_frame h).fault
  other h := by
    obtain ⟨-, ⟨-, h⟩ | ⟨-, h⟩⟩ := normalize_error.1 h
    · cases h
    · exact spares_readByte.other h

theorem spares_decodeBit (c : Cell) : Spares (decodeBit c) :=
  ⟨fun h => (decodeBit_frame h).fault, fun h => spares_normalize.other (decodeBit_error.1 h)⟩

theorem spares_decodeDirectBit : Spares decodeDirectBit :=
  ⟨fun h => (decodeDirectBit_frame h).fault, fun h => spares_normalize.other (decodeDirectBit_error.1 h)⟩

theorem spares_run (d : Dec α) : Spares d.run := by
  induction d with
  | ret a => exact .pure a
  | decide c k ih => exact .bind (spares_decodeBit c) ih
  | direct k ih => exact .bind spares_decodeDirectBit ih

/-! ## Packets -/

theorem spares_litContext : Spares litContext :=
  .bind (.look _) fun _ => .bind (spares_byteAt 1) fun _ =>
    .ite (.pure _) (.bind (.look _) fun _ => .bind (spares_byteAt _) fun _ => .pure _)

theorem spares_sampleContext (k : PacketKind) : Spares (sampleContext k) := by
  cases k
  case lit => exact spares_litContext
  all_goals exact .look _

theorem spares_copyFrom (lz : Engine) (n : Nat) : Spares (copyFrom lz n) :=
  .bind (.update fun _ => rfl) fun _ => spares_copyMatch _ n

theorem spares_applyPacket (p : Packet) : Spares (applyPacket p) := by
  refine .bind spares_needRoom fun _ => .bind (.look _) fun lz => ?_
  cases p
  case lit b => exact .bind (spares_putLiteral b) fun _ => .update fun _ => rfl
  case matchNew len dist => exact .bind (.look _) fun _ => .ite (.raise nofun) (spares_copyFrom _ len)
  all_goals exact spares_copyFrom _ _

theorem spares_packetBody (k : PacketKind) : Spares (packetBody k) :=
  .bind (spares_sampleContext k) fun _ => .bind (spares_run _) spares_applyPacket

theorem spares_packetLoop (n : Nat) : Spares (packetLoop n) := by
  induction n with
  | zero => exact .pure ()
  | succ n ih =>
    have hpacket : Spares onePacket := .bind (.look _) fun _ => .bind (spares_run _) spares_packetBody
    exact .bind hpacket fun _ => .bind (.look _) fun _ => .ite (.pure ()) ih

theorem spares_lzDecode : Spares lzDecode :=
  .bind (.look _) fun _ => .bind (spares_packetLoop _) fun _ => .bind spares_normalize fun _ => .update fun _ => rfl

theorem spares_resetState : Spares resetState := .bind spares_needBetweenChunks fun _ => .update fun _ => rfl

/-! ## Chunks -/

theorem spares_chunkEnd : Spares chunkEnd := .bind (.update fun _ => rfl) fun _ => .look _

/-- The check after a chunk's own `lz.decode` fails by its first test, if at all. -/
theorem spares_decodeChunk (usize : Nat) {csize : Nat} (hlt : csize < 2 ^ 17) : Spares (decodeChunk usize csize) where
  keeps h := by rw [decodeChunk_frame hlt h]
  other h := by
    rcases bind_error.1 h with h | ⟨_, _, -, h⟩
    · exact spares_needBeforeInit.other h
    rcases bind_error.1 h with h | ⟨_, _, hset, h⟩
    · exact (spares_setLimit usize).other h
    obtain ⟨-, rfl⟩ := setLimit_ok.1 hset
    rcases bind_error.1 h with h | ⟨_, _, hinit, h⟩
    · exact (spares_rcInit csize).other h
    obtain ⟨hle, -, code, rfl⟩ := rcInit_loads hinit
    rcases bind_error.1 h with h | ⟨_, w, hdecode, h⟩
    · exact spares_lzDecode.other h
    rw [checkComplete_beginChunk hle hlt hdecode] at h
    exact (Spares.ite (.pure ()) (.raise (by nofun))).other h

theorem spares_lzmaChunk (reset : Bool) (u : BitVec 21) (c : BitVec 16) : Spares (lzmaChunk reset u c) := by
  refine .bind (.look _) fun mode => ?_
  cases mode with
  | decode =>
    have hreset : Spares (chunkReset reset) := .ite spares_resetState (.pure ())
    exact .bind hreset fun _ => spares_decodeChunk _ (compressedSize_lt c)
  | sizeQuery => exact .bind (spares_reserve _) fun _ => .update fun _ => rfl

/-! ## The instructions -/

/-- An outcome that is no state with `ChunkUncompressedMismatch` taken. -/
def SparedOutcome (o : Outcome) : Prop := ∀ t n, o = .next t → t.fault ≠ some (.chunkUncompressedMismatch n)

/-- The fault of an operation's outcome is one it raised. -/
theorem commit_spared {ret : α → Result} {m : M α} (hm : Spares m) : SparedOutcome (commit ret m s) := by
  intro t n h hfault
  obtain ⟨hf, ⟨a, u, hrun, rfl⟩ | ⟨f, u, hrun, rfl⟩⟩ := commit_next.1 h
  · have hnone : u.fault = none := (hm.keeps hrun).trans hf
    cases hnone.symm.trans hfault
  · cases hfault
    exact hm.other hrun

theorem commit_needRc_spared {ret : α → Result} {m : M α} (hm : Spares m) :
    SparedOutcome (commit ret (do needRc; m) s) :=
  commit_spared (.bind spares_needRc fun _ => hm)

theorem rejectControl_spared (control : Byte) : SparedOutcome (rejectControl control s) :=
  commit_spared (.raise nofun)

theorem execConstruct_spared (input : List Byte) (params : Params) (s : State) :
    SparedOutcome (execConstruct input params s) := by
  intro t n h
  unfold execConstruct at h
  split at h <;> cases h
  exact nofun

/-- No instruction takes `ChunkUncompressedMismatch`, whatever the state. -/
theorem exec_spared (i : Instr) (s : State) : SparedOutcome (exec i s) := by
  cases i with
  | chunkEnd => exact commit_spared spares_chunkEnd
  | chunkRawReset | chunkRaw | chunkReserved03 | chunkReserved04 | chunkReserved08 | chunkReserved10
  | chunkReserved20 | chunkReserved40 => exact rejectControl_spared _
  | chunkLzmaProps => exact commit_spared (ret := fun _ : Unit => .ok) (.raise (f := .unsupportedReset _) nofun)
  | chunkLzmaNone u c | chunkLzmaState u c => exact commit_spared (spares_lzmaChunk _ u c)
  | chunkLzmaFull u c props => exact commit_spared (.ite (spares_lzmaChunk true u c) (.raise (by nofun)))
  | packetLit | packetMatch | packetLongRep0 | packetLongRep1 | packetLongRep2 | packetLongRep3 =>
    exact commit_needRc_spared (spares_packetBody _)
  | packetShortRep => exact commit_spared (spares_packetBody _)
  | distSlot0To3 slot =>
    exact commit_spared (ret := fun d : Word => .value d.toNat) (spares_run (distLowTree (slot.setWidth 6)))
  | lenLow | lenMid | lenHigh | distSlot4To13 | distSlot14To63 | rcDecodeDirect | rcDecodeTree | rcDecodeReverseTree
  | rcDecodeMatchedLiteral | lzDecodeLength | lzDecodeDistance => exact commit_needRc_spared (spares_run _)
  | construct input params => exact execConstruct_spared input params s
  | inReadByte => exact commit_spared spares_readByte
  | inReserve n => exact commit_spared (spares_reserve n)
  | inAlign4 => exact commit_spared (spares_padBytes 3)
  | dictInit size => exact commit_spared (.bind (spares_require _ _) fun _ => .update fun _ => rfl)
  | dictSetLimit n => exact commit_spared (.bind spares_needBeforeInit fun _ => spares_setLimit n)
  | dictPutLiteral b => exact commit_spared (spares_putLiteral b)
  | dictCopyMatch d n => exact commit_spared (spares_copyMatch d n)
  | dictByteAt d => exact commit_spared (spares_byteAt d)
  | dictIsComplete => exact commit_spared (ret := fun r : Bool × Nat => .query r.1 r.2) (.look State.dictComplete)
  | rcInit n => exact commit_spared (.bind spares_needLimit fun _ => spares_rcInit _)
  | rcNormalize => exact commit_needRc_spared spares_normalize
  | rcDecodeBit c => exact commit_needRc_spared (spares_decodeBit c)
  | rcIsComplete => exact commit_needRc_spared (.look _)
  | lzDecode => exact commit_spared (.bind spares_needChunk fun _ => spares_lzDecode)
  | lzResetState => exact commit_spared spares_resetState

/-- Settles O54: `exec_spared`. -/
theorem uncompressedMismatchUnreachable : Obligations.UncompressedMismatchUnreachable :=
  fun i s t n _ _ h => exec_spared i s t n h

end Sys2Proof.Machine

/-! # Faults (spec/60_exceptions.md R291, R292, R304)

A packet's instruction raises a fault in one of two places: in a decision of its operands, where only the range coder
raises one (`run_raises`), or in its effect, where R292 lists one row for each packet type (`EffectFault`). The row is
checked once, against the effect (`applyPacket_raises`), and the decoding between leaves the dictionary as the packet
found it. -/

namespace Sys2Proof.Machine

variable {α : Type} {s t u : State} {f : CoreFault}

/-! ## After a fault (R304), and the fault table (R291) -/

theorem rejectControl_faulted (control : Byte) (hf : s.fault ≠ none) :
    rejectControl control s = .refused .afterFault := by
  rw [rejectControl, commit_faulted hf]

/-- Settles O11: every instruction but `construct` is an operation issued to the CORE (`commit_faulted`). -/
theorem afterFaultOnlyConstruct : Obligations.AfterFaultOnlyConstruct := by
  intro i s hf hconstruct
  cases i
  case construct input params => exact absurd rfl (hconstruct input params)
  case chunkEnd => rw [exec, execChunkEnd, commit_faulted hf]
  case distSlot0To3 => rw [exec, execDistSlot0To3, commit_faulted hf]
  case dictIsComplete => rw [exec, execDictIsComplete, commit_faulted hf]
  case chunkLzmaProps => rw [exec, execChunkLzmaProps, commit_faulted hf]
  case chunkRawReset | chunkRaw | chunkReserved03 | chunkReserved04 | chunkReserved08 | chunkReserved10
    | chunkReserved20 | chunkReserved40 => exact rejectControl_faulted _ hf
  all_goals exact commit_faulted hf

/-- Settles O13: the code and the class evaluated, fault by fault. -/
theorem faultCodesAndClasses : Obligations.FaultCodesAndClasses := fun _ _ _ _ _ _ => rfl

/-! ## What decoding raises -/

/-- The two faults of the range coder: its budget is spent, or the input ends (R162, R130). -/
def CoderFault (f : CoreFault) : Prop := (∃ n, f = .budgetExhausted n) ∨ ∃ n, f = .endOfInput n

theorem normalize_raises (h : normalize s = .error (.raised f u)) : CoderFault f := by
  obtain ⟨-, ⟨-, h⟩ | ⟨-, h⟩⟩ := normalize_error.1 h
  · cases h
    exact .inl ⟨_, rfl⟩
  · rcases readByte_error.1 h with ⟨-, h⟩ | ⟨-, -, h⟩ <;> cases h
    exact .inr ⟨_, rfl⟩

theorem run_raises {d : Dec α} (h : d.run s = .error (.raised f u)) : CoderFault f := by
  induction d generalizing s with
  | ret a => exact absurd h pure_error
  | decide c k ih =>
    rcases bind_error.1 h with h | ⟨b, v, -, h⟩
    · exact normalize_raises (decodeBit_error.1 h)
    · exact ih b h
  | direct k ih =>
    rcases bind_error.1 h with h | ⟨b, v, -, h⟩
    · exact normalize_raises (decodeDirectBit_error.1 h)
    · exact ih b h

/-! ## What a packet samples raises nothing -/

theorem readOut_not_raised {a : Nat} : readOut a s ≠ .error (.raised f u) := fun h => by
  rcases readOut_error.1 h with ⟨-, -, h⟩ | ⟨-, h⟩ <;> cases h

theorem appendByte_not_raised {b : Byte} : appendByte b s ≠ .error (.raised f u) := fun h => by
  cases (appendByte_error.1 h).2

theorem byteAt_not_raised {d : Nat} : byteAt d s ≠ .error (.raised f u) := fun h => by
  rcases byteAt_error.1 h with ⟨-, h⟩ | ⟨-, -, h⟩
  · cases h
  · exact readOut_not_raised h

theorem litContext_not_raised : litContext s ≠ .error (.raised f u) := fun h => by
  rcases bind_error.1 h with h | ⟨x, v, -, h⟩
  · exact look_error h
  rcases bind_error.1 h with h | ⟨prev, w, -, h⟩
  · exact byteAt_not_raised h
  split at h
  · exact pure_error h
  rcases bind_error.1 h with h | ⟨rep0, y, -, h⟩
  · exact look_error h
  rcases bind_error.1 h with h | ⟨mb, z, -, h⟩
  · exact byteAt_not_raised h
  · exact pure_error h

theorem sampleContext_not_raised {k : PacketKind} : sampleContext k s ≠ .error (.raised f u) := by
  cases k
  case lit => exact litContext_not_raised
  all_goals exact look_error

/-! ## What a copy raises (R146) -/

/-- The two faults of a copy: its distance reaches before the buffer, or the limit stops it (R146, R302). -/
def CopyFault (f : CoreFault) : Prop := (∃ d p, f = .invalidDistance d p) ∨ ∃ n, f = .full n

theorem copyByte_raises {d : Nat} (h : copyByte d s = .error (.raised f u)) :
    (∃ d p, f = .invalidDistance d p) ∨ (s.dict.position = s.dict.limit ∧ ∃ n, f = .full n) := by
  rcases copyByte_error.1 h with ⟨-, h⟩ | ⟨-, hlimit, h⟩ | ⟨-, -, h | ⟨b, h, -⟩⟩
  · cases h
    exact .inl ⟨_, _, rfl⟩
  · cases h
    exact .inr ⟨hlimit, _, rfl⟩
  · exact absurd h readOut_not_raised
  · exact absurd h appendByte_not_raised

theorem copyBytes_raises {d n : Nat} (h : copyBytes d n s = .error (.raised f u)) : CopyFault f := by
  induction n generalizing s with
  | zero => exact absurd h pure_error
  | succ n ih =>
    rcases copyBytes_succ_error.1 h with h | ⟨v, -, h⟩
    · exact (copyByte_raises h).imp_right And.right
    · exact ih h

theorem copyFrom_raises {lz : Engine} {n : Nat} (h : copyFrom lz n s = .error (.raised f u)) : CopyFault f :=
  copyBytes_raises ((copyFrom_eq lz n s).symm.trans h)

/-- A copy of one byte tests the limit at its start only. -/
theorem copyFrom_one_raises {lz : Engine} (h : copyFrom lz 1 s = .error (.raised f u)) :
    (∃ d p, f = .invalidDistance d p) ∨ (s.dict.position = s.dict.limit ∧ ∃ n, f = .full n) := by
  rcases copyBytes_succ_error.1 ((copyFrom_eq lz 1 s).symm.trans h) with h | ⟨v, -, h⟩
  · exact copyByte_raises (s := s.setEngine lz) h
  · exact absurd h pure_error

/-! ## What a packet raises (R292) -/

/-- R292's row of each packet type, without the range coder's faults: what the effect raises on a dictionary. -/
def EffectFault (x : Dictionary) : PacketKind → CoreFault → Prop
  | .lit, f => x.position = x.limit ∧ ∃ n, f = .full n
  | .matchNew, f => (∃ n, f = .endMarker n) ∨ CopyFault f
  | .shortRep, f => (∃ d p, f = .invalidDistance d p) ∨ (x.position = x.limit ∧ ∃ n, f = .full n)
  | .longRep0, f | .longRep1, f | .longRep2, f | .longRep3, f => CopyFault f

/-- At the limit `Full` is in every row. -/
theorem effectFault_full {x : Dictionary} (h : x.position = x.limit) (k : PacketKind) (n : Nat) :
    EffectFault x k (.full n) := by
  cases k <;> simp [EffectFault, CopyFault, h]

/-- With room below the limit LIT raises nothing. -/
theorem applyPacket_lit_not_raised {b : Byte} (hroom : s.dict.position ≠ s.dict.limit) :
    applyPacket (.lit b) s ≠ .error (.raised f u) := fun h => by
  rcases bind_error.1 ((needRoom_bind hroom).symm.trans h) with h | ⟨lz, v, hlook, h⟩
  · exact look_error h
  obtain ⟨-, rfl⟩ := look_ok.1 hlook
  rcases bind_error.1 h with h | ⟨_, w, -, h⟩
  · rcases putLiteral_error.1 h with ⟨hlimit, -⟩ | ⟨-, h⟩
    · exact hroom hlimit
    · exact appendByte_not_raised h
  · exact update_error h

theorem applyPacket_raises {p : Packet} (h : applyPacket p s = .error (.raised f u)) :
    EffectFault s.dict p.kind f := by
  by_cases hroom : s.dict.position = s.dict.limit
  · rw [applyPacket_full hroom] at h
    cases h
    exact effectFault_full hroom p.kind _
  cases p with
  | lit b => exact absurd h (applyPacket_lit_not_raised hroom)
  | matchNew len dist =>
    by_cases hdist : dist = Config.endMarker
    · subst hdist
      rw [applyPacket_endMarker hroom] at h
      cases h
      exact .inl ⟨_, rfl⟩
    · rw [applyPacket_match hroom hdist] at h
      exact .inr (copyFrom_raises h)
  | shortRep => exact copyFrom_one_raises ((applyPacket_shortRep hroom).symm.trans h)
  | longRep0 len => exact copyFrom_raises ((LongRep.rep0.applyPacket hroom).symm.trans h)
  | longRep1 len => exact copyFrom_raises ((LongRep.rep1.applyPacket hroom).symm.trans h)
  | longRep2 len => exact copyFrom_raises ((LongRep.rep2.applyPacket hroom).symm.trans h)
  | longRep3 len => exact copyFrom_raises ((LongRep.rep3.applyPacket hroom).symm.trans h)

/-- The operands of a packet are of its type, and their decoding leaves the dictionary as it was. -/
theorem packetBody_raises {k : PacketKind} (hbody : packetBody k s = .error (.raised f u)) :
    CoderFault f ∨ EffectFault s.dict k f := by
  rcases bind_error.1 hbody with h | ⟨x, v, hsample, hdecode⟩
  · exact absurd h sampleContext_not_raised
  obtain rfl := sampleContext_ok hsample
  rcases bind_error.1 hdecode with h | ⟨p, w, hrun, h⟩
  · exact .inl (run_raises h)
  · have hkind : p.kind = k := (yields_operand_kind x k).run hrun
    rw [← (run_frame hrun).dict, ← hkind]
    exact .inr (applyPacket_raises h)

/-! ## What a packet's instruction takes -/

/-- A packet's instruction that gives a next state is its body: where that needs an `rc.init`, there has been one. -/
theorem exec_packet_of_next {k : PacketKind} (hnone : s.fault = none) (h : exec k.instr s = .next t) :
    exec k.instr s = commit (fun _ => .ok) (packetBody k) s := by
  by_cases hs : s.stage = .uninit
  · have hrefused : commit (fun _ => .ok) (do needRc; packetBody k) s = .refused .rcNotInitialised :=
      commit_refused hnone (bind_error.2 (.inl (needRc_error.2 ⟨hs, rfl⟩)))
    cases k
    case shortRep => rfl
    all_goals cases h.symm.trans hrefused
  · exact exec_packet hs k

theorem exec_packet_takes {k : PacketKind} (hnone : s.fault = none) (hf : t.fault = some f)
    (h : exec k.instr s = .next t) : CoderFault f ∨ EffectFault s.dict k f := by
  rw [exec_packet_of_next hnone h] at h
  obtain ⟨-, ⟨_, v, hrun, rfl⟩ | ⟨g, v, hrun, rfl⟩⟩ := commit_next.1 h
  · have hkept : v.fault = none := ((spares_packetBody k).keeps hrun).trans hnone
    cases hkept.symm.trans hf
  · cases hf
    exact packetBody_raises hrun

/-- Settles O44: each packet's row, by `exec_packet_takes`. -/
theorem packetFaultKinds : Obligations.PacketFaultKinds := by
  intro s t f hnone hf
  have htakes (k : PacketKind) (h : exec k.instr s = .next t) : CoderFault f ∨ EffectFault s.dict k f :=
    exec_packet_takes hnone hf h
  refine ⟨htakes .lit, htakes .matchNew, htakes .shortRep, ?_⟩
  rintro (h | h | h | h)
  · exact htakes .longRep0 h
  · exact htakes .longRep1 h
  · exact htakes .longRep2 h
  · exact htakes .longRep3 h

end Sys2Proof.Machine

/-! # Reset and the order of operations (spec/70_reset_and_hazards.md R330, R332, R333)

Construction is one state update, read field by field. An operation out of order is refused by the check that stands
first in it, whatever follows the check (`commit_check_refused`): below, what each check refuses, then the instructions
that begin with it. -/

namespace Sys2Proof.Machine

variable {α β : Type} {s : State}

/-! ## Construction (R330, R46) -/

/-- `construct` of sizes the registers can hold is the reset, whatever the state before it. -/
theorem exec_construct {wPos capacity : Nat} {input : List Byte} (hin : input.length < 2 ^ wPos)
    (hcap : capacity < 2 ^ wPos) (s : State) :
    exec (.construct input ⟨wPos, capacity⟩) s = .next (s.construct wPos input capacity) :=
  if_pos ⟨hin, hcap⟩

/-- `IN` placed from address 0 on is the input itself, and nothing beyond it (R60). -/
theorem read_place_zero (input : List Byte) (a : Nat) : (Mem.place [] 0 input).read a = input[a]? := by
  rw [Mem.read_place]
  by_cases ha : a < input.length
  · rw [if_pos ⟨Nat.zero_le a, by omega⟩, Nat.sub_zero]
  · rw [if_neg (by omega), Mem.read_nil, List.getElem?_eq_none (Nat.not_lt.1 ha)]

/-- Settles O10: `exec_construct`, its state field by field; a size too large fails the check of `execConstruct`. -/
theorem constructEstablishesState : Obligations.ConstructEstablishesState := by
  refine ⟨fun s wPos input capacity hin hcap => ⟨_, exec_construct hin hcap s, rfl, rfl, read_place_zero input, rfl, rfl,
    fun _ => rfl, rfl, rfl, rfl, rfl, rfl, rfl, rfl, rfl⟩, fun s wPos input capacity hlarge => ?_⟩
  have hfails : ¬(input.length < 2 ^ wPos ∧ capacity < 2 ^ wPos) := fun ⟨hin, hcap⟩ =>
    hlarge.elim (Nat.not_le.2 hin) (Nat.not_le.2 hcap)
  exact if_neg hfails

/-! ## What the checks refuse (R332, R333, R252) -/

theorem needRc_uninit (hs : s.stage = .uninit) : needRc s = .error (.refuse .rcNotInitialised) :=
  needRc_error.2 ⟨hs, rfl⟩

theorem needChunk_uninit (hs : s.stage = .uninit) : needChunk s = .error (.refuse .rcNotInitialised) := by
  simp [needChunk, hs]

theorem needChunk_decoded (hs : s.stage = .decoded) : needChunk s = .error (.refuse .decodeRepeated) := by
  simp [needChunk, hs]

theorem needChunk_noLimit (hs : s.stage = .ready) (hlimit : s.limitSet = false) :
    needChunk s = .error (.refuse .limitNotSet) := by
  simp [needChunk, hs, hlimit]

theorem needLimit_noLimit (hlimit : s.limitSet = false) : needLimit s = .error (.refuse .limitNotSet) := by
  simp [needLimit, hlimit]

theorem needBeforeInit_ready (hs : s.stage = .ready) : needBeforeInit s = .error (.refuse .outOfOrder) := by
  simp [needBeforeInit, hs]

theorem needBetweenChunks_begun (h : s.stage = .ready ∨ s.limitSet = true) :
    needBetweenChunks s = .error (.refuse .outOfOrder) := by
  rw [needBetweenChunks, if_pos (by simpa using h.symm)]
  rfl

/-! ## Operations that begin with a check -/

/-- An operation is refused as its first part refuses, whatever comes after it. -/
theorem commit_check_refused {ret : β → Result} {m : M α} {k : α → M β} {r : Refusal} (hf : s.fault = none)
    (h : m s = .error (.refuse r)) : commit ret (m >>= k) s = .refused r :=
  commit_refused hf (bind_error.2 (.inl h))

/-- A chunk that resets the model is refused after the host's `dict.set_limit` or `rc.init` (R215, R332). -/
theorem lzmaChunk_reset_refused (hmode : s.mode = .decode) (h : s.stage = .ready ∨ s.limitSet = true) (u : BitVec 21)
    (c : BitVec 16) : lzmaChunk true u c s = .error (.refuse .outOfOrder) := by
  have hreset : chunkReset true s = .error (.refuse .outOfOrder) := bind_error.2 (.inl (needBetweenChunks_begun h))
  exact bind_error.2 (.inr ⟨.decode, s, look_ok.2 ⟨hmode, rfl⟩, bind_error.2 (.inl hreset)⟩)

/-- A chunk without a reset is refused after the host's `rc.init`: its own `dict.set_limit` comes too late (R332). -/
theorem lzmaChunk_noReset_refused (hmode : s.mode = .decode) (h : s.stage = .ready) (u : BitVec 21) (c : BitVec 16) :
    lzmaChunk false u c s = .error (.refuse .outOfOrder) := by
  have hreset : chunkReset false s = .ok ((), s) := rfl
  exact (lzmaChunk_decode hmode hreset).trans (bind_error.2 (.inl (needBeforeInit_ready h)))

/-- An accepted chunk command is refused as its `lzmaChunk` refuses. -/
theorem exec_acceptedChunk_refused {u : BitVec 21} {c : BitVec 16} {i : Instr} {reset : Bool} {r : Refusal}
    (hi : AcceptedChunk u c i reset) (hf : s.fault = none) (h : lzmaChunk reset u c s = .error (.refuse r)) :
    exec i s = .refused r := (exec_acceptedChunk hi s).trans (commit_refused hf h)

/-- Settles O12: each instruction begins with the check that refuses it (`commit_check_refused`), a chunk command with
its reset's or its `dict.set_limit`'s; `dict.copy_match` and `dict.byte_at` test their distance first. -/
theorem outOfOrderOperationsRefused : Obligations.OutOfOrderOperationsRefused := by
  refine ⟨fun i s hf hs hi => ?_,
    fun s hf hs => commit_check_refused hf (needChunk_decoded hs),
    fun s hf hs hlimit => commit_check_refused hf (needChunk_noLimit hs hlimit),
    fun s c hf hlimit => commit_check_refused hf (needLimit_noLimit hlimit),
    fun s n hf hs => commit_check_refused hf (needBeforeInit_ready hs),
    fun s hf hbegun => commit_check_refused hf (needBetweenChunks_begun hbegun),
    fun s u c hf hmode => ⟨fun hs => ?_, fun hbegun => ⟨?_, ?_⟩⟩,
    fun s n hf => commit_refused (ret := fun _ => .ok) (m := copyMatch 0 n) hf rfl,
    fun s hf => commit_refused (ret := .byte) hf (byteAt_error.2 (.inl ⟨rfl, rfl⟩))⟩
  · rcases hi with rfl | ⟨c, rfl⟩ | ⟨n, rfl⟩ | ⟨t, n, rfl⟩ | ⟨t, n, rfl⟩ | ⟨c, b, rfl⟩ | rfl | rfl | rfl | rfl | rfl | rfl |
      rfl | rfl | ⟨l, ps, rfl⟩ | ⟨l, ps, rfl⟩ | ⟨l, rfl⟩ | ⟨k, rfl⟩ | ⟨k, rfl⟩ | ⟨l, ps, rfl⟩ | ⟨len, rfl⟩
    all_goals exact commit_check_refused hf (by simp only [needRc_uninit hs, needChunk_uninit hs])
  · exact exec_acceptedChunk_refused .none hf (lzmaChunk_noReset_refused hmode hs u c)
  · exact exec_acceptedChunk_refused .state hf (lzmaChunk_reset_refused hmode hbegun u c)
  · exact exec_acceptedChunk_refused .full hf (lzmaChunk_reset_refused hmode hbegun u c)

end Sys2Proof.Machine
